-- ==== Sys2Proof/Word.lean ====
section
/-! DEFINITION. The word types of the hardware: a byte (00_scope.md R13) and a 7-bit bus address (R8). -/

namespace Sys2Proof

/-- Eight bits, bit 0 the least significant (R13). Device registers, register addresses, lengths,
descriptor and response bytes are bytes. -/
abbrev Byte := BitVec 8

/-- A 7-bit device address on the bus (R8, R124). -/
abbrev Addr7 := BitVec 7

end Sys2Proof
end

