-- ==== Sys2Proof/Syntax.lean ====
section
/-! DEFINITION. The nine commands of the opcode map (30_encoding.md R101), which are this
hardware's instructions (00_scope.md R3), and the two values they carry: CalendarTime (R26)
and RegisterImage (R27). -/

namespace Sys2Proof

/-- CalendarTime, "the normalized time value exchanged with callers and with the host clock"
(10_state.md R26). The source says "integer": the fields are integers, so a value outside its
bound, a negative one included, is a value that validation rejects (D15). The port widths
(8 bits, the year 16) are a condition of WellFormed. -/
structure CalendarTime where
  second  : Int
  minute  : Int
  hour    : Int
  day     : Int
  weekday : Int
  month   : Int
  year    : Int
  deriving DecidableEq, Repr, Inhabited

/-- RegisterImage, "exactly 7 bytes, one per field (second, minute, hour, day, weekday, month,
year), each a packed BCD byte" (R27): `img[0]` is `second`, ..., `img[6]` is `year`. -/
structure RegisterImage where
  second  : Byte
  minute  : Byte
  hour    : Byte
  day     : Byte
  weekday : Byte
  month   : Byte
  year    : Byte
  deriving DecidableEq, Repr, Inhabited

/-- The commands, one constructor per row of the opcode table (R3, R101). The names of R112
are other spellings of these nine. -/
inductive Instr where
  /-- ENSURE_INIT `mode` (R182). -/
  | ensureInit (mode : Byte)
  /-- GET_DATETIME (R196). -/
  | getDateTime
  /-- SET_DATETIME `ct` (R200). -/
  | setDateTime (ct : CalendarTime)
  /-- SYNC_DEV_TO_HOST (R219). -/
  | syncDevToHost
  /-- SYNC_HOST_TO_DEV (R222). -/
  | syncHostToDev
  /-- BUS_WRITE `reg, [buf...]` (R130); `len` is the length of `buf`. -/
  | busWrite (reg : Byte) (buf : List Byte)
  /-- BUS_READ `reg, len` (R131). -/
  | busRead (reg : Byte) (len : Byte)
  /-- ENCODE `ct` (R153). -/
  | encodeTime (ct : CalendarTime)
  /-- DECODE `img` (R160). -/
  | decodeTime (img : RegisterImage)
  deriving DecidableEq, Repr

end Sys2Proof
end

