-- ==== Sys2Proof/WellFormed.lean ====
section
/-! DEFINITION. Which commands a descriptor can present: the port widths of a CalendarTime
(10_state.md R26, 30_encoding.md R102) and the bounds of a transaction (20_memory.md R55).
Values outside the calendar's bounds are well formed: "values outside the bounds are rejected by
validation, not by the decoder" (R102). -/

namespace Sys2Proof

/-- The value fits an 8-bit unsigned port (R26). -/
abbrev FitsByte (v : Int) : Prop := 0 ≤ v ∧ v ≤ 255

/-- Every field fits its port: 8 bits, the year 16 (R26, R102). -/
abbrev CalendarTime.FitsPort (ct : CalendarTime) : Prop :=
  FitsByte ct.second ∧ FitsByte ct.minute ∧ FitsByte ct.hour ∧ FitsByte ct.day ∧
  FitsByte ct.weekday ∧ FitsByte ct.month ∧ 0 ≤ ct.year ∧ ct.year ≤ 65535

/-- `1 <= len <= 255` and `reg + len <= 256` (R55). -/
abbrev InBounds (reg : Byte) (len : Nat) : Prop :=
  1 ≤ len ∧ len ≤ 255 ∧ reg.toNat + len ≤ 256

/-- The commands that some descriptor presents. -/
abbrev Instr.WellFormed : Instr → Prop
  | .ensureInit _ => True
  | .getDateTime => True
  | .setDateTime ct => ct.FitsPort
  | .syncDevToHost => True
  | .syncHostToDev => True
  | .busWrite reg buf => InBounds reg buf.length
  | .busRead reg len => InBounds reg len.toNat
  | .encodeTime ct => ct.FitsPort
  | .decodeTime _ => True

/-- The same as a check that runs. -/
def Instr.wellFormed : Instr → Bool
  | .ensureInit _ => true
  | .getDateTime => true
  | .setDateTime ct => decide ct.FitsPort
  | .syncDevToHost => true
  | .syncHostToDev => true
  | .busWrite reg buf => decide (InBounds reg buf.length)
  | .busRead reg len => decide (InBounds reg len.toNat)
  | .encodeTime ct => decide ct.FitsPort
  | .decodeTime _ => true

end Sys2Proof
end

