-- ==== Sys2Proof/Decode.lean ====
section
/-! DEFINITION. The command descriptors (30_encoding.md R100 to R103, R108, R110): the decoder,
total on any byte string and rejecting by name, and after it the encoder. -/

namespace Sys2Proof

/-- The nine opcodes (R101). -/
inductive Opcode where
  | ensureInit
  | getDateTime
  | setDateTime
  | syncDevToHost
  | syncHostToDev
  | busWrite
  | busRead
  | encodeTime
  | decodeTime
  deriving DecidableEq, Repr

/-- The opcode map of R101. -/
def Opcode.code : Opcode → Byte
  | .ensureInit => 0x01
  | .getDateTime => 0x02
  | .setDateTime => 0x03
  | .syncDevToHost => 0x04
  | .syncHostToDev => 0x05
  | .busWrite => 0x10
  | .busRead => 0x11
  | .encodeTime => 0x20
  | .decodeTime => 0x21

/-- The rows of R101 in order. -/
def Opcode.all : List Opcode :=
  [.ensureInit, .getDateTime, .setDateTime, .syncDevToHost, .syncHostToDev,
   .busWrite, .busRead, .encodeTime, .decodeTime]

/-- The opcode a first byte names; all other bytes "are reserved and illegal" (R108). -/
def opcodeOf (b : Byte) : Option Opcode :=
  Opcode.all.find? fun o => o.code == b

/-- Why a descriptor is illegal (R108). All give the one verdict `IllegalCommand`. -/
inductive DecodeError where
  /-- No byte at all: there is no opcode. -/
  | empty
  /-- The first byte is not one of the nine opcodes. -/
  | reservedOpcode (op : Byte)
  /-- `cmd_last` came earlier or later than the length of R103. -/
  | wrongLength (op : Opcode)
  /-- BUS_WRITE or BUS_READ with `len = 0`. -/
  | zeroLength
  /-- BUS_WRITE or BUS_READ with `reg + len > 256`. -/
  | pastEnd
  deriving DecidableEq, Repr

/-- The 8-byte CalendarTime operand, the year little-endian (R102). -/
def calendarOfBytes (second minute hour day weekday month yearLo yearHi : Byte) : CalendarTime where
  second := second.toNat
  minute := minute.toNat
  hour := hour.toNat
  day := day.toNat
  weekday := weekday.toNat
  month := month.toNat
  year := yearLo.toNat + 256 * yearHi.toNat

/-- The bounds of R55 on a transaction descriptor. -/
def checkBounds (reg len : Byte) (i : Instr) : Except DecodeError Instr :=
  if len = 0 then .error .zeroLength
  else if reg.toNat + len.toNat > 256 then .error .pastEnd
  else .ok i

/-- ENSURE_INIT takes one byte. -/
def decodeMode : List Byte → Except DecodeError Instr
  | [mode] => .ok (.ensureInit mode)
  | _ => .error (.wrongLength .ensureInit)

/-- A command without operands. -/
def decodeNone (op : Opcode) (i : Instr) : List Byte → Except DecodeError Instr
  | [] => .ok i
  | _ :: _ => .error (.wrongLength op)

/-- The eight bytes of a CalendarTime operand (R102). -/
def decodeCalendar (op : Opcode) (build : CalendarTime → Instr) : List Byte → Except DecodeError Instr
  | [s, m, h, d, w, mo, yl, yh] => .ok (build (calendarOfBytes s m h d w mo yl yh))
  | _ => .error (.wrongLength op)

/-- BUS_WRITE: `reg`, `len` and exactly `len` data bytes (R103). -/
def decodeBusWrite : List Byte → Except DecodeError Instr
  | reg :: len :: buf =>
    if buf.length = len.toNat then checkBounds reg len (.busWrite reg buf)
    else .error (.wrongLength .busWrite)
  | _ => .error (.wrongLength .busWrite)

/-- BUS_READ: `reg` and `len`. -/
def decodeBusRead : List Byte → Except DecodeError Instr
  | [reg, len] => checkBounds reg len (.busRead reg len)
  | _ => .error (.wrongLength .busRead)

/-- DECODE: the seven bytes of a RegisterImage. -/
def decodeImageOperand : List Byte → Except DecodeError Instr
  | [i0, i1, i2, i3, i4, i5, i6] => .ok (.decodeTime ⟨i0, i1, i2, i3, i4, i5, i6⟩)
  | _ => .error (.wrongLength .decodeTime)

/-- The operand bytes of each opcode (R101, R102, R103). -/
def decodeOperands : Opcode → List Byte → Except DecodeError Instr
  | .ensureInit => decodeMode
  | .getDateTime => decodeNone .getDateTime .getDateTime
  | .setDateTime => decodeCalendar .setDateTime .setDateTime
  | .syncDevToHost => decodeNone .syncDevToHost .syncDevToHost
  | .syncHostToDev => decodeNone .syncHostToDev .syncHostToDev
  | .busWrite => decodeBusWrite
  | .busRead => decodeBusRead
  | .encodeTime => decodeCalendar .encodeTime .encodeTime
  | .decodeTime => decodeImageOperand

/-- The descriptor decoder, total on any byte sequence (R108). The list is one descriptor: its
last byte is the one `cmd_last` marks (R100). -/
def decode : List Byte → Except DecodeError Instr
  | [] => .error .empty
  | op :: operands =>
    match opcodeOf op with
    | none => .error (.reservedOpcode op)
    | some o => decodeOperands o operands

/-! The encoder, from the same map (R101, R102). -/

/-- The low byte of an integer. -/
def byteOfInt (v : Int) : Byte := BitVec.ofInt 8 v

/-- The 8 bytes of a CalendarTime on the command and response ports (R102). -/
def calendarBytes (ct : CalendarTime) : List Byte :=
  [byteOfInt ct.second, byteOfInt ct.minute, byteOfInt ct.hour, byteOfInt ct.day,
   byteOfInt ct.weekday, byteOfInt ct.month, byteOfInt ct.year, byteOfInt (ct.year / 256)]

/-- The 7 bytes of a RegisterImage in the order of R27 and R51. -/
def imageBytes (img : RegisterImage) : List Byte :=
  [img.second, img.minute, img.hour, img.day, img.weekday, img.month, img.year]

/-- The opcode of a command. -/
def Instr.opcode : Instr → Opcode
  | .ensureInit _ => .ensureInit
  | .getDateTime => .getDateTime
  | .setDateTime _ => .setDateTime
  | .syncDevToHost => .syncDevToHost
  | .syncHostToDev => .syncHostToDev
  | .busWrite _ _ => .busWrite
  | .busRead _ _ => .busRead
  | .encodeTime _ => .encodeTime
  | .decodeTime _ => .decodeTime

/-- The operand bytes of a command (R101). -/
def Instr.operandBytes : Instr → List Byte
  | .ensureInit mode => [mode]
  | .getDateTime => []
  | .setDateTime ct => calendarBytes ct
  | .syncDevToHost => []
  | .syncHostToDev => []
  | .busWrite reg buf => reg :: BitVec.ofNat 8 buf.length :: buf
  | .busRead reg len => [reg, len]
  | .encodeTime ct => calendarBytes ct
  | .decodeTime img => imageBytes img

/-- The descriptor of a command: "the first being the opcode, the rest the operands" (R100). -/
def encode (i : Instr) : List Byte := i.opcode.code :: i.operandBytes

/-! The numbering of the opcode table: bit 0 is the least significant bit of the first byte. -/

/-- The total length of a descriptor from its first and third bytes (R101, R103). -/
def descriptorLength (op third : Byte) : Nat :=
  match opcodeOf op with
  | none => 1
  | some .ensureInit => 2
  | some .getDateTime => 1
  | some .setDateTime => 9
  | some .syncDevToHost => 1
  | some .syncHostToDev => 1
  | some .busWrite => 3 + third.toNat
  | some .busRead => 3
  | some .encodeTime => 9
  | some .decodeTime => 8

/-- The low `n` bytes of a number, the least significant first. -/
def bytesOfNat : Nat → Nat → List Byte
  | 0, _ => []
  | n + 1, w => BitVec.ofNat 8 w :: bytesOfNat n (w / 256)

/-- The descriptor of a table word: `nbits` bits of `w` and zero operand bytes up to the length
that R103 gives the opcode. -/
def tableDescriptor (nbits w : Nat) : List Byte :=
  let bits := w % 2 ^ nbits
  bytesOfNat (max (nbits / 8) (descriptorLength (BitVec.ofNat 8 bits) (BitVec.ofNat 8 (bits / 65536)))) bits

/-- The instruction the decoder reads from a table word. -/
def decodeTableWord (nbits w : Nat) : Option Instr :=
  match decode (tableDescriptor nbits w) with
  | .ok i => some i
  | .error _ => none

end Sys2Proof
end

