-- ==== Sys2Proof/Config.lean ====
section
/-! DEFINITION. What an implementation fixes (the parameters of 00_scope.md R8), what the
environment may answer (40_bus_transactions.md R120, R121) and the free values: what the spec
leaves open, as constants without a body. -/

namespace Sys2Proof

/-- The two legal values of `P_DAY_MAX` (R8, D14, C2). -/
inductive DayMax where
  | d31
  | d32
  deriving DecidableEq, Repr

/-- `P_BUS_CFG`: "opaque record handed to the transport at every acquire; no rule reads inside
it" (R8, D39). Its bytes are carried, never read. -/
structure BusCfg where
  raw : List Byte
  deriving DecidableEq, Repr

/-- Which `civil_to_epoch` the host software uses: R216 takes it "as a configuration function of
which this is the reference instance". -/
inductive CivilRule where
  /-- The algorithm of R216. -/
  | reference
  /-- Another function, about which nothing is known (`Config.civilOther`). -/
  | other (id : Nat)
  deriving DecidableEq, Repr

/-- The parameters of the controller (R8). They "are configuration, not state: they do not change
after reset and no command writes them" (R32). The constraints of R9 are `Config.ok`. -/
structure Config where
  /-- `P_DEV_ADDR` -/
  devAddr         : Addr7
  /-- `P_ADDR_CONTROL_1` -/
  addrControl1    : Byte
  /-- `P_ADDR_CONTROL_2` -/
  addrControl2    : Byte
  /-- `P_ADDR_TIME_BLOCK` -/
  addrTimeBlock   : Byte
  /-- `P_INIT_MODE_DEFAULT` -/
  initModeDefault : Byte
  /-- `P_DAY_MAX` -/
  dayMax          : DayMax
  /-- `P_BUS_CFG` -/
  busCfg          : BusCfg
  /-- which `civil_to_epoch` (R216) -/
  civil           : CivilRule
  deriving DecidableEq, Repr

/-- The direction of a begin (R120). -/
inductive Dir where
  | write
  | read
  deriving DecidableEq, Repr

/-- The six transport events (R120). -/
inductive TpEvent where
  /-- `TP.ACQ(cfg)` -/
  | acq (cfg : BusCfg)
  /-- `TP.START(addr7, dir)` -/
  | start (addr : Addr7) (dir : Dir)
  /-- `TP.TX(byte)` -/
  | tx (byte : Byte)
  /-- `TP.RX(ack)` -/
  | rx (ack : Bool)
  /-- `TP.STOP()` -/
  | stop
  /-- `TP.REL()` -/
  | rel
  deriving DecidableEq, Repr

/-- The failing answers of R121. -/
inductive TpFailure where
  | noAck
  | timeout
  | arbLost
  | fault
  deriving DecidableEq, Repr, Inhabited

/-- `TpResult` (R121): `Ok`, for `RX` `Ok(byte)`, or one of the four failures. -/
inductive TpResult where
  | ok
  | okByte (b : Byte)
  | fail (f : TpFailure)
  deriving DecidableEq, Repr

/-- One draw of the environment for one transport event (20_memory.md R60).
DESIGN CHOICE (log 4): the coding of an answer as plain data. -/
inductive Draw where
  /-- Answer as the reference device with an always-`Ok` transport does (R58). -/
  | asReference
  /-- Answer `Ok`; for an `RX` the byte is `byte`, under no law. -/
  | ok (byte : Byte)
  /-- Answer `f`; `lands` says whether the failing event took effect in the device all the same
  ("the byte whose `TX` failed may or may not have been stored", R63). -/
  | fail (f : TpFailure) (lands : Bool)
  deriving DecidableEq, Repr, Inhabited

/-- What answers an event once the script of draws is used up. -/
inductive EnvMode where
  /-- The unconstrained oracle of R60: the free value `Config.tpDraw`. -/
  | oracle
  /-- The reference device of R58. -/
  | reference
  deriving DecidableEq, Repr

/-- FREE VALUE (log 4): the answer to the `n`-th transport event when nothing else decides it (R60). -/
opaque Config.tpDraw : Nat → Draw

/-- FREE VALUE (log 7): what a device register holds that no write of this model has reached
(R41 "unspecified at that moment", K15 "any value"). -/
opaque Config.devUnwritten : Nat → Byte

/-- FREE VALUE (log 8): the device's pointer after an access at 0xFF (R55: the source "does not
say ... what the device's pointer does after address 0xFF"), at the `n`-th event. -/
opaque Config.ptrPastEnd : Nat → Byte

/-- FREE VALUE (log 11): the host's broken-down UTC time at clock `epoch`, at the `n`-th reading (R215). -/
opaque Config.hostUtc : Int → Nat → CalendarTime

/-- FREE VALUE (log 12): `civil_to_epoch` outside the canonical bounds, which R216 leaves
"unspecified" (K14 "any value"). -/
opaque Config.civilOpen : CalendarTime → Int

/-- FREE VALUE (log 12): the other conversions a host may use instead of R216's reference instance. -/
opaque Config.civilOther : Nat → CalendarTime → Int

end Sys2Proof
end

