-- ==== Sys2Proof/Machine/State.lean ====
section
/-! DEFINITION. Everything the spec gives the machine, as plain data (10_state.md), the results of
a command (00_scope.md R15), how a step can stop, and the state after reset (R41). -/

namespace Sys2Proof

/-- The parameter values the model's reset carries: the spec's suggestions of R8.
PRESUMED (log 2): the addresses are the family's, not the source's. -/
def Config.suggested : Config where
  devAddr := 0x51
  addrControl1 := 0x00
  addrControl2 := 0x01
  addrTimeBlock := 0x02
  initModeDefault := 0x00
  dayMax := .d31
  busCfg := ⟨[]⟩
  civil := .reference

end Sys2Proof

namespace Sys2Proof.Machine

/-- DeviceInitState (R21, R180). -/
inductive DeviceInitState where
  | uninitialized
  | ready
  deriving DecidableEq, Repr

/-- The values of `S.phase` (R24). -/
inductive Phase where
  | idle
  | decodeCmd
  | validate
  | initC1
  | initC2
  | xfer
  | hostIo
  | respond
  deriving DecidableEq, Repr

/-- The values of `S.tphase` (R24, R138). -/
inductive TPhase where
  | acq
  | startW
  | reg
  | dataTx (i : Nat)
  | startR
  | dataRx (i : Nat)
  | stop
  | rel
  | done
  deriving DecidableEq, Repr

/-- The cause of a `BusError` (R15, R231). -/
inductive Cause where
  | noAck
  | timeout
  | arbitrationLost
  | transport
  deriving DecidableEq, Repr

/-- The errors a command can end with (R15, R230). -/
inductive CmdError where
  | busError (c : Cause)
  | invalidDateTime
  | initError (c : Cause)
  | illegalCommand
  deriving DecidableEq, Repr

/-- What an `Ok` carries (R107; the flag of SYNC_DEV_TO_HOST, R219). -/
inductive Payload where
  /-- Nothing: BUS_WRITE, ENSURE_INIT, SET_DATETIME, SYNC_HOST_TO_DEV. -/
  | unit
  /-- A CalendarTime and the integrity flag: GET_DATETIME, DECODE. -/
  | time (ct : CalendarTime) (integrityFlag : Bool)
  /-- The integrity flag alone: SYNC_DEV_TO_HOST. -/
  | flag (integrityFlag : Bool)
  /-- A RegisterImage: ENCODE. -/
  | image (img : RegisterImage)
  /-- The bytes received: BUS_READ. -/
  | bytes (bs : List Byte)
  deriving DecidableEq, Repr

/-- The result of a command (R15). -/
inductive Result where
  | ok (p : Payload)
  | err (e : CmdError)
  deriving DecidableEq, Repr

/-- The per-command registers (R25 to R29). `none` is the spec's "no value" (R41, R42). -/
structure CmdRegs where
  ct     : Option CalendarTime
  img    : Option RegisterImage
  reg    : Option Byte
  len    : Option Byte
  buf    : Option (List Byte)
  mode   : Option Byte
  result : Option Result
  deriving DecidableEq, Repr

/-- All of them without a value: outside a command (R20, R42). -/
def CmdRegs.empty : CmdRegs where
  ct := none
  img := none
  reg := none
  len := none
  buf := none
  mode := none
  result := none

/-- The device's registers: Host.Cell pairs of address and byte, addresses strictly rising. An
address that is not listed has no value known to the model (`Config.devUnwritten`, log 7). -/
abbrev Memory := List Host.Cell

/-- The device `DEV` as R58 describes it. -/
structure Device where
  /-- `regs[0..255]` -/
  regs  : Memory
  /-- the register pointer (R38) -/
  ptr   : Byte
  /-- `dir` in none, W, R -/
  dir   : Option Dir
  /-- the next `TX` loads the pointer -/
  first : Bool
  deriving DecidableEq, Repr

/-- One entry of the bus trace (R16, R40): an event and its answer. -/
structure BusEvent where
  event  : TpEvent
  result : TpResult
  deriving DecidableEq, Repr

/-- What the outside does next, in order (log 15). -/
inductive Input where
  /-- The host presents a descriptor and the command runs as one step (R68). -/
  | command (descriptor : List Byte)
  /-- The host presents a descriptor and the command runs phase by phase, one phase or one
  transport event a step (R24, R138, R191). -/
  | commandPhased (descriptor : List Byte)
  /-- `rst_n` is asserted (R260 to R262). -/
  | reset
  /-- The device changes one of its registers by itself (R35: "the device also changes them by
  itself as time passes"), loses its configuration (R273), or another master writes it (R69). -/
  | devChange (addr value : Byte)
  /-- The host clock "advances by itself" (R39). -/
  | clockAdvance (seconds : Nat)
  /-- Nothing from outside during this step. -/
  | wait
  /-- The transport has not answered the event it was given: the running command, presented phase by
  phase, stays where it is (R123, R272). -/
  | stall
  deriving DecidableEq, Repr

/-- The environment's answers (log 4, 5, 11). The model's own fields. -/
structure Env where
  mode       : EnvMode
  /-- answers already decided for the coming transport events -/
  script     : List Draw
  /-- breakdowns already decided for the coming readings of the host clock -/
  hostScript : List CalendarTime
  /-- how many transport events were issued; index of the free values -/
  events     : Nat
  /-- how many host clock readings were made; index of the free value -/
  hostReads  : Nat
  deriving DecidableEq, Repr

/-- The machine. -/
structure State where
  /-- the parameters; configuration, constant (R8, R32) -/
  cfg         : Config
  /-- `S.init_state` (R21) -/
  initState   : DeviceInitState
  /-- `S.phase` (R24) -/
  phase       : Phase
  /-- `S.tphase` (R24, R138) -/
  tphase      : TPhase
  /-- `S.bus_held` (R22) -/
  busHeld     : Bool
  /-- the latched error of the transaction (R138) -/
  latched     : Option Cause
  /-- the accepted descriptor (R72, R100) -/
  desc        : Option (List Byte)
  /-- the command being run (R24) -/
  cur         : Option Instr
  /-- the per-command registers (R25 to R29) -/
  regs        : CmdRegs
  /-- the device (R33 to R35, R38, R58) -/
  dev         : Device
  /-- the transport's installed condition (R38) -/
  tpInstalled : Bool
  /-- `HOST.epoch` (R39) -/
  hostEpoch   : Int
  /-- the bus trace, oldest first (R40) -/
  trace       : List BusEvent
  /-- the response descriptors delivered, oldest first (R104) -/
  responses   : List (List Byte)
  /-- what the outside will do, the next first (log 15) -/
  inbox       : List Input
  /-- the environment's answers (R60) -/
  env         : Env
  deriving DecidableEq, Repr

/-- Names of the registers that can be without a value. -/
inductive ValueReg where
  | desc
  | cur
  | ct
  | img
  | reg
  | len
  | buf
  | mode
  | result
  deriving DecidableEq, Repr

/-- How the machine can stop with a fault. No run from reset reaches one. -/
inductive Fault where
  /-- Raised by `tick` alone: a read of a per-command register that no step of the running command
  has written (R42 "A model should make such a read a fault"). Safe: the machine stops. -/
  | noValue (r : ValueReg)
  /-- Raised by `tick` alone: the sequencing registers hold a combination that no path of R191
  gives (a reception whose index is not the number of bytes received, a phase that the command in `cur` never enters). Safe. -/
  | noPath
  deriving DecidableEq, Repr

/-- Why the machine gives no meaning. -/
inductive Refusal where
  /-- An instruction without a meaning yet, by its mnemonic; raised by no arm of this model. Safe. -/
  | notModelled (mnemonic : String)
  /-- Raised by `step`: the parameters break a constraint of R9 ("A configuration that breaks a
  constraint is refused by the model (no meaning given)"). Safe. -/
  | badConfig
  deriving DecidableEq, Repr

/-- The machine right after reset (R41, R260). DESIGN CHOICE where R41 gives no value: the device's
pointer, direction and first flag (log 9), the host clock (log 11), the environment (log 4, 5). -/
def State.reset : State where
  cfg := Config.suggested
  initState := .uninitialized
  phase := .idle
  tphase := .done
  busHeld := false
  latched := none
  desc := none
  cur := none
  regs := CmdRegs.empty
  dev := ⟨[], 0x00, none, false⟩
  tpInstalled := false
  hostEpoch := 0
  trace := []
  responses := []
  inbox := []
  env := ⟨.oracle, [], [], 0, 0⟩

end Sys2Proof.Machine
end

