-- ==== Sys2Proof/Machine/Flags.lean ====
section
/-! DEFINITION. The two one-bit flags of the hardware, both in the RegisterImage (10_state.md R30),
and the flag byte of a response (30_encoding.md R106). There are no condition codes (R31). -/

namespace Sys2Proof.Machine

/-- `integrity_flag = img[0][7]`: set means the time is not trustworthy (R30, R81, R161). -/
def integrityFlag (img : RegisterImage) : Bool := img.second.getLsbD 7

/-- "`integrityOk = (integrity_flag == 0)`" (R19). -/
def integrityOk (img : RegisterImage) : Bool := !integrityFlag img

/-- `century_flag = img[5][7]`: 0 for 1900 to 1999, 1 for 2000 to 2099 (R30, R86). -/
def centuryFlag (img : RegisterImage) : Bool := img.month.getLsbD 7

/-- "`century_flag = 1` iff `year >= 2000`" (R90). -/
def centuryOfYear (year : Int) : Bool := decide (2000 ≤ year)

/-- A flag as a byte, 0 or 1. -/
def flagByte (f : Bool) : Byte := if f then 1 else 0

end Sys2Proof.Machine
end

