-- ==== Sys2Proof/Machine/Operands.lean ====
section
/-! DEFINITION. Operand and result forms: BCD digits (30_encoding.md R88 to R91), the calendar and
its bounds (41_bcd_codec.md R150), the control register values (R92, R93), and the response
descriptor of every result (R104 to R107). -/

namespace Sys2Proof.Machine

/-! ## BCD -/

/-- `bcd8(v)` is the byte `((v div 10) << 4) | (v mod 10)` (R88). -/
def bcd8 (v : Nat) : Byte := BitVec.ofNat 8 (((v / 10) <<< 4) ||| (v % 10))

/-- `unbcd(b, tm)` is `((b >> 4) & tm) * 10 + (b & 0x0F)` (R89). -/
def unbcd (b tm : Byte) : Nat := ((b >>> 4) &&& tm).toNat * 10 + (b &&& 0x0F).toNat

/-! ## The calendar -/

/-- `P_DAY_MAX` as a number (R8). -/
def dayMaxInt : DayMax → Int
  | .d31 => 31
  | .d32 => 32

/-- `valid(ct)`: all seven bounds (R150). -/
abbrev Valid (dm : DayMax) (ct : CalendarTime) : Prop :=
  (0 ≤ ct.second ∧ ct.second ≤ 59) ∧
  (0 ≤ ct.minute ∧ ct.minute ≤ 59) ∧
  (0 ≤ ct.hour ∧ ct.hour ≤ 23) ∧
  (1 ≤ ct.day ∧ ct.day ≤ dayMaxInt dm) ∧
  (0 ≤ ct.weekday ∧ ct.weekday ≤ 6) ∧
  (1 ≤ ct.month ∧ ct.month ≤ 12) ∧
  (1900 ≤ ct.year ∧ ct.year ≤ 2099)

/-- `buf[0..n-1]` with every one of its `n` bytes received (R131): there is no byte in it that was not
(R42). -/
abbrev Received (n : Nat) := { bs : List Byte // bs.length = n }

/-- `N_TIME`: the length of the time block (R8). -/
abbrev timeBlockLen : Nat := 7

/-- `img[0..6] <- the 7 bytes of r, in order` (R196). -/
def imageOfBytes (bs : Received timeBlockLen) : RegisterImage where
  second := bs.1[0]'(by rw [bs.2]; decide)
  minute := bs.1[1]'(by rw [bs.2]; decide)
  hour := bs.1[2]'(by rw [bs.2]; decide)
  day := bs.1[3]'(by rw [bs.2]; decide)
  weekday := bs.1[4]'(by rw [bs.2]; decide)
  month := bs.1[5]'(by rw [bs.2]; decide)
  year := bs.1[6]'(by rw [bs.2]; decide)

/-! ## Control register values -/

/-- "The value written to CONTROL_1 is the byte 0x00" (R92). -/
def control1Value : Byte := 0x00

/-- `MASK_CONTROL_2` (R8). -/
def control2Mask : Byte := 0x13

/-- "The value written to CONTROL_2 is `mode & 0x13`" (R93). -/
def control2Value (mode : Byte) : Byte := mode &&& control2Mask

/-! ## The response descriptor -/

/-- The cause codes (R106, R231). -/
def Cause.code : Cause → Byte
  | .noAck => 0x01
  | .timeout => 0x02
  | .arbitrationLost => 0x03
  | .transport => 0x04

/-- The status codes of the errors (R105). -/
def CmdError.status : CmdError → Byte
  | .busError _ => 0x01
  | .invalidDateTime => 0x02
  | .initError _ => 0x03
  | .illegalCommand => 0xFF

/-- `aux` under an error: the cause code, or 0x00 (R106). -/
def CmdError.aux : CmdError → Byte
  | .busError c => c.code
  | .invalidDateTime => 0x00
  | .initError c => c.code
  | .illegalCommand => 0x00

/-- `aux` under `OK`: bit 0 is the integrity flag where there is one (R106). -/
def Payload.aux : Payload → Byte
  | .unit => 0x00
  | .time _ f => flagByte f
  | .flag f => flagByte f
  | .image _ => 0x00
  | .bytes _ => 0x00

/-- The payload bytes under `OK` (R107). -/
def Payload.data : Payload → List Byte
  | .unit => []
  | .time ct _ => calendarBytes ct
  | .flag _ => []
  | .image img => imageBytes img
  | .bytes bs => bs

/-- The response descriptor `status, aux, payload...` (R104); no payload under an error (R107). -/
def Result.response : Result → List Byte
  | .ok p => 0x00 :: p.aux :: p.data
  | .err e => [e.status, e.aux]

end Sys2Proof.Machine
end

