-- ==== Sys2Proof/Machine/Ops.lean ====
section
/-! DEFINITION. The operations every command is written from: the device's registers, one transport
event and its answer (40_bus_transactions.md R120, R121), ending a command with a result or an
error (60_exceptions.md R242), the reset (R260 to R262), and the host clock's port (R215). -/

namespace Sys2Proof

/-- Which failures an event may answer (R121). -/
def TpEvent.mayFail : TpEvent → TpFailure → Bool
  | .acq _, .fault => true
  | .acq _, _ => false
  | .start _ _, _ => true
  | .tx _, _ => true
  | .rx _, .noAck => false
  | .rx _, _ => true
  | .stop, .timeout => true
  | .stop, .fault => true
  | .stop, _ => false
  | .rel, .fault => true
  | .rel, _ => false

/-- The cause code a failure maps to (R121). -/
def TpFailure.cause : TpFailure → Machine.Cause
  | .noAck => .noAck
  | .timeout => .timeout
  | .arbLost => .arbitrationLost
  | .fault => .transport

/-- R9: the time block fits below 0x100 and holds no control register, and the two control
registers differ. -/
def Config.ok (c : Config) : Bool :=
  decide (c.addrTimeBlock.toNat + 6 ≤ 0xFF) &&
  !(decide (c.addrTimeBlock.toNat ≤ c.addrControl1.toNat) &&
    decide (c.addrControl1.toNat ≤ c.addrTimeBlock.toNat + 6)) &&
  !(decide (c.addrTimeBlock.toNat ≤ c.addrControl2.toNat) &&
    decide (c.addrControl2.toNat ≤ c.addrTimeBlock.toNat + 6)) &&
  decide (c.addrControl1 ≠ c.addrControl2)

end Sys2Proof

namespace Sys2Proof.Machine

/-! ## The device's registers -/

/-- The value listed for an address. -/
def Memory.read : Memory → Nat → Option Byte
  | [], _ => none
  | (k, v) :: rest, a => if k = a then some v else Memory.read rest a

/-- Set one register; addresses stay strictly rising. -/
def Memory.write : Memory → Nat → Byte → Memory
  | [], a, v => [(a, v)]
  | (k, w) :: rest, a, v =>
    if a < k then (a, v) :: (k, w) :: rest
    else if a = k then (a, v) :: rest
    else (k, w) :: Memory.write rest a v

/-- Addresses strictly rising from `lo` on, all below 256 (R50). -/
def Memory.wfFrom : Nat → Memory → Bool
  | _, [] => true
  | lo, (k, _) :: rest => decide (lo ≤ k) && decide (k < 256) && Memory.wfFrom (k + 1) rest

/-- The canonical form: addresses strictly rising, 8-bit addresses only. An unlisted address reads
as no value, so no listed byte equals what an unlisted address reads as. -/
def Memory.wf (m : Memory) : Bool := Memory.wfFrom 0 m

/-- The byte register `a` presents: its value, or the free value where the model knows none (log 7). -/
def Device.regAt (d : Device) (a : Byte) : Byte :=
  (Memory.read d.regs a.toNat).getD (Config.devUnwritten a.toNat)

/-- "register address auto-increments on the device for each subsequent byte" (R38, R58); past
0xFF the pointer is a free value (log 8). -/
def nextPtr (p : Byte) (events : Nat) : Byte :=
  if p = 0xFF then Config.ptrPastEnd events else p + 1

/-! ## One transport event -/

/-- The reference device's answer (R58). -/
def refAnswer (cfg : Config) (d : Device) : TpEvent → TpResult
  | .acq _ => .ok
  | .start a _ => if a = cfg.devAddr then .ok else .fail .noAck
  | .tx _ => .ok
  | .rx _ => .okByte (d.regAt d.ptr)
  | .stop => .ok
  | .rel => .ok

/-- The answer a draw gives an event, always one of the event's result type (R121): a failure the
event cannot answer is read as `Fault` (log 4). -/
def answer (cfg : Config) (d : Device) (e : TpEvent) : Draw → TpResult
  | .asReference => refAnswer cfg d e
  | .ok b =>
    match e with
    | .rx _ => .okByte b
    | _ => .ok
  | .fail f _ => if e.mayFail f then .fail f else .fail .fault

/-- Whether the event takes effect beyond the controller: always when it answers `Ok`; a failing
`TX`, `RX`, `STOP` or `REL` may have (R63, log 6); a failing `ACQ` or `START` has not (R136, R140). -/
def takesEffect (e : TpEvent) (r : TpResult) (d : Draw) : Bool :=
  match r with
  | .ok => true
  | .okByte _ => true
  | .fail _ =>
    match d with
    | .fail _ lands =>
      match e with
      | .acq _ => false
      | .start _ _ => false
      | _ => lands
    | _ => false

/-- What an event that takes effect does in the device (R56, R58). -/
def deviceEffect (cfg : Config) (events : Nat) (d : Device) : TpEvent → Device
  | .acq _ => d
  | .start a .write => if a = cfg.devAddr then { d with dir := some .write, first := true } else d
  | .start a .read => if a = cfg.devAddr then { d with dir := some .read } else d
  | .tx b =>
    if d.dir = some .write then
      if d.first then { d with ptr := b, first := false }
      else { d with regs := Memory.write d.regs d.ptr.toNat b, ptr := nextPtr d.ptr events }
    else d
  | .rx _ => if d.dir = some .read then { d with ptr := nextPtr d.ptr events } else d
  | .stop => { d with dir := none }
  | .rel => d

/-- What an event that takes effect does to the transport's installed condition (R38, R120). -/
def installedAfter (installed : Bool) : TpEvent → Bool
  | .acq _ => true
  | .rel => false
  | .start _ _ => installed
  | .tx _ => installed
  | .rx _ => installed
  | .stop => installed

/-- The draw that answers the next event: the script's, else by the mode (R60, log 4, log 5). -/
def Env.draw (env : Env) : Draw :=
  match env.script with
  | d :: _ => d
  | [] =>
    match env.mode with
    | .oracle => Config.tpDraw env.events
    | .reference => .asReference

/-- The environment after one event. -/
def Env.afterEvent (env : Env) : Env :=
  { env with script := env.script.tail, events := env.events + 1 }

/-- The answer to event `e` issued in state `s`. -/
def answerTo (e : TpEvent) (s : State) : TpResult := answer s.cfg s.dev e s.env.draw

/-- The state after event `e` was issued and answered: the trace has it (R40), the device and the
transport have what took effect, the environment has moved on. -/
def afterEvent (e : TpEvent) (s : State) : State :=
  let r := answerTo e s
  let effect := takesEffect e r s.env.draw
  { s with
    dev := if effect then deviceEffect s.cfg s.env.events s.dev e else s.dev
    tpInstalled := if effect then installedAfter s.tpInstalled e else s.tpInstalled
    trace := s.trace ++ [⟨e, r⟩]
    env := s.env.afterEvent }

/-- A piece of a command: it ends with a value or with an error, in a new state. -/
abbrev Act (ε α : Type) := State → Except ε α × State

/-- First `m`, then `k` with its value; an error of `m` ends the whole (`raise`, R14). -/
def andThen {ε α β : Type} (m : Act ε α) (k : α → Act ε β) : Act ε β := fun s =>
  match m s with
  | (.error e, t) => (.error e, t)
  | (.ok a, t) => k a t

/-- Issue an event whose `Ok` carries no byte. -/
def send (e : TpEvent) : Act TpFailure Unit := fun s =>
  match answerTo e s with
  | .fail f => (.error f, afterEvent e s)
  | .ok => (.ok (), afterEvent e s)
  | .okByte _ => (.ok (), afterEvent e s)

/-- Issue `TP.RX(ack)`. The answer `ok` without a byte cannot arise (`answer`, R121). -/
def recv (ack : Bool) : Act TpFailure Byte := fun s =>
  match answerTo (.rx ack) s with
  | .fail f => (.error f, afterEvent (.rx ack) s)
  | .okByte b => (.ok b, afterEvent (.rx ack) s)
  | .ok => (.error .fault, afterEvent (.rx ack) s)

/-- `TP.START(P_DEV_ADDR, dir)`: the address is never an operand (R124). -/
def startDev (dir : Dir) : Act TpFailure Unit := fun s => send (.start s.cfg.devAddr dir) s

/-- `S.bus_held <- v` (R22). -/
def State.setBusHeld (v : Bool) (s : State) : State := { s with busHeld := v }

/-- `S.init_state <- Ready`, "the only write ever made" (R21). -/
def State.setReady (s : State) : State := { s with initState := .ready }

/-! ## Ending a command -/

/-- The response is delivered, every per-command register is dropped and the phase returns to IDLE
(R29, R42, R104, R191). -/
def respond (r : Result) (s : State) : State :=
  { s with
    responses := s.responses ++ [r.response]
    phase := .idle
    tphase := .done
    latched := none
    desc := none
    cur := none
    regs := CmdRegs.empty }

/-- TAKING AN EXCEPTION on this hardware (R242): the command stops, its response carries the error
and no payload, the phase returns to IDLE; "Nothing is saved anywhere and control goes nowhere
else". There is no return from it (R244). -/
def raiseError (e : CmdError) (s : State) : State := respond (.err e) s

/-- The end of a command: its `Ok` payload or its error becomes the response (R15, R104). -/
def complete : Except CmdError Payload × State → State
  | (.ok p, s) => respond (.ok p) s
  | (.error e, s) => raiseError e s

/-! ## Reset -/

/-- `rst_n` (R41, R260, R262): the controller goes to its reset state "at once, whatever `S.phase`
is; no `STOP` and no `REL` is issued"; parameters, device, transport and host are not touched; the
trace starts afresh (R41). -/
def State.assertReset (s : State) : State :=
  { s with
    initState := .uninitialized
    phase := .idle
    tphase := .done
    busHeld := false
    latched := none
    desc := none
    cur := none
    regs := CmdRegs.empty
    trace := [] }

end Sys2Proof.Machine
end

