-- ==== Sys2Proof/Machine/BusLayer.lean ====
section
/-! DEFINITION. The Bus Transaction Layer (40_bus_transactions.md): the two transactions with their
failing tails, and the commands BUS_WRITE and BUS_READ. -/

namespace Sys2Proof.Machine

/-- `TP.REL(); S.bus_held <- false`, answer ignored (R135). -/
def releaseIgnored (s : State) : State := (send .rel s).2.setBusHeld false

/-- `abort(r)` (R135): a `STOP` unless arbitration was lost, then `REL`, both answers ignored. -/
def abort {α : Type} (f : TpFailure) : Act Cause α := fun s =>
  (.error f.cause, releaseIgnored (if f = .arbLost then s else (send .stop s).2))

/-- `abort_after_stop(r)` (R135). -/
def abortAfterStop {α : Type} (f : TpFailure) : Act Cause α := fun s =>
  (.error f.cause, releaseIgnored s)

/-- The last step of a transaction that went well: `TP.REL`, whose failure is
`BusError(TRANSPORT)` (R130, R131, R136). -/
def releaseChecked {α : Type} (a : α) : Act Cause α := fun s =>
  match send .rel s with
  | (.error _, t) => (.error .transport, t.setBusHeld false)
  | (.ok _, t) => (.ok a, t.setBusHeld false)

/-- `TP.STOP` and what follows it (R130, R131). -/
def closeSession {α : Type} (a : α) : Act Cause α := fun s =>
  match send .stop s with
  | (.error f, t) => abortAfterStop f t
  | (.ok _, t) => releaseChecked a t

/-- One transaction: acquire, the session's events, close, release (R122, R130, R131, R134). A failed
acquire issues nothing more (R136). -/
def session {α : Type} (body : Act TpFailure α) : Act Cause α := fun s =>
  match send (.acq s.cfg.busCfg) s with
  | (.error _, t) => (.error .transport, t)
  | (.ok _, t) =>
    match body (t.setBusHeld true) with
    | (.error f, u) => abort f u
    | (.ok a, u) => closeSession a u

/-- `for i in 0 .. len-1: TP.TX(buf[i])` (R130). -/
def sendAll : List Byte → Act TpFailure Unit
  | [] => fun s => (.ok (), s)
  | b :: rest => andThen (send (.tx b)) fun _ => sendAll rest

/-- The byte received first, before the others. -/
def Received.cons {n : Nat} (b : Byte) (bs : Received n) : Received (n + 1) :=
  ⟨b :: bs.1, congrArg (· + 1) bs.2⟩

/-- `for i in 0 .. len-1: TP.RX(ack = (i != len-1))` (R131, R133): with `n` bytes to come, all but
the last are acknowledged. -/
def recvAll : (n : Nat) → Act TpFailure (Received n)
  | 0 => fun s => (.ok ⟨[], rfl⟩, s)
  | n + 1 => andThen (recv (decide (n ≠ 0))) fun b => andThen (recvAll n) fun bs s => (.ok (Received.cons b bs), s)

/-- The write frame after the acquire (R94). -/
def writeFrame (reg : Byte) (buf : List Byte) : Act TpFailure Unit :=
  andThen (startDev .write) fun _ => andThen (send (.tx reg)) fun _ => sendAll buf

/-- The read frame after the acquire: two begins, no end between them (R95). -/
def readFrame (reg : Byte) (len : Nat) : Act TpFailure (Received len) :=
  andThen (startDev .write) fun _ => andThen (send (.tx reg)) fun _ =>
    andThen (startDev .read) fun _ => recvAll len

/-- `MemWrite(reg, len, buf)`: the BUS_WRITE transaction (R14, R130). -/
def memWrite (reg : Byte) (buf : List Byte) : Act Cause Unit := session (writeFrame reg buf)

/-- `MemRead(reg, len)`: the BUS_READ transaction (R14, R131); an `Ok` carries all `len` bytes. -/
def memRead (reg : Byte) (len : Nat) : Act Cause (Received len) := session (readFrame reg len)

/-- Errors of a transaction as `BusError(cause)` (R230). -/
def asBusError {α : Type} (m : Act Cause α) : Act CmdError α := fun s =>
  match m s with
  | (.error c, t) => (.error (.busError c), t)
  | (.ok a, t) => (.ok a, t)

/-- BUS_WRITE (R130). Outside the bounds of R55 no event is issued and the verdict is
`IllegalCommand` (R108, R140 item 3; log 13). -/
def busWrite (reg : Byte) (buf : List Byte) : Act CmdError Payload := fun s =>
  if InBounds reg buf.length then
    andThen (asBusError (memWrite reg buf)) (fun _ t => (.ok .unit, t)) s
  else (.error .illegalCommand, s)

/-- BUS_READ (R131). Outside the bounds of R55 as for BUS_WRITE. -/
def busRead (reg len : Byte) : Act CmdError Payload := fun s =>
  if InBounds reg len.toNat then
    andThen (asBusError (memRead reg len.toNat)) (fun bs t => (.ok (.bytes bs.1), t)) s
  else (.error .illegalCommand, s)

/-- The command BUS_WRITE. -/
def execBusWrite (reg : Byte) (buf : List Byte) (s : State) : Host.Outcome State Fault Refusal :=
  .next (complete (busWrite reg buf s))

/-- The command BUS_READ. -/
def execBusRead (reg len : Byte) (s : State) : Host.Outcome State Fault Refusal :=
  .next (complete (busRead reg len s))

end Sys2Proof.Machine
end

