-- ==== Sys2Proof/Machine/Codec.lean ====
section
/-! DEFINITION. The BCD Time Codec (41_bcd_codec.md): ENCODE and DECODE, pure, no bus event. -/

namespace Sys2Proof.Machine

/-- The century bit in its place, bit 7 (R153). -/
def centuryBit (f : Bool) : Byte := flagByte f <<< 7

/-- The two year digits: `year - 2000` or `year - 1900` (R90, R153). -/
def yearDigits (year : Int) : Nat :=
  if centuryOfYear year then (year - 2000).toNat else (year - 1900).toNat

/-- The image of a valid CalendarTime, field by field (R153). -/
def imageOf (ct : CalendarTime) : RegisterImage where
  second := bcd8 ct.second.toNat &&& 0x7F
  minute := bcd8 ct.minute.toNat &&& 0x7F
  hour := bcd8 ct.hour.toNat &&& 0x3F
  day := bcd8 ct.day.toNat &&& 0x3F
  weekday := bcd8 ct.weekday.toNat &&& 0x07
  month := (bcd8 ct.month.toNat &&& 0x1F) ||| centuryBit (centuryOfYear ct.year)
  year := bcd8 (yearDigits ct.year)

/-- ENCODE (R153): `InvalidDateTime` iff not valid, else the image. -/
def encodeCalendar (dm : DayMax) (ct : CalendarTime) : Except CmdError RegisterImage :=
  if Valid dm ct then .ok (imageOf ct) else .error .invalidDateTime

/-- DECODE (R160): the formula, total, no validation (R163). The integrity flag is
`integrityFlag img` (R161). -/
def decodeImage (img : RegisterImage) : CalendarTime where
  second := unbcd img.second 0x7
  minute := unbcd img.minute 0x7
  hour := unbcd img.hour 0x3
  day := unbcd img.day 0x3
  weekday := (img.weekday &&& 0x07).toNat
  month := unbcd img.month 0x1
  year := 1900 + unbcd img.year 0xF + if centuryFlag img then 100 else 0

/-- DECODE's payload: the CalendarTime and the flag alongside it (R160). -/
def decodedPayload (img : RegisterImage) : Payload := .time (decodeImage img) (integrityFlag img)

/-- ENCODE as a piece of a command: it touches no state. -/
def encodeAct (ct : CalendarTime) : Act CmdError RegisterImage := fun s =>
  (encodeCalendar s.cfg.dayMax ct, s)

/-- The command ENCODE (R153). -/
def execEncodeTime (ct : CalendarTime) (s : State) : Host.Outcome State Fault Refusal :=
  .next (complete (andThen (encodeAct ct) (fun img t => (.ok (.image img), t)) s))

/-- The command DECODE (R160): always `Ok`. -/
def execDecodeTime (img : RegisterImage) (s : State) : Host.Outcome State Fault Refusal :=
  .next (respond (.ok (decodedPayload img)) s)

end Sys2Proof.Machine
end

