-- ==== Sys2Proof/Machine/InitFsm.lean ====
section
/-! DEFINITION. The one-time initialisation (42_init_fsm.md): ENSURE_INIT. -/

namespace Sys2Proof.Machine

/-- Errors of a configuration write as `InitError(cause)` (R182). -/
def asInitError {α : Type} (m : Act Cause α) : Act CmdError α := fun s =>
  match m s with
  | (.error c, t) => (.error (.initError c), t)
  | (.ok a, t) => (.ok a, t)

/-- The two configuration writes, CONTROL_1 first, each its own transaction; the second is not
attempted when the first fails (R182, R183, R184); then Ready. -/
def initialise (mode : Byte) : Act CmdError Unit :=
  andThen (asInitError fun s => memWrite s.cfg.addrControl1 [control1Value] s) fun _ =>
    andThen (asInitError fun s => memWrite s.cfg.addrControl2 [control2Value mode] s) fun _ s =>
      (.ok (), s.setReady)

/-- ENSURE_INIT `mode` (R182): nothing at all when Ready. -/
def ensureInit (mode : Byte) : Act CmdError Unit := fun s =>
  match s.initState with
  | .ready => (.ok (), s)
  | .uninitialized => initialise mode s

/-- `ensure_ready()`: the implicit initialisation with `P_INIT_MODE_DEFAULT` (R195). -/
def ensureReady : Act CmdError Unit := fun s => ensureInit s.cfg.initModeDefault s

/-- The command ENSURE_INIT. -/
def execEnsureInit (mode : Byte) (s : State) : Host.Outcome State Fault Refusal :=
  .next (complete (andThen (ensureInit mode) (fun _ t => (.ok .unit, t)) s))

end Sys2Proof.Machine
end

