-- ==== Sys2Proof/Machine/TimeTransfer.lean ====
section
/-! DEFINITION. Time transfer (43_time_transfer.md): GET_DATETIME and SET_DATETIME. -/

namespace Sys2Proof.Machine

/-- The burst read of the time block: one transaction of exactly seven bytes (R196, R197). -/
def readTimeBlock : Act CmdError RegisterImage := fun s =>
  andThen (asBusError (memRead s.cfg.addrTimeBlock timeBlockLen)) (fun bs t => (.ok (imageOfBytes bs), t)) s

/-- The burst write of the time block: one transaction of seven bytes (R200, R201). -/
def writeTimeBlock (img : RegisterImage) : Act CmdError Unit := fun s =>
  asBusError (memWrite s.cfg.addrTimeBlock (imageBytes img)) s

/-- GET_DATETIME up to the image read (R196). -/
def getImage : Act CmdError RegisterImage := andThen ensureReady fun _ => readTimeBlock

/-- SET_DATETIME (R200): validation before any bus event, then the implicit initialisation, then
the burst (C1, R241). -/
def setDateTime (ct : CalendarTime) : Act CmdError Payload :=
  andThen (encodeAct ct) fun img =>
    andThen ensureReady fun _ =>
      andThen (writeTimeBlock img) fun _ s => (.ok .unit, s)

/-- The command GET_DATETIME. -/
def execGetDateTime (s : State) : Host.Outcome State Fault Refusal :=
  .next (complete (andThen getImage (fun img t => (.ok (decodedPayload img), t)) s))

/-- The command SET_DATETIME. -/
def execSetDateTime (ct : CalendarTime) (s : State) : Host.Outcome State Fault Refusal :=
  .next (complete (setDateTime ct s))

end Sys2Proof.Machine
end

