-- ==== Sys2Proof/Machine/HostSync.lean ====
section
/-! DEFINITION. Host clock synchronisation (44_host_sync.md): the host clock's boundary and the
commands SYNC_DEV_TO_HOST and SYNC_HOST_TO_DEV. -/

namespace Sys2Proof.Machine

/-- The days since 1970-01-01 of a date of the proleptic Gregorian calendar, as R216 writes it.
PRESUMED (the spec's own mark, K19; log 12). -/
def civilDays (year month day : Int) : Int :=
  let y := year - (if month ≤ 2 then 1 else 0)
  let era := y / 400
  let yoe := y - era * 400
  let mp := (month + 9) % 12
  let doy := (153 * mp + 2) / 5 + day - 1
  let doe := yoe * 365 + yoe / 4 - yoe / 100 + doy
  era * 146097 + doe - 719468

/-- The reference instance of `civil_to_epoch` (R216); the weekday is not used. -/
def civilReference (ct : CalendarTime) : Int :=
  civilDays ct.year ct.month ct.day * 86400 + ct.hour * 3600 + ct.minute * 60 + ct.second

/-- `civil_to_epoch(ct)` (R216): the reference instance on a canonical time (the bounds of R26, day 1
to 31), a free value outside them (K14, log 12); or another function of the host's. -/
def civilToEpoch (cfg : Config) (ct : CalendarTime) : Int :=
  match cfg.civil with
  | .reference => if Valid .d31 ct then civilReference ct else Config.civilOpen ct
  | .other id => Config.civilOther id ct

/-- `HOST.get_utc()` (R215): always succeeds; the breakdown is the host's: one already decided, or a
free value (log 11). -/
def hostUtc (s : State) : CalendarTime :=
  match s.env.hostScript with
  | h :: _ => h
  | [] => Config.hostUtc s.hostEpoch s.env.hostReads

/-- The environment after one reading of the host clock. -/
def State.afterHostRead (s : State) : State :=
  { s with env := { s.env with hostScript := s.env.hostScript.tail, hostReads := s.env.hostReads + 1 } }

/-- `HOST.set_epoch(e)` (R215): always succeeds. -/
def State.setHostEpoch (e : Int) (s : State) : State := { s with hostEpoch := e }

/-- SYNC_DEV_TO_HOST (R219): the host clock is set even when the flag is set, and not on failure. -/
def syncDevToHost : Act CmdError Payload :=
  andThen getImage fun img s =>
    (.ok (.flag (integrityFlag img)), s.setHostEpoch (civilToEpoch s.cfg (decodeImage img)))

/-- SYNC_HOST_TO_DEV (R222). -/
def syncHostToDev : Act CmdError Payload := fun s => setDateTime (hostUtc s) s.afterHostRead

/-- The command SYNC_DEV_TO_HOST. -/
def execSyncDevToHost (s : State) : Host.Outcome State Fault Refusal :=
  .next (complete (syncDevToHost s))

/-- The command SYNC_HOST_TO_DEV. -/
def execSyncHostToDev (s : State) : Host.Outcome State Fault Refusal :=
  .next (complete (syncHostToDev s))

end Sys2Proof.Machine
end

