-- ==== Sys2Proof/Machine/Dispatch.lean ====
section
/-! DEFINITION. One arm per command. -/

namespace Sys2Proof.Machine

def exec (i : Instr) (s : State) : Host.Outcome State Fault Refusal :=
  match i with
  | .ensureInit mode => Sys2Proof.Machine.execEnsureInit mode s
  | .getDateTime => Sys2Proof.Machine.execGetDateTime s
  | .setDateTime ct => Sys2Proof.Machine.execSetDateTime ct s
  | .syncDevToHost => Sys2Proof.Machine.execSyncDevToHost s
  | .syncHostToDev => Sys2Proof.Machine.execSyncHostToDev s
  | .busWrite reg buf => Sys2Proof.Machine.execBusWrite reg buf s
  | .busRead reg len => Sys2Proof.Machine.execBusRead reg len s
  | .encodeTime ct => Sys2Proof.Machine.execEncodeTime ct s
  | .decodeTime img => Sys2Proof.Machine.execDecodeTime img s

end Sys2Proof.Machine
end

