-- ==== Sys2Proof/Machine/Fetch.lean ====
section
/-! DEFINITION. Taking a command from the command port, whole or by phases, and what the outside
does besides. -/

namespace Sys2Proof.Machine

/-- IDLE to DECODE_CMD: the descriptor is taken (R72, R191). -/
def accept (descriptor : List Byte) (s : State) : State :=
  { s with phase := .decodeCmd, desc := some descriptor }

/-- The device changes register `a` by itself (R35, R69, R273). DESIGN CHOICE (log 19): the
pointer, the direction and the first flag stay, after a loss of the device's own power too, of which
R251 and N12 say that what survives is "not in the source". -/
def changeDevice (a v : Byte) (s : State) : State :=
  { s with dev := { s.dev with regs := Memory.write s.dev.regs a.toNat v } }

/-- The host clock moves on (R39). -/
def advanceHost (seconds : Nat) (s : State) : State := { s with hostEpoch := s.hostEpoch + seconds }

/-- A presented descriptor run as one step (R68): the command it encodes, or the verdict
`IllegalCommand`, which issues no event (R108). -/
def runDescriptor (descriptor : List Byte) (s : State) : Host.Outcome State Fault Refusal :=
  match decode descriptor with
  | .ok i => exec i s
  | .error _ => .next (raiseError .illegalCommand s)

end Sys2Proof.Machine
end

