-- ==== Sys2Proof/Machine/Fsm.lean ====
section
/-! DEFINITION. The sequencing view of the controller: `S.phase` and `S.tphase` (10_state.md R24),
the paths of 42_init_fsm.md R191 and the transaction table of 40_bus_transactions.md R138, one
phase or one transport event a `tick`. R68: running a whole command as one step is equivalent to
this for results, `S.init_state` and the bus trace. Where they differ "the pseudocode governs"
(R138), that is, `exec`. -/

namespace Sys2Proof.Machine

/-- A step that goes on. -/
abbrev Tick := Host.Outcome State Fault Refusal

/-- Read a register that may hold no value (R42). -/
def need {α : Type} (r : ValueReg) (v : Option α) (k : α → Tick) : Tick :=
  match v with
  | none => .fault (.noValue r)
  | some a => k a

/-- Go to RESPOND with a result (R191). -/
def toRespond (r : Result) (s : State) : State :=
  { s with phase := .respond, regs := { s.regs with result := some r } }

/-- The bytes of `buf` that have a value, in order: none before the first one is written (R42). -/
def CmdRegs.written (r : CmdRegs) : List Byte := r.buf.getD []

/-- Read `buf[0..n-1]`: a fault unless every byte of it has been written (R42). -/
def needBytes (n : Nat) (r : CmdRegs) (k : Received n → Tick) : Tick :=
  if h : r.written.length = n then k ⟨r.written, h⟩ else .fault (.noValue .buf)

/-- Load the operands of a transaction and stand at its first event (R28, R138). `buf` is the bytes to
send, and has no value before the first byte of a read is received (R42). -/
def startTransaction (p : Phase) (reg len : Byte) (buf : Option (List Byte)) (s : State) : State :=
  { s with
    phase := p
    tphase := .acq
    latched := none
    regs := { s.regs with reg := some reg, len := some len, buf := buf } }

/-- Enter INIT_C1 (R24, R182). -/
def enterInit (s : State) : State :=
  startTransaction .initC1 s.cfg.addrControl1 1 (some [control1Value]) s

/-- Enter the time-block read (R196). -/
def enterRead (s : State) : State :=
  startTransaction .xfer s.cfg.addrTimeBlock (BitVec.ofNat 8 timeBlockLen) none s

/-- Enter the time-block write (R200). -/
def enterWrite (img : RegisterImage) (s : State) : State :=
  startTransaction .xfer s.cfg.addrTimeBlock (BitVec.ofNat 8 timeBlockLen) (some (imageBytes img)) s

/-- What a command does once the device is initialised. -/
def afterReady (i : Instr) (s : State) : Tick :=
  match i with
  | .ensureInit _ => .next (toRespond (.ok .unit) s)
  | .getDateTime => .next (enterRead s)
  | .setDateTime _ => need .img s.regs.img fun img => .next (enterWrite img s)
  | .syncDevToHost => .next (enterRead s)
  | .syncHostToDev => need .img s.regs.img fun img => .next (enterWrite img s)
  | .busWrite _ _ => .fault .noPath
  | .busRead _ _ => .fault .noPath
  | .encodeTime _ => .fault .noPath
  | .decodeTime _ => .fault .noPath

/-- The test `S.init_state == Ready` (R182, R191). -/
def initOrGo (i : Instr) (s : State) : Tick :=
  match s.initState with
  | .ready => afterReady i s
  | .uninitialized => .next (enterInit s)

/-- `mode` for the configuration writes: the operand, or the default (R181). -/
def setMode (mode : Byte) (s : State) : State := { s with regs := { s.regs with mode := some mode } }

/-- The CalendarTime register. -/
def setCt (ct : CalendarTime) (s : State) : State := { s with regs := { s.regs with ct := some ct } }

/-- The RegisterImage register. -/
def setImg (img : RegisterImage) (s : State) : State := { s with regs := { s.regs with img := some img } }

/-- DECODE: the image and the CalendarTime that it decodes to (R26, R27, R160). -/
def setDecoded (img : RegisterImage) (s : State) : State := setCt (decodeImage img) (setImg img s)

/-- The first phase of a legal command after DECODE_CMD (R191): its operands are loaded. -/
def startCommand (i : Instr) (s : State) : Tick :=
  match i with
  | .ensureInit mode => initOrGo i (setMode mode s)
  | .getDateTime => initOrGo i (setMode s.cfg.initModeDefault s)
  | .setDateTime ct => .next { setCt ct (setMode s.cfg.initModeDefault s) with phase := .validate }
  | .syncDevToHost => initOrGo i (setMode s.cfg.initModeDefault s)
  | .syncHostToDev => .next { setMode s.cfg.initModeDefault s with phase := .hostIo }
  | .busWrite reg buf => .next (startTransaction .xfer reg (BitVec.ofNat 8 buf.length) (some buf) s)
  | .busRead reg len => .next (startTransaction .xfer reg len none s)
  | .encodeTime ct => .next { setCt ct s with phase := .validate }
  | .decodeTime img => .next (toRespond (.ok (decodedPayload img)) (setDecoded img s))

/-- DECODE_CMD: the descriptor is decoded; an illegal one goes to RESPOND (R108, R191). -/
def tickDecode (s : State) : Tick :=
  need .desc s.desc fun d =>
    match decode d with
    | .error _ => .next (toRespond (.err .illegalCommand) s)
    | .ok i => startCommand i { s with cur := some i }

/-- VALIDATE (R152, R191). -/
def tickValidate (s : State) : Tick :=
  need .cur s.cur fun i => need .ct s.regs.ct fun ct =>
    match encodeCalendar s.cfg.dayMax ct with
    | .error e => .next (toRespond (.err e) s)
    | .ok img =>
      match i with
      | .encodeTime _ => .next (toRespond (.ok (.image img)) (setImg img s))
      | _ => initOrGo i (setImg img s)

/-- "error latched if none latched yet" (R138). -/
def latch (old : Option Cause) (c : Cause) : Option Cause :=
  match old with
  | some o => some o
  | none => some c

/-- One row of R138 between T_START_W and T_DATA_RX: on `Ok` to `next`; on a failure the cause is
latched and the phase is T_REL after a lost arbitration, else T_STOP. -/
def advance {α : Type} (next : α → State → State) (r : Except TpFailure α × State) : Tick :=
  match r with
  | (.ok a, t) => .next (next a t)
  | (.error f, t) =>
    .next { t with latched := latch t.latched f.cause, tphase := if f = .arbLost then .rel else .stop }

/-- Go to a transaction phase. -/
def setTPhase (p : TPhase) (s : State) : State := { s with tphase := p }

/-- `buf[i] <- b` where `i` bytes were received before (R131). -/
def takeByte (b : Byte) (s : State) : State :=
  { s with regs := { s.regs with buf := some (s.regs.written ++ [b]) } }

/-- One event of the transaction in `regs.reg`, `regs.len`, `regs.buf` (R138). -/
def tickTransfer (dir : Dir) (s : State) : Tick :=
  match s.tphase with
  | .acq =>
    match send (.acq s.cfg.busCfg) s with
    | (.error _, t) => .next { t with latched := latch t.latched .transport, tphase := .done }
    | (.ok _, t) => .next (setTPhase .startW (t.setBusHeld true))
  | .startW => advance (fun _ => setTPhase .reg) (startDev .write s)
  | .reg =>
    need .reg s.regs.reg fun reg =>
      advance (fun _ => setTPhase (match dir with | .write => .dataTx 0 | .read => .startR)) (send (.tx reg) s)
  | .dataTx i =>
    need .len s.regs.len fun len => need .buf s.regs.written[i]? fun b =>
      advance (fun _ => setTPhase (if i + 1 < len.toNat then .dataTx (i + 1) else .stop)) (send (.tx b) s)
  | .startR => advance (fun _ => setTPhase (.dataRx 0)) (startDev .read s)
  | .dataRx i =>
    need .len s.regs.len fun len =>
      if s.regs.written.length = i then
        advance (fun b t => setTPhase (if i + 1 < len.toNat then .dataRx (i + 1) else .stop) (takeByte b t))
          (recv (decide (i + 1 ≠ len.toNat)) s)
      else .fault .noPath
  | .stop =>
    match send .stop s with
    | (.error f, t) => .next { t with latched := latch t.latched f.cause, tphase := .rel }
    | (.ok _, t) => .next (setTPhase .rel t)
  | .rel =>
    match send .rel s with
    | (.error _, t) => .next { t.setBusHeld false with latched := latch t.latched .transport, tphase := .done }
    | (.ok _, t) => .next (setTPhase .done (t.setBusHeld false))
  | .done => .fault .noPath

/-- The end of the CONTROL_1 write (R182, R184). -/
def afterControl1 (s : State) : Tick :=
  match s.latched with
  | some c => .next (toRespond (.err (.initError c)) s)
  | none =>
    need .mode s.regs.mode fun mode =>
      .next (startTransaction .initC2 s.cfg.addrControl2 1 (some [control2Value mode]) s)

/-- The end of the CONTROL_2 write (R182, R185). -/
def afterControl2 (s : State) : Tick :=
  match s.latched with
  | some c => .next (toRespond (.err (.initError c)) s)
  | none => need .cur s.cur fun i => afterReady i s.setReady

/-- Whether the XFER of a command writes or reads (R191). -/
def xferDir : Instr → Dir
  | .ensureInit _ => .write
  | .getDateTime => .read
  | .setDateTime _ => .write
  | .syncDevToHost => .read
  | .syncHostToDev => .write
  | .busWrite _ _ => .write
  | .busRead _ _ => .read
  | .encodeTime _ => .write
  | .decodeTime _ => .write

/-- The end of an XFER (R130, R131, R196, R200, R219). -/
def afterXfer (i : Instr) (s : State) : Tick :=
  match s.latched with
  | some c => .next (toRespond (.err (.busError c)) s)
  | none =>
    match i with
    | .ensureInit _ => .fault .noPath
    | .getDateTime =>
      needBytes timeBlockLen s.regs fun bs =>
        .next (toRespond (.ok (decodedPayload (imageOfBytes bs))) (setDecoded (imageOfBytes bs) s))
    | .setDateTime _ => .next (toRespond (.ok .unit) s)
    | .syncDevToHost =>
      needBytes timeBlockLen s.regs fun bs =>
        .next { setDecoded (imageOfBytes bs) s with phase := .hostIo }
    | .syncHostToDev => .next (toRespond (.ok .unit) s)
    | .busWrite _ _ => .next (toRespond (.ok .unit) s)
    | .busRead _ _ =>
      need .len s.regs.len fun len => needBytes len.toNat s.regs fun bs => .next (toRespond (.ok (.bytes bs.1)) s)
    | .encodeTime _ => .fault .noPath
    | .decodeTime _ => .fault .noPath

/-- HOST_IO (R219, R222). -/
def tickHostIo (s : State) : Tick :=
  need .cur s.cur fun i =>
    match i with
    | .syncDevToHost =>
      need .ct s.regs.ct fun ct => need .img s.regs.img fun img =>
        .next (toRespond (.ok (.flag (integrityFlag img))) (s.setHostEpoch (civilToEpoch s.cfg ct)))
    | .syncHostToDev => .next { setCt (hostUtc s) s.afterHostRead with phase := .validate }
    | _ => .fault .noPath

/-- RESPOND: the response is delivered (R104, R191). -/
def tickRespond (s : State) : Tick := need .result s.regs.result fun r => .next (respond r s)

/-- One phase or one transport event (R24, R138, R191). In IDLE nothing happens. -/
def tick (s : State) : Tick :=
  match s.phase with
  | .idle => .next s
  | .decodeCmd => tickDecode s
  | .validate => tickValidate s
  | .initC1 => if s.tphase = .done then afterControl1 s else tickTransfer .write s
  | .initC2 => if s.tphase = .done then afterControl2 s else tickTransfer .write s
  | .xfer =>
    need .cur s.cur fun i => if s.tphase = .done then afterXfer i s else tickTransfer (xferDir i) s
  | .hostIo => tickHostIo s
  | .respond => tickRespond s

/-- `n` ticks. -/
def ticks : Nat → State → Tick
  | 0, s => .next s
  | n + 1, s =>
    match tick s with
    | .next t => ticks n t
    | .fault f => .fault f
    | .refused r => .refused r

end Sys2Proof.Machine
end

