-- ==== Sys2Proof/Machine/Step.lean ====
section
/-! DEFINITION. One step of the machine: the next input, a whole command, or one tick. -/

namespace Sys2Proof.Machine

/-- One step. Parameters that break R9 are refused. Reset, the device's own changes and the host
clock's advance happen whatever the phase. A command is taken only in IDLE (`cmd_ready`, R24,
R270): whole (R68) or by phases; in any other phase the running command goes on by one tick, unless
the transport stalls (R272). With nothing to do the controller waits in IDLE (R251, R260). -/
def step (s : State) : Host.Outcome State Fault Refusal :=
  if s.cfg.ok then
    match s.inbox with
    | .reset :: rest => .next (State.assertReset { s with inbox := rest })
    | .devChange a v :: rest => .next (changeDevice a v { s with inbox := rest })
    | .clockAdvance n :: rest => .next (advanceHost n { s with inbox := rest })
    | .wait :: rest => tick { s with inbox := rest }
    | .stall :: rest => .next { s with inbox := rest }
    | .command d :: rest => if s.phase = .idle then runDescriptor d { s with inbox := rest } else tick s
    | .commandPhased d :: rest => if s.phase = .idle then .next (accept d { s with inbox := rest }) else tick s
    | [] => tick s
  else .refused .badConfig

/-- `s` with the descriptor of a table word as the next command presented, the controller ready to
take it: the next step takes and runs exactly it. -/
def State.withFetchWord (s : State) (nbits w : Nat) : State :=
  { s with phase := .idle, inbox := .command (tableDescriptor nbits w) :: s.inbox }

end Sys2Proof.Machine
end

