-- ==== Sys2Proof/Safety.lean ====
section
/-! DEFINITION. The terms claims are stated in: an idle controller, a coherent one (what its
sequencing registers hold in each phase, so that no tick reads a register without a value, R42),
and what one transaction may do on the bus whatever the environment answers (R130 to R137). -/

namespace Sys2Proof.Machine

/-! ## Sequencing registers -/

/-- Outside a command: phase IDLE and no per-command value (R20, R41, R42). -/
structure ControllerIdle (s : State) : Prop where
  phase   : s.phase = .idle
  tphase  : s.tphase = .done
  latched : s.latched = none
  desc    : s.desc = none
  cur     : s.cur = none
  regs    : s.regs = CmdRegs.empty

/-- All bytes of a transaction have been moved, unless an error is latched. -/
def AllMoved (dir : Dir) (len : Byte) (r : CmdRegs) (latched : Option Cause) : Prop :=
  latched = none → dir = .read → r.written.length = len.toNat

/-- A transaction in progress: its operands are loaded and `S.tphase`, `S.bus_held` and the latched
error agree with the table of R138 and with R22 (`bus_held` true exactly between a successful `ACQ`
and the `REL`), and `buf` holds the bytes to send, or those received so far and no others (R42). -/
def TransferCoherent (dir : Dir) (s : State) : Prop :=
  ∃ reg len, s.regs.reg = some reg ∧ s.regs.len = some len ∧
    1 ≤ len.toNat ∧ (dir = .write → s.regs.written.length = len.toNat) ∧
    match s.tphase with
    | .acq => s.busHeld = false ∧ s.latched = none ∧ (dir = .read → s.regs.buf = none)
    | .startW => s.busHeld = true ∧ s.latched = none ∧ (dir = .read → s.regs.buf = none)
    | .reg => s.busHeld = true ∧ s.latched = none ∧ (dir = .read → s.regs.buf = none)
    | .dataTx i => s.busHeld = true ∧ s.latched = none ∧ dir = .write ∧ i < len.toNat
    | .startR => s.busHeld = true ∧ s.latched = none ∧ dir = .read ∧ s.regs.buf = none
    | .dataRx i => s.busHeld = true ∧ s.latched = none ∧ dir = .read ∧ i < len.toNat ∧ s.regs.written.length = i
    | .stop => s.busHeld = true ∧ AllMoved dir len s.regs s.latched
    | .rel => s.busHeld = true ∧ AllMoved dir len s.regs s.latched
    | .done => s.busHeld = false ∧ AllMoved dir len s.regs s.latched

/-- The commands that run ENSURE_INIT (R181), and what of theirs must wait in a register while it
runs: the encoded image of the two that write the time block (R200, R222). -/
def ImageReady (i : Instr) (img : Option RegisterImage) : Prop :=
  match i with
  | .ensureInit _ => True
  | .getDateTime => True
  | .setDateTime _ => img.isSome
  | .syncDevToHost => True
  | .syncHostToDev => img.isSome
  | .busWrite _ _ => False
  | .busRead _ _ => False
  | .encodeTime _ => False
  | .decodeTime _ => False

/-- The configuration writes in progress: not Ready yet, the mode at hand (R182). -/
def InitCoherent (i : Instr) (s : State) : Prop :=
  s.initState = .uninitialized ∧ s.regs.mode.isSome ∧ ImageReady i s.regs.img

/-- A result in RESPOND stands in its own registers too: a CalendarTime in `ct`, with the image it was
decoded from in `img` (R26, R27), an encoded image in `img` (R27), received bytes in `buf` (R28). -/
def ResultHeld (p : Payload) (r : CmdRegs) : Prop :=
  match p with
  | .unit => True
  | .time ct flag => r.ct = some ct ∧ ∃ img, r.img = some img ∧ ct = decodeImage img ∧ flag = integrityFlag img
  | .flag flag => ∃ img, r.img = some img ∧ r.ct = some (decodeImage img) ∧ flag = integrityFlag img
  | .image img => r.img = some img
  | .bytes bs => r.buf = some bs

/-- What the controller holds in each phase (R24, R191). -/
def Coherent (s : State) : Prop :=
  match s.phase with
  | .idle => s.busHeld = false ∧ ControllerIdle s
  | .decodeCmd =>
    s.busHeld = false ∧ s.desc.isSome ∧ s.tphase = .done ∧ s.latched = none ∧ s.cur = none ∧
      s.regs = CmdRegs.empty
  | .validate =>
    s.busHeld = false ∧ s.regs.ct.isSome ∧
      match s.cur with
      | some (.encodeTime _) => True
      | some (.setDateTime _) => s.regs.mode.isSome
      | some .syncHostToDev => s.regs.mode.isSome
      | _ => False
  | .initC1 => TransferCoherent .write s ∧ ∃ i, s.cur = some i ∧ InitCoherent i s
  | .initC2 => TransferCoherent .write s ∧ ∃ i, s.cur = some i ∧ InitCoherent i s
  | .xfer =>
    ∃ i, s.cur = some i ∧ TransferCoherent (xferDir i) s ∧
      match i with
      | .ensureInit _ => False
      | .getDateTime => s.regs.len = some (BitVec.ofNat 8 timeBlockLen)
      | .setDateTime _ => True
      | .syncDevToHost => s.regs.len = some (BitVec.ofNat 8 timeBlockLen)
      | .syncHostToDev => True
      | .busWrite _ _ => True
      | .busRead _ _ => True
      | .encodeTime _ => False
      | .decodeTime _ => False
  | .hostIo =>
    s.busHeld = false ∧
      match s.cur with
      | some .syncDevToHost => ∃ img, s.regs.img = some img ∧ s.regs.ct = some (decodeImage img)
      | some .syncHostToDev => s.regs.mode.isSome
      | _ => False
  | .respond =>
    s.busHeld = false ∧
      match s.regs.result with
      | none => False
      | some (.err _) => True
      | some (.ok p) => ResultHeld p s.regs

/-- The machine's invariant: parameters within R9, the device's registers in canonical form, the
sequencing registers coherent. -/
structure Inv (s : State) : Prop where
  cfg      : s.cfg.ok = true
  memory   : Memory.wf s.dev.regs = true
  coherent : Coherent s

/-! ## The bus -/

/-- The answer is `Ok` or `Ok(byte)` (R121). -/
def TpResult.isOk : TpResult → Bool
  | .ok => true
  | .okByte _ => true
  | .fail _ => false

/-- Every one of these events was answered `Ok`. -/
def AllOk (evs : List BusEvent) : Prop := ∀ e ∈ evs, TpResult.isOk e.result = true

/-- The bytes received in a trace, in order. -/
def received (evs : List BusEvent) : List Byte :=
  evs.filterMap fun e => match e.result with
    | .okByte b => some b
    | .ok => none
    | .fail _ => none

/-- The write frame of R94 after the acquire and before the end. -/
def writeEvents (addr : Addr7) (reg : Byte) (buf : List Byte) : List TpEvent :=
  .start addr .write :: .tx reg :: buf.map .tx

/-- The read frame of R95: `len` bytes, each but the last acknowledged (R133). -/
def readEvents (addr : Addr7) (reg : Byte) (len : Nat) : List TpEvent :=
  .start addr .write :: .tx reg :: .start addr .read ::
    (List.range len).map fun i => .rx (decide (i + 1 ≠ len))

/-- Everything one transaction can do on the bus, in the spec's own terms (R130, R131, R134 to
R136), with the trace it leaves and how it ends: the bytes received, or a cause. -/
inductive TxnRun (cfg : BusCfg) (frame : List TpEvent) :
    List BusEvent → Except Cause (List Byte) → Prop where
  /-- `ACQ` fails: "no other event is issued" (R136). -/
  | acquireFails (f : TpFailure) :
      TxnRun cfg frame [⟨.acq cfg, .fail f⟩] (.error .transport)
  /-- Event `e` of the frame is the first to fail: nothing of the frame follows it (R134), `STOP`
  follows unless arbitration was lost, then `REL` (R135). -/
  | frameFails (before : List BusEvent) (e : TpEvent) (f : TpFailure) (after : List TpEvent)
      (tail : List BusEvent) (hframe : frame = before.map BusEvent.event ++ e :: after)
      (hok : AllOk before)
      (htail : tail.map BusEvent.event = if f = .arbLost then [.rel] else [.stop, .rel]) :
      TxnRun cfg frame (⟨.acq cfg, .ok⟩ :: before ++ ⟨e, .fail f⟩ :: tail) (.error f.cause)
  /-- `STOP` itself fails (R135). -/
  | stopFails (body : List BusEvent) (f : TpFailure) (r : TpResult)
      (hframe : body.map BusEvent.event = frame) (hok : AllOk body) :
      TxnRun cfg frame (⟨.acq cfg, .ok⟩ :: body ++ [⟨.stop, .fail f⟩, ⟨.rel, r⟩]) (.error f.cause)
  /-- `REL` fails after all else went well (R136). -/
  | releaseFails (body : List BusEvent) (f : TpFailure)
      (hframe : body.map BusEvent.event = frame) (hok : AllOk body) :
      TxnRun cfg frame (⟨.acq cfg, .ok⟩ :: body ++ [⟨.stop, .ok⟩, ⟨.rel, .fail f⟩]) (.error .transport)
  /-- Every event answers `Ok`. -/
  | succeeds (body : List BusEvent)
      (hframe : body.map BusEvent.event = frame) (hok : AllOk body) :
      TxnRun cfg frame (⟨.acq cfg, .ok⟩ :: body ++ [⟨.stop, .ok⟩, ⟨.rel, .ok⟩]) (.ok (received body))

/-- Whether the transport is held after a trace that began with it not held; `none` when the trace
acquires what is held or releases what is not (R137). -/
def heldAfter : Bool → List BusEvent → Option Bool
  | h, [] => some h
  | h, e :: rest =>
    match e.event with
    | .acq _ => if h then none else heldAfter (TpResult.isOk e.result) rest
    | .rel => if h then heldAfter false rest else none
    | .start _ _ => if h then heldAfter h rest else none
    | .tx _ => if h then heldAfter h rest else none
    | .rx _ => if h then heldAfter h rest else none
    | .stop => if h then heldAfter h rest else none

/-- How many sent bytes the device acknowledged, the register address included. -/
def txAcked : List BusEvent → Nat
  | [] => 0
  | e :: rest =>
    match e.event with
    | .tx _ => if TpResult.isOk e.result then txAcked rest + 1 else txAcked rest
    | .acq _ => txAcked rest
    | .start _ _ => txAcked rest
    | .rx _ => txAcked rest
    | .stop => txAcked rest
    | .rel => txAcked rest

/-- The device's registers after the first `n` bytes of `buf` were stored from `base` on, every
other register as before (R56, R63). -/
def StoredUpTo (d d' : Device) (base : Byte) (buf : List Byte) (n : Nat) : Prop :=
  ∀ a : Byte, d'.regAt a =
    if base.toNat ≤ a.toNat ∧ a.toNat < base.toNat + n then buf.getD (a.toNat - base.toNat) 0
    else d.regAt a

/-- The same registers. -/
def SameRegs (d d' : Device) : Prop := ∀ a : Byte, d'.regAt a = d.regAt a

/-- What a write transaction with trace `evs` leaves in the device (R63): within the address space, the
first `n` bytes of `buf` from `base` on and no other change, where `n` is the number of data bytes
acknowledged or one more, and never more than there are. `txAcked` counts the register address too. -/
def WriteLeaves (base : Byte) (buf : List Byte) (d : Device) (evs : List BusEvent) (d' : Device) : Prop :=
  base.toNat + buf.length ≤ 256 →
    ∃ n, n ≤ buf.length ∧ StoredUpTo d d' base buf n ∧ txAcked evs ≤ n + 1 ∧ n ≤ txAcked evs

/-! ## The environment -/

/-- The device is the reference device of R58 and every event answers `Ok`: nothing is scripted. -/
structure ReferenceEnv (s : State) : Prop where
  mode   : s.env.mode = .reference
  script : s.env.script = []

/-! ## Which device registers a command may store to -/

/-- Register `a` lies in the `n` registers from `base` on. -/
abbrev InBlock (base : Byte) (n : Nat) (a : Byte) : Prop :=
  base.toNat ≤ a.toNat ∧ a.toNat < base.toNat + n

/-- The registers the (implicit) initialisation stores to: the two control registers, and none when
Ready (R182, R195). -/
def InitStores (s : State) (a : Byte) : Prop :=
  s.initState = .uninitialized ∧ (a = s.cfg.addrControl1 ∨ a = s.cfg.addrControl2)

/-- The registers a command may store to in state `s` (R50, R65). -/
def MayStore (i : Instr) (s : State) (a : Byte) : Prop :=
  match i with
  | .ensureInit _ => InitStores s a
  | .getDateTime => InitStores s a
  | .setDateTime ct => Valid s.cfg.dayMax ct ∧ (InitStores s a ∨ InBlock s.cfg.addrTimeBlock 7 a)
  | .syncDevToHost => InitStores s a
  | .syncHostToDev =>
    Valid s.cfg.dayMax (hostUtc s) ∧ (InitStores s a ∨ InBlock s.cfg.addrTimeBlock 7 a)
  | .busWrite reg buf => InBounds reg buf.length ∧ InBlock reg buf.length a
  | .busRead _ _ => False
  | .encodeTime _ => False
  | .decodeTime _ => False

/-- The registers a read of `n` bytes finds from `p` on (R56, R58). -/
def regsFrom (d : Device) (p : Byte) (n : Nat) : List Byte :=
  (List.range n).map fun i => d.regAt (p + BitVec.ofNat 8 i)

/-- The image that the seven registers from `p` on hold. -/
def imageAt (d : Device) (p : Byte) : RegisterImage where
  second := d.regAt p
  minute := d.regAt (p + 1)
  hour := d.regAt (p + 2)
  day := d.regAt (p + 3)
  weekday := d.regAt (p + 4)
  month := d.regAt (p + 5)
  year := d.regAt (p + 6)

/-! ## Descriptors -/

/-- The byte at offset `i` of a descriptor; 0 past its end. -/
def byteAt (bs : List Byte) (i : Nat) : Nat := (bs.getD i 0).toNat

/-- The length the first byte, and for 0x10 the third, give a descriptor (R101, R103); `none` for the
opcodes that are reserved (R108). -/
def requiredLength (bs : List Byte) : Option Nat :=
  match bs with
  | [] => none
  | op :: _ =>
    if op = 0x01 then some 2
    else if op = 0x02 then some 1
    else if op = 0x03 then some 9
    else if op = 0x04 then some 1
    else if op = 0x05 then some 1
    else if op = 0x10 then some (3 + byteAt bs 2)
    else if op = 0x11 then some 3
    else if op = 0x20 then some 9
    else if op = 0x21 then some 8
    else none

/-- The legal descriptors of R108: one of the nine opcodes, the length of R103, and for BUS_WRITE and
BUS_READ the bounds of R55. -/
def LegalDescriptor (bs : List Byte) : Prop :=
  requiredLength bs = some bs.length ∧
  (byteAt bs 0 = 0x10 ∨ byteAt bs 0 = 0x11 → 1 ≤ byteAt bs 2 ∧ byteAt bs 1 + byteAt bs 2 ≤ 256)

/-! ## Responses, in plain arithmetic -/

/-- `s` after a command that did nothing but answer: the response is delivered and the sequencing
registers are as outside a command (R42, R104). -/
def delivered (s : State) (response : List Byte) : State :=
  { s with
    phase := .idle
    tphase := .done
    latched := none
    desc := none
    cur := none
    regs := CmdRegs.empty
    responses := s.responses ++ [response] }

/-- A number below 100 as two decimal digits in one byte, the tens in the high nibble (R52). -/
def digits (v : Nat) : Byte := BitVec.ofNat 8 (16 * (v / 10) + v % 10)

/-- The image of a valid time in decimal digits: the century flag adds 128 to the month (R86, R90). -/
def digitImage (ct : CalendarTime) : List Byte :=
  [digits ct.second.toNat, digits ct.minute.toNat, digits ct.hour.toNat, digits ct.day.toNat,
   digits ct.weekday.toNat,
   if ct.year < 2000 then digits ct.month.toNat else 128 + digits ct.month.toNat,
   digits (ct.year.toNat % 100)]

/-- A field's number: `tens` is the number of values its tens digit can take, the units digit is taken
at face value (R89, R163). -/
def fieldValue (b : Byte) (tens : Nat) : Nat := b.toNat / 16 % tens * 10 + b.toNat % 16

/-- The year of an image (R90). -/
def yearValue (img : RegisterImage) : Nat :=
  1900 + fieldValue img.year 16 + if 128 ≤ img.month.toNat then 100 else 0

/-- The time of an image, field by field (R160). -/
def timeValue (img : RegisterImage) : CalendarTime where
  second := fieldValue img.second 8
  minute := fieldValue img.minute 8
  hour := fieldValue img.hour 4
  day := fieldValue img.day 4
  weekday := (img.weekday.toNat % 8 : Nat)
  month := fieldValue img.month 2
  year := yearValue img

/-- The `OK` response to a decoded image: status, integrity flag, the eight bytes of R102. -/
def timeResponse (img : RegisterImage) : List Byte :=
  [0x00, if 128 ≤ img.second.toNat then 1 else 0,
   BitVec.ofNat 8 (fieldValue img.second 8), BitVec.ofNat 8 (fieldValue img.minute 8),
   BitVec.ofNat 8 (fieldValue img.hour 4), BitVec.ofNat 8 (fieldValue img.day 4),
   BitVec.ofNat 8 (img.weekday.toNat % 8), BitVec.ofNat 8 (fieldValue img.month 2),
   BitVec.ofNat 8 (yearValue img), BitVec.ofNat 8 (yearValue img / 256)]

/-- The response of a command that ends with an error: its code and its cause code, no payload (R105 to
R107). -/
def errorResponse (e : CmdError) : List Byte := [e.status, e.aux]

/-- The images that ENCODE can give: decimal nibbles, canonical values, unused bits and integrity bit 0
(R165). -/
def CanonicalImage (dm : DayMax) (img : RegisterImage) : Prop :=
  Valid dm (timeValue img) ∧
  (img.second.toNat % 16 ≤ 9 ∧ img.minute.toNat % 16 ≤ 9 ∧ img.hour.toNat % 16 ≤ 9 ∧
    img.day.toNat % 16 ≤ 9 ∧ img.month.toNat % 16 ≤ 9 ∧ img.year.toNat % 16 ≤ 9 ∧
    img.year.toNat / 16 ≤ 9) ∧
  (img.second.toNat < 128 ∧ img.minute.toNat < 128 ∧ img.hour.toNat < 64 ∧ img.day.toNat < 64 ∧
    img.weekday.toNat < 8 ∧ img.month.toNat % 128 < 32)

/-! ## Commands -/

/-- What every command keeps and leaves: an idle controller, the parameters, the inputs still to come,
the environment's mode, and a transport that is not held. -/
structure CommandFrame (s t : State) : Prop where
  idle    : ControllerIdle t
  cfg     : t.cfg = s.cfg
  inbox   : t.inbox = s.inbox
  envMode : t.env.mode = s.env.mode
  busHeld : s.busHeld = false → t.busHeld = false

/-- The two configuration writes (R182 to R185) from device `d`: the trace they leave, how they end, and
what they leave in the device. -/
inductive InitRun (cfg : Config) (mode : Byte) (d : Device) :
    List BusEvent → Except Cause Unit → Device → Prop where
  /-- CONTROL_1 fails: CONTROL_2 is not attempted and untouched (R184). -/
  | firstFails (evs : List BusEvent) (c : Cause) (d' : Device)
      (h1 : TxnRun cfg.busCfg (writeEvents cfg.devAddr cfg.addrControl1 [0x00]) evs (.error c))
      (s1 : WriteLeaves cfg.addrControl1 [0x00] d evs d') :
      InitRun cfg mode d evs (.error c) d'
  /-- CONTROL_2 fails (R185). -/
  | secondFails (evs evs' : List BusEvent) (bs : List Byte) (c : Cause) (d1 d' : Device)
      (h1 : TxnRun cfg.busCfg (writeEvents cfg.devAddr cfg.addrControl1 [0x00]) evs (.ok bs))
      (s1 : WriteLeaves cfg.addrControl1 [0x00] d evs d1)
      (h2 : TxnRun cfg.busCfg (writeEvents cfg.devAddr cfg.addrControl2 [mode &&& 0x13]) evs' (.error c))
      (s2 : WriteLeaves cfg.addrControl2 [mode &&& 0x13] d1 evs' d') :
      InitRun cfg mode d (evs ++ evs') (.error c) d'
  /-- Both succeed. -/
  | succeeds (evs evs' : List BusEvent) (bs bs' : List Byte) (d1 d' : Device)
      (h1 : TxnRun cfg.busCfg (writeEvents cfg.devAddr cfg.addrControl1 [0x00]) evs (.ok bs))
      (s1 : WriteLeaves cfg.addrControl1 [0x00] d evs d1)
      (h2 : TxnRun cfg.busCfg (writeEvents cfg.devAddr cfg.addrControl2 [mode &&& 0x13]) evs' (.ok bs'))
      (s2 : WriteLeaves cfg.addrControl2 [mode &&& 0x13] d1 evs' d') :
      InitRun cfg mode d (evs ++ evs') (.ok ()) d'

/-- `S.init_state` after configuration writes that ended so: Ready when, and only when, both went well
(R180). -/
def stateAfterInit : Except Cause Unit → DeviceInitState
  | .ok _ => .ready
  | .error _ => .uninitialized

/-- ENSURE_INIT from `s`, explicit or implicit (R182, R195): no event and the same registers when Ready,
else the two writes. -/
def ReadyRun (s : State) (mode : Byte) (evs : List BusEvent) (r : Except Cause Unit)
    (after : DeviceInitState) (d' : Device) : Prop :=
  match s.initState with
  | .ready => evs = [] ∧ r = .ok () ∧ after = .ready ∧ SameRegs s.dev d'
  | .uninitialized => InitRun s.cfg mode s.dev evs r d' ∧ after = stateAfterInit r

/-- A time-block transfer with its implicit initialisation (R196, R200): a failed initialisation ends the
command with `InitError` and no time-block event; else one transaction, whose failure is `BusError`.
`leaves` says what the transaction does to the device. -/
def TimeRun (s : State) (frame : List TpEvent) (leaves : Device → List BusEvent → Device → Prop)
    (evs : List BusEvent) (after : DeviceInitState) (q : Except CmdError (List Byte)) (d' : Device) : Prop :=
  ∃ evs0 r d0, ReadyRun s s.cfg.initModeDefault evs0 r after d0 ∧
    match r with
    | .error c => evs = evs0 ∧ q = .error (.initError c) ∧ SameRegs d0 d'
    | .ok _ => ∃ evs1 r1, TxnRun s.cfg.busCfg frame evs1 r1 ∧ evs = evs0 ++ evs1 ∧ leaves d0 evs1 d' ∧
        q = match r1 with
          | .error c => .error (.busError c)
          | .ok bs => .ok bs

/-- What a read transaction leaves in the device: every register as it was (R58; that reading has no other
effect is log 10). -/
def ReadLeaves (d : Device) (_ : List BusEvent) (d' : Device) : Prop := SameRegs d d'

/-- The response to a result of which `answer` is the `OK` form. -/
def responseOf (q : Except CmdError (List Byte)) (answer : List Byte → List Byte) : List Byte :=
  match q with
  | .ok bs => answer bs
  | .error e => errorResponse e

/-- The events of the configuration writes when all go well (R182: 12 events). -/
def initEvents (cfg : Config) (mode : Byte) : List TpEvent :=
  .acq cfg.busCfg :: writeEvents cfg.devAddr cfg.addrControl1 [0x00] ++ [.stop, .rel] ++
    (.acq cfg.busCfg :: writeEvents cfg.devAddr cfg.addrControl2 [mode &&& 0x13] ++ [.stop, .rel])

/-- The events of the (implicit) initialisation when all go well: none when Ready. -/
def readyEvents (s : State) (mode : Byte) : List TpEvent :=
  match s.initState with
  | .ready => []
  | .uninitialized => initEvents s.cfg mode

/-- The register contents the (implicit) initialisation leaves when all go well. -/
def initRegs (s : State) (mode : Byte) (a : Byte) : Byte :=
  match s.initState with
  | .ready => s.dev.regAt a
  | .uninitialized =>
    if a = s.cfg.addrControl2 then mode &&& 0x13
    else if a = s.cfg.addrControl1 then 0x00
    else s.dev.regAt a

/-! ## The calendar -/

/-- A leap year of the Gregorian calendar. -/
abbrev LeapYear (y : Int) : Prop := y % 4 = 0 ∧ (y % 100 ≠ 0 ∨ y % 400 = 0)

/-- The days of a month of the Gregorian calendar. -/
def monthDays (y m : Int) : Int :=
  if m = 2 then (if LeapYear y then 29 else 28)
  else if m = 4 ∨ m = 6 ∨ m = 9 ∨ m = 11 then 30
  else 31

/-! ## The paths of R191 -/

/-- Where a device-level command stands once the test `S.init_state == Ready` is made (R191). -/
def initOr (ready : Phase) : DeviceInitState → Phase
  | .ready => ready
  | .uninitialized => .initC1

/-- Where a command goes on once the device is initialised (R191). -/
def readyPhase : Instr → Phase
  | .ensureInit _ => .respond
  | .getDateTime => .xfer
  | .setDateTime _ => .xfer
  | .syncDevToHost => .xfer
  | .syncHostToDev => .xfer
  | .busWrite _ _ => .xfer
  | .busRead _ _ => .xfer
  | .encodeTime _ => .xfer
  | .decodeTime _ => .xfer

/-- The first phase of a legal command after DECODE_CMD (R191). -/
def firstPhase (i : Instr) (init : DeviceInitState) : Phase :=
  match i with
  | .ensureInit _ => initOr .respond init
  | .getDateTime => initOr .xfer init
  | .setDateTime _ => .validate
  | .syncDevToHost => initOr .xfer init
  | .syncHostToDev => .hostIo
  | .busWrite _ _ => .xfer
  | .busRead _ _ => .xfer
  | .encodeTime _ => .validate
  | .decodeTime _ => .respond

/-- Where the transaction of a phase leads: it stays in phase `p` until it is over, "stop" goes to RESPOND
with the latched error, and else the path goes on to `next` (R138, R191). -/
def afterTransaction (s : State) (p next : Phase) : Phase :=
  if s.tphase = .done then (if s.latched = none then next else .respond) else p

/-- Where command `i` stands one tick after state `s` (R191). -/
def nextPhase (i : Instr) (s : State) : Phase :=
  match s.phase with
  | .idle => .idle
  | .decodeCmd => firstPhase i s.initState
  | .validate =>
    if (∃ ct, s.regs.ct = some ct ∧ Valid s.cfg.dayMax ct) then
      match i with
      | .encodeTime _ => .respond
      | _ => initOr .xfer s.initState
    else .respond
  | .initC1 => afterTransaction s .initC1 .initC2
  | .initC2 => afterTransaction s .initC2 (readyPhase i)
  | .xfer =>
    afterTransaction s .xfer (match i with
      | .syncDevToHost => .hostIo
      | _ => .respond)
  | .hostIo =>
    match i with
    | .syncHostToDev => .validate
    | _ => .respond
  | .respond => .idle

/-- The constraints of R9 on the open parameters. -/
def Constraints (c : Config) : Prop :=
  c.addrTimeBlock.toNat + 6 ≤ 0xFF ∧
  (∀ k, k < 7 → c.addrTimeBlock.toNat + k ≠ c.addrControl1.toNat ∧ c.addrTimeBlock.toNat + k ≠ c.addrControl2.toNat) ∧
  c.addrControl1 ≠ c.addrControl2

/-- The results the matrix of R232 allows a command: status and aux. -/
def AllowedResult (i : Instr) (status aux : Byte) : Prop :=
  let cause := aux = 0x01 ∨ aux = 0x02 ∨ aux = 0x03 ∨ aux = 0x04
  match i with
  | .busWrite _ _ => (status = 0x00 ∧ aux = 0x00) ∨ (status = 0x01 ∧ cause)
  | .busRead _ _ => (status = 0x00 ∧ aux = 0x00) ∨ (status = 0x01 ∧ cause)
  | .encodeTime _ => (status = 0x00 ∧ aux = 0x00) ∨ (status = 0x02 ∧ aux = 0x00)
  | .decodeTime _ => status = 0x00 ∧ (aux = 0x00 ∨ aux = 0x01)
  | .ensureInit _ => (status = 0x00 ∧ aux = 0x00) ∨ (status = 0x03 ∧ cause)
  | .getDateTime => (status = 0x00 ∧ (aux = 0x00 ∨ aux = 0x01)) ∨ (status = 0x01 ∧ cause) ∨ (status = 0x03 ∧ cause)
  | .setDateTime _ =>
    (status = 0x00 ∧ aux = 0x00) ∨ (status = 0x01 ∧ cause) ∨ (status = 0x02 ∧ aux = 0x00) ∨ (status = 0x03 ∧ cause)
  | .syncDevToHost => (status = 0x00 ∧ (aux = 0x00 ∨ aux = 0x01)) ∨ (status = 0x01 ∧ cause) ∨ (status = 0x03 ∧ cause)
  | .syncHostToDev =>
    (status = 0x00 ∧ aux = 0x00) ∨ (status = 0x01 ∧ cause) ∨ (status = 0x02 ∧ aux = 0x00) ∨ (status = 0x03 ∧ cause)

/-- The payload length under `OK` (R107). -/
def payloadLength : Instr → Nat
  | .getDateTime => 8
  | .decodeTime _ => 8
  | .encodeTime _ => 7
  | .busRead _ len => len.toNat
  | .busWrite _ _ => 0
  | .ensureInit _ => 0
  | .setDateTime _ => 0
  | .syncDevToHost => 0
  | .syncHostToDev => 0

/-- What a run without a failure leaves beside its result: an idle controller, the transport released,
the named events all answered `Ok`, and one response. -/
structure CleanRun (s t : State) (events : List TpEvent) (response : List Byte) : Prop where
  frame     : CommandFrame s t
  installed : t.tpInstalled = false
  trace     : ∃ evs, t.trace = s.trace ++ evs ∧ AllOk evs ∧ evs.map BusEvent.event = events
  responses : t.responses = s.responses ++ [response]
  env       : ReferenceEnv t

end Sys2Proof.Machine
end

