-- ==== Sys2Proof/Certificates/Slice0/Obligations.lean ====
section
/-! DEFINITION. What is to be proved of the model: the spec's rules, the promises its prose makes of the
whole machine, and how the two views of a command agree. -/

open Sys2Proof Sys2Proof.Machine

/-! ## Descriptors -/

/-- Descriptors written out byte by byte from R101, R102 and the vectors of 95_test_vectors.md decode to the
commands they stand for. -/
def Obligations.DecodesSpecWords : Prop :=
  decode [0x01, 0xFF] = .ok (.ensureInit 0xFF) ∧
  decode [0x02] = .ok .getDateTime ∧
  decode [0x03, 0x00, 0x19, 0x10, 0x06, 0x03, 0x03, 0xE6, 0x07] = .ok (.setDateTime ⟨0, 25, 16, 6, 3, 3, 2022⟩) ∧
  decode [0x04] = .ok .syncDevToHost ∧
  decode [0x05] = .ok .syncHostToDev ∧
  decode [0x10, 0xFF, 0x01, 0xAB] = .ok (.busWrite 0xFF [0xAB]) ∧
  decode [0x11, 0x02, 0x07] = .ok (.busRead 0x02 0x07) ∧
  decode [0x20, 0x3B, 0x3B, 0x17, 0x1F, 0x06, 0x0C, 0xCF, 0x07] = .ok (.encodeTime ⟨59, 59, 23, 31, 6, 12, 1999⟩) ∧
  decode [0x21, 0xD9, 0xD9, 0xE3, 0xF1, 0xFE, 0x72, 0x99] = .ok (.decodeTime ⟨0xD9, 0xD9, 0xE3, 0xF1, 0xFE, 0x72, 0x99⟩)

/-- Every well-formed command, with every operand at every value its encoding admits, comes back from its
descriptor (R100 to R103). -/
def Obligations.DecodeOfEncode : Prop :=
  ∀ i : Instr, i.WellFormed → decode (encode i) = .ok i

/-- A descriptor that decodes is the descriptor of the command it decodes to, and that command is well
formed: each command has one descriptor form (R103). -/
def Obligations.EncodeOfDecode : Prop :=
  ∀ (bs : List Byte) (i : Instr), decode bs = .ok i → encode i = bs ∧ i.WellFormed

/-- R108: a byte sequence is refused exactly when it is not legal, and a refused one is answered `FF 00`,
issues no event and changes nothing else. -/
def Obligations.IllegalDescriptorRefused : Prop :=
  ∀ (bs : List Byte) (s : State),
    (LegalDescriptor bs → ∃ i, decode bs = .ok i) ∧
    (¬ LegalDescriptor bs → runDescriptor bs s = .next (delivered s [0xFF, 0x00]))

/-! ## Steps -/

/-- A step takes the descriptor presented to an idle controller, legal or not: a command is run, an illegal
descriptor is answered `FF 00` with nothing else done; none is dropped (R24, R67, R68, R104, R108). -/
def Obligations.StepRunsPresentedCommand : Prop :=
  ∀ (s : State) (bs : List Byte) (rest : List Input), s.cfg.ok = true → s.phase = .idle →
    s.inbox = .command bs :: rest →
    step s = runDescriptor bs { s with inbox := rest } ∧
    (∀ i, decode bs = .ok i → step s = exec i { s with inbox := rest }) ∧
    (¬ LegalDescriptor bs → step s = .next (delivered { s with inbox := rest } [0xFF, 0x00]))

/-- The step after placing a table word runs the command that word decodes to (log 15). -/
def Obligations.PlacedWordRunsNext : Prop :=
  ∀ (s : State) (nbits w : Nat) (i : Instr), s.cfg.ok = true → decodeTableWord nbits w = some i →
    step (s.withFetchWord nbits w) = exec i { s with phase := .idle }

/-- In IDLE a step with nothing to do, or with nothing from outside, waits, and a command presented phase by
phase is only accepted: its descriptor is taken and the phase is DECODE_CMD (R24, R72, R191, R251; the inputs
are log 15). -/
def Obligations.IdleStep : Prop :=
  ∀ s : State, s.cfg.ok = true → s.phase = .idle →
    (s.inbox = [] → step s = .next s) ∧
    (∀ rest, s.inbox = .wait :: rest → step s = .next { s with inbox := rest }) ∧
    (∀ bs rest, s.inbox = .commandPhased bs :: rest →
      step s = .next { s with inbox := rest, phase := .decodeCmd, desc := some bs })

/-- While a command runs, in every phase but IDLE, each step takes it one tick further (the tick is log 1),
whether nothing is to come, nothing comes, or a descriptor is presented; and a presented descriptor stays
where it is (R24, R67, R270). -/
def Obligations.CommandWaitsWhileBusy : Prop :=
  ∀ s : State, s.cfg.ok = true → s.phase ≠ .idle →
    (s.inbox = [] → step s = tick s) ∧
    (∀ rest, s.inbox = .wait :: rest → step s = tick { s with inbox := rest }) ∧
    (∀ bs rest, s.inbox = .command bs :: rest ∨ s.inbox = .commandPhased bs :: rest →
      step s = tick s ∧ (∀ t, step s = .next t → t.inbox = s.inbox) ∧ (Coherent s → ∃ t, step s = .next t))

/-- Parameters that break a constraint of R9 are refused by every step, and nothing else is refused. R9 says
only "refused by the model"; that each step refuses, and that no other state is refused, is the model's
reading of it (log 3). -/
def Obligations.BadConfigurationRefused : Prop :=
  ∀ s : State, (¬ Constraints s.cfg → step s = .refused .badConfig) ∧
    (Constraints s.cfg → ∀ r, step s ≠ .refused r)

/-- `rst_n` takes the controller to its reset state from every phase; no event is issued, the parameters, the
device, the transport and the host clock are untouched, and the history starts afresh (R41, R260 to R262).
That the latched error of R138 is none (in `ControllerIdle`) and that the responses, the environment's answers
and the inputs to come stay are the model's choices (log 15, log 16). -/
def Obligations.ResetReturnsToStart : Prop :=
  ∀ (s : State) (rest : List Input), s.cfg.ok = true → s.inbox = .reset :: rest →
    ∃ t, step s = .next t ∧ ControllerIdle t ∧ t.initState = .uninitialized ∧ t.busHeld = false ∧
      t.trace = [] ∧ t.cfg = s.cfg ∧ t.dev = s.dev ∧ t.tpInstalled = s.tpInstalled ∧
      t.hostEpoch = s.hostEpoch ∧ t.responses = s.responses ∧ t.env = s.env ∧ t.inbox = rest

/-- The values of the controller in the reset state: those of R41, and the latched error none (in
`ControllerIdle`), which R41 does not name and the model chooses (log 16). -/
def Obligations.ResetStateValues : Prop :=
  State.reset.initState = .uninitialized ∧ State.reset.busHeld = false ∧ ControllerIdle State.reset ∧
  State.reset.trace = []

/-- What the outside does between commands and between events: the device changes one register by itself, the
host clock moves on, the transport does not answer yet; nothing of the controller changes (R35, R39, R69, R272,
R273). The model's choice of inputs is log 10, log 11 and log 17. -/
def Obligations.OutsideChanges : Prop :=
  ∀ (s : State) (rest : List Input), s.cfg.ok = true →
    (∀ a v, s.inbox = .devChange a v :: rest →
      ∃ t, step s = .next t ∧ (∀ b, t.dev.regAt b = if b = a then v else s.dev.regAt b) ∧
        t = { s with inbox := rest, dev := t.dev }) ∧
    (∀ n, s.inbox = .clockAdvance n :: rest →
      step s = .next { s with inbox := rest, hostEpoch := s.hostEpoch + n }) ∧
    (s.inbox = .stall :: rest → step s = .next { s with inbox := rest })

/-! ## The codec -/

/-- R153: ENCODE of a valid time answers its image in decimal digits, of any other `InvalidDateTime`; it
touches nothing else. -/
def Obligations.EncodeResult : Prop :=
  ∀ (ct : CalendarTime) (s : State),
    (Valid s.cfg.dayMax ct → exec (.encodeTime ct) s = .next (delivered s (0x00 :: 0x00 :: digitImage ct))) ∧
    (¬ Valid s.cfg.dayMax ct → exec (.encodeTime ct) s = .next (delivered s [0x02, 0x00]))

/-- R160: DECODE of any seven bytes answers the time of the formula and the integrity flag; it touches nothing
else. -/
def Obligations.DecodeResult : Prop :=
  ∀ (img : RegisterImage) (s : State), exec (.decodeTime img) s = .next (delivered s (timeResponse img))

/-- R165: decoding what was encoded gives the time back with a clear integrity flag, for both values of
`P_DAY_MAX`; and encoding what was decoded gives the image back only when it is canonical: otherwise ENCODE
fails or gives a different image, with unused bits and integrity bit 0. -/
def Obligations.CodecRoundTrip : Prop :=
  (∀ (dm : DayMax) (ct : CalendarTime), Valid dm ct →
    encodeCalendar dm ct = .ok (imageOf ct) ∧ decodeImage (imageOf ct) = ct ∧ integrityFlag (imageOf ct) = false) ∧
  (∀ (dm : DayMax) (img : RegisterImage), encodeCalendar dm (decodeImage img) = .ok img ↔ CanonicalImage dm img) ∧
  (∀ (dm : DayMax) (img img' : RegisterImage), encodeCalendar dm (decodeImage img) = .ok img' → CanonicalImage dm img')

/-- Two different valid times never have the same image (R156 item 6). -/
def Obligations.EncodeInjective : Prop :=
  ∀ (dm : DayMax) (ct ct' : CalendarTime) (img : RegisterImage), encodeCalendar dm ct = .ok img →
    encodeCalendar dm ct' = .ok img → ct = ct'

/-- R162: images that differ only in the bits DECODE ignores give the same result; and the rule's example. -/
def Obligations.DecodeIgnoresUnusedBits : Prop :=
  ∀ s : State,
    (∀ img img' : RegisterImage, img'.second = img.second → img'.minute &&& 0x7F = img.minute &&& 0x7F →
      img'.hour &&& 0x3F = img.hour &&& 0x3F → img'.day &&& 0x3F = img.day &&& 0x3F →
      img'.weekday &&& 0x07 = img.weekday &&& 0x07 → img'.month &&& 0x9F = img.month &&& 0x9F →
      img'.year = img.year → exec (.decodeTime img') s = exec (.decodeTime img) s) ∧
    decodeImage ⟨0xD9, 0xD9, 0xE3, 0xF1, 0xFE, 0x72, 0x99⟩ = ⟨59, 59, 23, 31, 6, 12, 1999⟩ ∧
    integrityFlag ⟨0xD9, 0xD9, 0xE3, 0xF1, 0xFE, 0x72, 0x99⟩ = true

/-- R164: the ranges of DECODE's outputs over all images, each end attained; they fit 7 bits, the year 12. -/
def Obligations.DecodeRanges : Prop :=
  (∀ img : RegisterImage,
    (0 ≤ (decodeImage img).second ∧ (decodeImage img).second ≤ 85) ∧
    (0 ≤ (decodeImage img).minute ∧ (decodeImage img).minute ≤ 85) ∧
    (0 ≤ (decodeImage img).hour ∧ (decodeImage img).hour ≤ 45) ∧
    (0 ≤ (decodeImage img).day ∧ (decodeImage img).day ≤ 45) ∧
    (0 ≤ (decodeImage img).weekday ∧ (decodeImage img).weekday ≤ 7) ∧
    (0 ≤ (decodeImage img).month ∧ (decodeImage img).month ≤ 25) ∧
    (1900 ≤ (decodeImage img).year ∧ (decodeImage img).year ≤ 2165)) ∧
  decodeImage ⟨0xFF, 0xFF, 0xFF, 0xFF, 0xFF, 0xFF, 0xFF⟩ = ⟨85, 85, 45, 45, 7, 25, 2165⟩ ∧
  decodeImage ⟨0x00, 0x00, 0x00, 0x00, 0x00, 0x00, 0x00⟩ = ⟨0, 0, 0, 0, 0, 0, 1900⟩

/-- R154: the bits ENCODE fixes. -/
def Obligations.EncodeFixedBits : Prop :=
  ∀ (dm : DayMax) (ct : CalendarTime) (img : RegisterImage), Valid dm ct → encodeCalendar dm ct = .ok img →
    img.second.getLsbD 7 = false ∧ img.minute.getLsbD 7 = false ∧
    (img.hour.getLsbD 7 = false ∧ img.hour.getLsbD 6 = false) ∧
    (img.day.getLsbD 7 = false ∧ img.day.getLsbD 6 = false) ∧
    (img.weekday.getLsbD 7 = false ∧ img.weekday.getLsbD 6 = false ∧ img.weekday.getLsbD 5 = false ∧
      img.weekday.getLsbD 4 = false ∧ img.weekday.getLsbD 3 = false) ∧
    (img.month.getLsbD 6 = false ∧ img.month.getLsbD 5 = false) ∧
    (img.month.getLsbD 7 = true ↔ 2000 ≤ ct.year)

/-- R155: on valid input the unmasked bytes lie inside their masks, so the masks change nothing, and every
nibble of the image is a decimal digit, the century bit's included. -/
def Obligations.EncodeMasksChangeNothing : Prop :=
  ∀ (dm : DayMax) (ct : CalendarTime) (img : RegisterImage), Valid dm ct → encodeCalendar dm ct = .ok img →
    ((bcd8 ct.second.toNat).toNat ≤ 0x59 ∧ bcd8 ct.second.toNat &&& 0x7F = bcd8 ct.second.toNat) ∧
    ((bcd8 ct.minute.toNat).toNat ≤ 0x59 ∧ bcd8 ct.minute.toNat &&& 0x7F = bcd8 ct.minute.toNat) ∧
    ((bcd8 ct.hour.toNat).toNat ≤ 0x23 ∧ bcd8 ct.hour.toNat &&& 0x3F = bcd8 ct.hour.toNat) ∧
    ((bcd8 ct.day.toNat).toNat ≤ (match dm with | .d31 => 0x31 | .d32 => 0x32) ∧
      bcd8 ct.day.toNat &&& 0x3F = bcd8 ct.day.toNat) ∧
    ((bcd8 ct.weekday.toNat).toNat ≤ 0x06 ∧ bcd8 ct.weekday.toNat &&& 0x07 = bcd8 ct.weekday.toNat) ∧
    ((bcd8 ct.month.toNat).toNat ≤ 0x12 ∧ bcd8 ct.month.toNat &&& 0x1F = bcd8 ct.month.toNat) ∧
    (∀ b ∈ [img.second, img.minute, img.hour, img.day, img.weekday, img.month, img.year],
      b.toNat % 16 ≤ 9 ∧ b.toNat / 16 ≤ 9)

/-! ## Transactions -/

/-- BUS_WRITE in every environment: its trace is one of those of R130 and R134 to R136, the response is `00 00`
or `01` and the cause of the first failure, and nothing else of the controller or the host changes. -/
def Obligations.BusWriteRuns : Prop :=
  ∀ (s : State) (reg : Byte) (buf : List Byte), InBounds reg buf.length →
    ∃ t evs r, exec (.busWrite reg buf) s = .next t ∧ CommandFrame s t ∧ t.initState = s.initState ∧
      t.hostEpoch = s.hostEpoch ∧ t.trace = s.trace ++ evs ∧
      TxnRun s.cfg.busCfg (writeEvents s.cfg.devAddr reg buf) evs r ∧
      t.responses = s.responses ++ [match r with
        | .ok _ => [0x00, 0x00]
        | .error c => [0x01, c.code]]

/-- BUS_READ in every environment (R131, R133 to R136): under `OK` the response carries exactly the bytes
received, `len` of them; under an error none. -/
def Obligations.BusReadRuns : Prop :=
  ∀ (s : State) (reg len : Byte), InBounds reg len.toNat →
    ∃ t evs r, exec (.busRead reg len) s = .next t ∧ CommandFrame s t ∧ t.initState = s.initState ∧
      t.hostEpoch = s.hostEpoch ∧ t.trace = s.trace ++ evs ∧
      TxnRun s.cfg.busCfg (readEvents s.cfg.devAddr reg len.toNat) evs r ∧
      (∀ bs, r = .ok bs → bs.length = len.toNat) ∧
      t.responses = s.responses ++ [match r with
        | .ok bs => 0x00 :: 0x00 :: bs
        | .error c => [0x01, c.code]]

/-- What a BUS_WRITE leaves in the device, in every environment (R56, R63): the first `n` data bytes from `reg`
on and no other change, where `n` is the number of data bytes acknowledged or one more; all of them under
`OK`. `txAcked` counts the register address too. -/
def Obligations.BusWriteStoresPrefix : Prop :=
  ∀ (s : State) (reg : Byte) (buf : List Byte), InBounds reg buf.length →
    ∃ t evs n, exec (.busWrite reg buf) s = .next t ∧ t.trace = s.trace ++ evs ∧ n ≤ buf.length ∧
      StoredUpTo s.dev t.dev reg buf n ∧ txAcked evs ≤ n + 1 ∧ n ≤ txAcked evs ∧
      (t.responses = s.responses ++ [[0x00, 0x00]] → n = buf.length)

/-- BUS_WRITE on the reference device (R58, R130, R139): `len + 5` events, all `Ok`, `00 00`, every byte stored
from `reg` on, every other register unchanged, the pointer behind the last byte. -/
def Obligations.BusWriteOnReferenceDevice : Prop :=
  ∀ (s : State) (reg : Byte) (buf : List Byte), ReferenceEnv s → InBounds reg buf.length →
    ∃ t, exec (.busWrite reg buf) s = .next t ∧
      CleanRun s t (.acq s.cfg.busCfg :: writeEvents s.cfg.devAddr reg buf ++ [.stop, .rel]) [0x00, 0x00] ∧
      t.trace.length = s.trace.length + (buf.length + 5) ∧
      StoredUpTo s.dev t.dev reg buf buf.length ∧
      (reg.toNat + buf.length < 256 → t.dev.ptr.toNat = reg.toNat + buf.length) ∧
      t.initState = s.initState ∧ t.hostEpoch = s.hostEpoch

/-- BUS_READ on the reference device (R58, R131, R139): `len + 6` events, all `Ok`, the response carries what the
registers hold, no register changes, the pointer is behind the last byte (R64). -/
def Obligations.BusReadOnReferenceDevice : Prop :=
  ∀ (s : State) (reg len : Byte), ReferenceEnv s → InBounds reg len.toNat →
    ∃ t, exec (.busRead reg len) s = .next t ∧
      CleanRun s t (.acq s.cfg.busCfg :: readEvents s.cfg.devAddr reg len.toNat ++ [.stop, .rel])
        (0x00 :: 0x00 :: regsFrom s.dev reg len.toNat) ∧
      t.trace.length = s.trace.length + (len.toNat + 6) ∧
      (∀ a, t.dev.regAt a = s.dev.regAt a) ∧
      (reg.toNat + len.toNat < 256 → t.dev.ptr.toNat = reg.toNat + len.toNat) ∧
      t.initState = s.initState ∧ t.hostEpoch = s.hostEpoch

/-- R133: in every environment, of the bytes a read receives each but the last of its `len` is acknowledged, and
that one is not. -/
def Obligations.ReadAcknowledgesAllButLast : Prop :=
  ∀ (s : State) (reg len : Byte), InBounds reg len.toNat →
    ∃ t evs, exec (.busRead reg len) s = .next t ∧ t.trace = s.trace ++ evs ∧
      ∀ (i : Nat) (ack : Bool),
        ((evs.map BusEvent.event).filter fun e => decide (∃ a, e = .rx a))[i]? = some (.rx ack) →
          i < len.toNat ∧ (ack = true ↔ i + 1 ≠ len.toNat)

/-- R137: the trace of every command releases the transport once for every acquire that answered `Ok`, in the same
transaction, and never otherwise; `bus_held` is false afterwards. -/
def Obligations.ReleasesWhatItAcquires : Prop :=
  ∀ (i : Instr) (s : State), s.busHeld = false →
    ∃ t evs, exec i s = .next t ∧ t.trace = s.trace ++ evs ∧ heldAfter false evs = some false ∧ t.busHeld = false

/-- R124: the address of every begin of every command is `P_DEV_ADDR`. -/
def Obligations.StartAddressIsParameter : Prop :=
  ∀ (i : Instr) (s : State), ∃ t evs, exec i s = .next t ∧ t.trace = s.trace ++ evs ∧
    ∀ e ∈ evs, ∀ a dir, e.event = .start a dir → a = s.cfg.devAddr

/-- Every event of every command is answered within its result type (R121; how an answer outside it is read is
log 4). -/
def Obligations.AnswersWithinResultTypes : Prop :=
  ∀ (i : Instr) (s : State), ∃ t evs, exec i s = .next t ∧ t.trace = s.trace ++ evs ∧
    ∀ e ∈ evs, match e.event with
      | .acq _ => e.result = .ok ∨ e.result = .fail .fault
      | .start _ _ => e.result = .ok ∨ ∃ f, e.result = .fail f
      | .tx _ => e.result = .ok ∨ ∃ f, e.result = .fail f
      | .rx _ => (∃ b, e.result = .okByte b) ∨ e.result = .fail .timeout ∨ e.result = .fail .arbLost ∨
          e.result = .fail .fault
      | .stop => e.result = .ok ∨ e.result = .fail .timeout ∨ e.result = .fail .fault
      | .rel => e.result = .ok ∨ e.result = .fail .fault

/-- The codes of the response (R105, R106, R121, R231), as numbers. -/
def Obligations.StatusAndCauseCodes : Prop :=
  [TpFailure.noAck, .timeout, .arbLost, .fault].map (fun f => (TpFailure.cause f).code) = [0x01, 0x02, 0x03, 0x04] ∧
  (∀ c : Cause, errorResponse (.busError c) = [0x01, c.code] ∧ errorResponse (.initError c) = [0x03, c.code]) ∧
  errorResponse .invalidDateTime = [0x02, 0x00] ∧ errorResponse .illegalCommand = [0xFF, 0x00]

/-! ## Initialisation -/

/-- BUS_WRITE, BUS_READ, ENCODE and DECODE neither read nor write `S.init_state`: started with any other value they
do the same and leave that value (R21, R66, R278). -/
def Obligations.CommandsIgnoringInitState : Prop :=
  ∀ (i : Instr) (s : State) (x : DeviceInitState),
    ((∃ reg buf, i = .busWrite reg buf) ∨ (∃ reg len, i = .busRead reg len) ∨ (∃ ct, i = .encodeTime ct) ∨
      (∃ img, i = .decodeTime img)) →
    ∃ t, exec i s = .next t ∧ t.initState = s.initState ∧
      exec i { s with initState := x } = .next { t with initState := x }

/-- ENSURE_INIT when Ready: `OK` whatever the mode, no event, nothing changed (R182, R187). -/
def Obligations.EnsureInitWhenReady : Prop :=
  ∀ (mode : Byte) (s : State), s.initState = .ready → exec (.ensureInit mode) s = .next (delivered s [0x00, 0x00])

/-- ENSURE_INIT from Uninitialized in every environment (R182 to R185): CONTROL_1 first, CONTROL_2 only after it,
`InitError` with the cause of the write that failed, Ready exactly when both went well; and what each write,
failed or not, leaves in the device: its byte or the old one, and no other register changed (R63, R184, R185). -/
def Obligations.EnsureInitRuns : Prop :=
  ∀ (mode : Byte) (s : State), s.initState = .uninitialized →
    ∃ t evs r, exec (.ensureInit mode) s = .next t ∧ CommandFrame s t ∧ t.hostEpoch = s.hostEpoch ∧
      t.trace = s.trace ++ evs ∧ InitRun s.cfg mode s.dev evs r t.dev ∧ t.initState = stateAfterInit r ∧
      t.responses = s.responses ++ [match r with
        | .ok _ => [0x00, 0x00]
        | .error c => [0x03, c.code]]

/-- ENSURE_INIT from Uninitialized on the reference device (R182): twelve events, CONTROL_1 is 0x00, CONTROL_2 the
masked mode, no other register changes, Ready. -/
def Obligations.EnsureInitOnReferenceDevice : Prop :=
  ∀ (mode : Byte) (s : State), ReferenceEnv s → s.cfg.ok = true → s.initState = .uninitialized →
    ∃ t, exec (.ensureInit mode) s = .next t ∧ CleanRun s t (initEvents s.cfg mode) [0x00, 0x00] ∧
      t.trace.length = s.trace.length + 12 ∧ t.initState = .ready ∧ t.hostEpoch = s.hostEpoch ∧
      t.dev.regAt s.cfg.addrControl1 = 0x00 ∧ t.dev.regAt s.cfg.addrControl2 = mode &&& 0x13 ∧
      ∀ a, a ≠ s.cfg.addrControl1 → a ≠ s.cfg.addrControl2 → t.dev.regAt a = s.dev.regAt a

/-- R189: the mask examples, as bytes sent to CONTROL_2, and modes with the same bits 4, 1, 0 do the same. -/
def Obligations.ModeMask : Prop :=
  (∀ (p : Byte × Byte) (s : State),
    p ∈ ([(0x00, 0x00), (0x01, 0x01), (0x02, 0x02), (0x10, 0x10), (0x13, 0x13), (0x1F, 0x13), (0xFF, 0x13), (0x0C, 0x00),
      (0xEC, 0x00), (0x04, 0x00)] : List (Byte × Byte)) →
    ReferenceEnv s → s.initState = .uninitialized →
    ∃ t, exec (.ensureInit p.1) s = .next t ∧ t.trace.map BusEvent.event = s.trace.map BusEvent.event ++
      [.acq s.cfg.busCfg, .start s.cfg.devAddr .write, .tx s.cfg.addrControl1, .tx 0x00, .stop, .rel,
       .acq s.cfg.busCfg, .start s.cfg.devAddr .write, .tx s.cfg.addrControl2, .tx p.2, .stop, .rel]) ∧
  ∀ (m m' : Byte) (s : State), m.getLsbD 4 = m'.getLsbD 4 → m.getLsbD 1 = m'.getLsbD 1 → m.getLsbD 0 = m'.getLsbD 0 →
    exec (.ensureInit m) s = exec (.ensureInit m') s

/-- `S.init_state` becomes Ready only by a command whose trace holds both configuration writes, each successful, in
order and before anything else (R180 to R182). -/
def Obligations.ReadyOnlyAfterBothWrites : Prop :=
  ∀ (i : Instr) (s t : State), exec i s = .next t → s.initState = .uninitialized → t.initState = .ready →
    ∃ mode evs1 evs2 rest bs bs', t.trace = s.trace ++ evs1 ++ evs2 ++ rest ∧
      TxnRun s.cfg.busCfg (writeEvents s.cfg.devAddr s.cfg.addrControl1 [0x00]) evs1 (.ok bs) ∧
      TxnRun s.cfg.busCfg (writeEvents s.cfg.devAddr s.cfg.addrControl2 [mode &&& 0x13]) evs2 (.ok bs')

/-- Ready is left by a reset and by nothing else, from every state and in both views of a command (R21, R180, R188,
R273). -/
def Obligations.ReadyIsSticky : Prop :=
  ∀ s t : State, step s = .next t → s.initState = .ready → (∀ rest, s.inbox ≠ .reset :: rest) → t.initState = .ready

/-! ## Time transfer -/

/-- GET_DATETIME in every environment (R195, R196, R198): the implicit initialisation, nothing when Ready; if it
fails, `InitError` and no burst; else one burst of seven bytes, the decoded bytes under `OK`, no payload
otherwise; Ready stays once reached. The registers are those the initialisation leaves; that reading changes
no register is the model's choice (log 10). -/
def Obligations.GetDateTimeRuns : Prop :=
  ∀ s : State, ∃ t evs q, exec .getDateTime s = .next t ∧ CommandFrame s t ∧ t.hostEpoch = s.hostEpoch ∧
    t.trace = s.trace ++ evs ∧
    TimeRun s (readEvents s.cfg.devAddr s.cfg.addrTimeBlock 7) ReadLeaves evs t.initState q t.dev ∧
    match q with
    | .ok bs => ∃ img, imageBytes img = bs ∧ t.responses = s.responses ++ [timeResponse img]
    | .error e => t.responses = s.responses ++ [errorResponse e]

/-- GET_DATETIME on the reference device (R196, R197): 13 events when Ready, 25 otherwise, the time that the seven
registers hold, no register changed but the two of the implicit initialisation. -/
def Obligations.GetDateTimeOnReferenceDevice : Prop :=
  ∀ s : State, ReferenceEnv s → s.cfg.ok = true →
    ∃ t, exec .getDateTime s = .next t ∧
      CleanRun s t (readyEvents s s.cfg.initModeDefault ++
          (.acq s.cfg.busCfg :: readEvents s.cfg.devAddr s.cfg.addrTimeBlock 7 ++ [.stop, .rel]))
        (timeResponse (imageAt s.dev s.cfg.addrTimeBlock)) ∧
      t.trace.length = s.trace.length + (match s.initState with | .ready => 13 | .uninitialized => 25) ∧
      t.initState = .ready ∧ t.hostEpoch = s.hostEpoch ∧
      ∀ a, t.dev.regAt a = initRegs s s.cfg.initModeDefault a

/-- SET_DATETIME of an invalid time, in either init state and whatever the environment: `InvalidDateTime`, no event,
nothing changed (R152, R200, R201, R241). -/
def Obligations.SetDateTimeInvalid : Prop :=
  ∀ (ct : CalendarTime) (s : State), ¬ Valid s.cfg.dayMax ct →
    exec (.setDateTime ct) s = .next (delivered s [0x02, 0x00])

/-- SET_DATETIME of a valid time in every environment (R195, R200, R202, R203): the implicit initialisation; if it
fails, `InitError`, no time-block event, the time registers unchanged; else one burst of the seven image bytes,
which, failed or not, leaves a prefix of them in the time block, as long as the acknowledged bytes or one more,
and no other register changed (R63). -/
def Obligations.SetDateTimeRuns : Prop :=
  ∀ (ct : CalendarTime) (s : State), Valid s.cfg.dayMax ct →
    ∃ t evs q, exec (.setDateTime ct) s = .next t ∧ CommandFrame s t ∧ t.hostEpoch = s.hostEpoch ∧
      t.trace = s.trace ++ evs ∧
      TimeRun s (writeEvents s.cfg.devAddr s.cfg.addrTimeBlock (digitImage ct))
        (WriteLeaves s.cfg.addrTimeBlock (digitImage ct)) evs t.initState q t.dev ∧
      t.responses = s.responses ++ [responseOf q fun _ => [0x00, 0x00]]

/-- SET_DATETIME of a valid time on the reference device (R200, R201): 12 events when Ready, 24 otherwise, the image in
the time block, no other register changed but the two of the implicit initialisation. -/
def Obligations.SetDateTimeOnReferenceDevice : Prop :=
  ∀ (ct : CalendarTime) (s : State), ReferenceEnv s → s.cfg.ok = true → Valid s.cfg.dayMax ct →
    ∃ t, exec (.setDateTime ct) s = .next t ∧
      CleanRun s t (readyEvents s s.cfg.initModeDefault ++
          (.acq s.cfg.busCfg :: writeEvents s.cfg.devAddr s.cfg.addrTimeBlock (digitImage ct) ++ [.stop, .rel]))
        [0x00, 0x00] ∧
      t.trace.length = s.trace.length + (match s.initState with | .ready => 12 | .uninitialized => 24) ∧
      t.initState = .ready ∧ t.hostEpoch = s.hostEpoch ∧
      ∀ a, t.dev.regAt a = if InBlock s.cfg.addrTimeBlock 7 a
        then (digitImage ct).getD (a.toNat - s.cfg.addrTimeBlock.toNat) 0
        else initRegs s s.cfg.initModeDefault a

/-- On the reference device SET_DATETIME `t` followed by GET_DATETIME returns `t` with the integrity flag clear, for
every valid `t` and from either init state (R203 item 6). -/
def Obligations.SetThenGetReturnsTime : Prop :=
  ∀ (ct : CalendarTime) (s : State), ReferenceEnv s → s.cfg.ok = true → Valid s.cfg.dayMax ct →
    ∃ t u, exec (.setDateTime ct) s = .next t ∧ exec .getDateTime t = .next u ∧
      u.responses = s.responses ++ [[0x00, 0x00], 0x00 :: 0x00 :: calendarBytes ct]

/-! ## Host clock -/

/-- SYNC_DEV_TO_HOST in every environment (R219): the host clock is set from the time read, also when the integrity
flag is set, which the response carries; it is not touched on any failure. The registers are those the
initialisation leaves; that reading changes no register is the model's choice (log 10). -/
def Obligations.SyncDevToHostRuns : Prop :=
  ∀ s : State, ∃ t evs q, exec .syncDevToHost s = .next t ∧ CommandFrame s t ∧ t.trace = s.trace ++ evs ∧
    TimeRun s (readEvents s.cfg.devAddr s.cfg.addrTimeBlock 7) ReadLeaves evs t.initState q t.dev ∧
    match q with
    | .ok bs => ∃ img, imageBytes img = bs ∧ t.hostEpoch = civilToEpoch s.cfg (timeValue img) ∧
        t.responses = s.responses ++ [[0x00, if 128 ≤ img.second.toNat then 1 else 0]]
    | .error e => t.hostEpoch = s.hostEpoch ∧ t.responses = s.responses ++ [errorResponse e]

/-- SYNC_DEV_TO_HOST on the reference device (R219). -/
def Obligations.SyncDevToHostOnReferenceDevice : Prop :=
  ∀ s : State, ReferenceEnv s → s.cfg.ok = true →
    ∃ t, exec .syncDevToHost s = .next t ∧
      CleanRun s t (readyEvents s s.cfg.initModeDefault ++
          (.acq s.cfg.busCfg :: readEvents s.cfg.devAddr s.cfg.addrTimeBlock 7 ++ [.stop, .rel]))
        [0x00, if 128 ≤ (s.dev.regAt s.cfg.addrTimeBlock).toNat then 1 else 0] ∧
      t.initState = .ready ∧
      t.hostEpoch = civilToEpoch s.cfg (timeValue (imageAt s.dev s.cfg.addrTimeBlock)) ∧
      ∀ a, t.dev.regAt a = initRegs s s.cfg.initModeDefault a

/-- SYNC_HOST_TO_DEV is SET_DATETIME of the host's broken-down time, in every environment (R222): so its errors are
those of SET_DATETIME, and a breakdown outside the bounds gives `InvalidDateTime` with no event. -/
def Obligations.SyncHostToDevSetsHostTime : Prop :=
  ∀ s : State,
    exec .syncHostToDev s = exec (.setDateTime (hostUtc s)) s.afterHostRead ∧
    (¬ Valid s.cfg.dayMax (hostUtc s) → exec .syncHostToDev s = .next (delivered s.afterHostRead [0x02, 0x00]))

/-- SYNC_HOST_TO_DEV on the reference device, for every breakdown within the bounds (R222). -/
def Obligations.SyncHostToDevOnReferenceDevice : Prop :=
  ∀ s : State, ReferenceEnv s → s.cfg.ok = true → Valid s.cfg.dayMax (hostUtc s) →
    ∃ t, exec .syncHostToDev s = .next t ∧
      CleanRun s t (readyEvents s s.cfg.initModeDefault ++
          (.acq s.cfg.busCfg :: writeEvents s.cfg.devAddr s.cfg.addrTimeBlock (digitImage (hostUtc s)) ++ [.stop, .rel]))
        [0x00, 0x00] ∧
      t.initState = .ready ∧ t.hostEpoch = s.hostEpoch ∧
      ∀ a, t.dev.regAt a = if InBlock s.cfg.addrTimeBlock 7 a
        then (digitImage (hostUtc s)).getD (a.toNat - s.cfg.addrTimeBlock.toNat) 0
        else initRegs s s.cfg.initModeDefault a

/-- On the reference device SYNC_HOST_TO_DEV followed at once by SYNC_DEV_TO_HOST leaves the host clock as it was
(R225), when the host's breakdown is canonical and is the one that R216's conversion takes back to the clock (the
premise the rule names: R216 "being the inverse of the host's own breakdown"; log 12). -/
def Obligations.HostClockRoundTrip : Prop :=
  ∀ s : State, ReferenceEnv s → s.cfg.ok = true → s.cfg.civil = .reference → Valid .d31 (hostUtc s) →
    civilReference (hostUtc s) = s.hostEpoch →
    ∃ t u, exec .syncHostToDev s = .next t ∧ exec .syncDevToHost t = .next u ∧
      u.hostEpoch = s.hostEpoch ∧ u.responses = s.responses ++ [[0x00, 0x00], [0x00, 0x00]]

/-- `civil_to_epoch` follows the calendar and the clock (R216). The day count: 1970-01-01 is day 0, each day of a
month follows the one before, each month the last day of the one before, each year 31 December. The seconds:
0 at 1970-01-01T00:00:00, and from every time to the next one second more, within a minute and across the end
of a minute, an hour, a day, a month and a year; the weekday does not matter. Within the canonical bounds
this is the conversion the reference host uses. The conversion is the spec's own mark "from general
knowledge" (log 12). -/
def Obligations.CivilDaysFollowCalendar : Prop :=
  civilDays 1970 1 1 = 0 ∧
  (∀ y m d : Int, 1 ≤ m → m ≤ 12 →
    civilDays y m (d + 1) = civilDays y m d + 1 ∧
    (m < 12 → civilDays y (m + 1) 1 = civilDays y m (monthDays y m) + 1) ∧
    civilDays (y + 1) 1 1 = civilDays y 12 31 + 1) ∧
  (∀ w : Int, civilReference ⟨0, 0, 0, 1, w, 1, 1970⟩ = 0) ∧
  (∀ s mi h d w w' m y : Int, 1 ≤ m → m ≤ 12 →
    civilReference ⟨s + 1, mi, h, d, w', m, y⟩ = civilReference ⟨s, mi, h, d, w, m, y⟩ + 1 ∧
    civilReference ⟨0, mi + 1, h, d, w', m, y⟩ = civilReference ⟨59, mi, h, d, w, m, y⟩ + 1 ∧
    civilReference ⟨0, 0, h + 1, d, w', m, y⟩ = civilReference ⟨59, 59, h, d, w, m, y⟩ + 1 ∧
    civilReference ⟨0, 0, 0, d + 1, w', m, y⟩ = civilReference ⟨59, 59, 23, d, w, m, y⟩ + 1 ∧
    (m < 12 → civilReference ⟨0, 0, 0, 1, w', m + 1, y⟩ =
      civilReference ⟨59, 59, 23, monthDays y m, w, m, y⟩ + 1) ∧
    civilReference ⟨0, 0, 0, 1, w', 1, y + 1⟩ = civilReference ⟨59, 59, 23, 31, w, 12, y⟩ + 1) ∧
  (∀ (cfg : Config) (ct : CalendarTime), cfg.civil = .reference → Valid .d31 ct →
    civilToEpoch cfg ct = civilReference ct)

/-! ## The whole machine -/

/-- Every command, from every state and in every environment, completes with exactly one response, an idle
controller, the parameters and the waiting inputs as they were; only SYNC_DEV_TO_HOST can change the host clock (R39,
R67, R104, R191, R242). That it completes rests on the assumption that every transport event is answered (R123,
R272), which the one-step form builds in (log 17), and for abstract commands outside the bounds of R55 on the
model's own verdict (log 13). -/
def Obligations.EveryCommandRespondsOnce : Prop :=
  ∀ (i : Instr) (s : State), ∃ t response, exec i s = .next t ∧ CommandFrame s t ∧
    t.responses = s.responses ++ [response] ∧ (i ≠ .syncDevToHost → t.hostEpoch = s.hostEpoch)

/-- Which result each command can return (R106, R232), and how long its payload is (R107). -/
def Obligations.ResponsesWithinMatrix : Prop :=
  ∀ (i : Instr) (s : State), i.WellFormed →
    ∃ t status aux payload, exec i s = .next t ∧ t.responses = s.responses ++ [status :: aux :: payload] ∧
      AllowedResult i status aux ∧ payload.length = if status = 0x00 then payloadLength i else 0

/-- No command stores outside the registers it names: every other register reads as before, whatever the environment
answers (R50, R61, R63, R202). That reading changes no register is log 10. -/
def Obligations.StoresOnlyWhereNamed : Prop :=
  ∀ (i : Instr) (s : State), s.cfg.ok = true →
    ∃ t, exec i s = .next t ∧ ∀ a, ¬ MayStore i s a → t.dev.regAt a = s.dev.regAt a

/-- `S.phase` moves along the paths of R191: IDLE stays; DECODE_CMD answers an illegal descriptor and goes on with the
command of a legal one; from there the next phase is the path's, by the test `S.init_state == Ready`, the test of
validity and the latched error; RESPOND ends in IDLE. `S.init_state` becomes Ready where the path says "set Ready"
and is otherwise as it was. The length of one tick is the model's reading (log 1). -/
def Obligations.PhaseFollowsPath : Prop :=
  ∀ s t : State, Coherent s → tick s = .next t →
    (s.phase = .idle → t = s) ∧
    (∀ bs, s.phase = .decodeCmd → s.desc = some bs →
      (¬ LegalDescriptor bs → t.phase = .respond ∧ t.cur = none ∧ t.regs.result = some (.err .illegalCommand)) ∧
      (∀ i, decode bs = .ok i → t.cur = some i ∧ t.phase = firstPhase i s.initState)) ∧
    (∀ i, s.cur = some i → s.phase ≠ .respond → t.cur = some i ∧ t.phase = nextPhase i s) ∧
    (s.phase = .respond → t.phase = .idle) ∧
    t.initState = if s.phase = .initC2 ∧ s.tphase = .done ∧ s.latched = none then .ready else s.initState

/-- Walked phase by phase and event by event, every presented descriptor, legal or not, ends in exactly the state in
which it ends when run as one step (R68), within 300 ticks; what one tick is, and so the bound, is the model's
reading (log 1). -/
def Obligations.PhasedRunIsAtomicRun : Prop :=
  ∀ (bs : List Byte) (s : State), ControllerIdle s →
    ∃ n, n ≤ 300 ∧ ticks n (accept bs s) = runDescriptor bs s

/-- The invariant at reset. It rests on the model's choices of the reset parameters (log 2) and of the latched error
(log 16). -/
def Obligations.InvariantAtReset : Prop := Inv State.reset

/-- Every step from a state that meets the invariant answers a next state that meets it: no fault and no refusal (R9,
R22, R24, R42). -/
def Obligations.StepKeepsInvariant : Prop := ∀ s : State, Inv s → ∃ t, step s = .next t ∧ Inv t

/-- Every step from every state, coherent or not, keeps the device's registers in canonical form, the model's way of
holding the 256 registers of R50 (log 7). -/
def Obligations.StepKeepsMemoryCanonical : Prop :=
  ∀ s t : State, step s = .next t → Memory.wf s.dev.regs = true → Memory.wf t.dev.regs = true

/-- The parameters never change (R8, R32). -/
def Obligations.ParametersNeverChange : Prop := ∀ s t : State, step s = .next t → t.cfg = s.cfg

/-- A tick that enters RESPOND leaves the result in `result` and in its own registers: the decoded CalendarTime of
GET_DATETIME and DECODE in `ct` with the image it came from in `img`, the image of ENCODE in `img`, the bytes of BUS_READ
in `buf` (R26 to R29); the tick is log 1. -/
def Obligations.ResultsStandInTheirRegisters : Prop :=
  ∀ s t : State, Coherent s → tick s = .next t → t.phase = .respond →
    match t.regs.result with
    | none => False
    | some (.err _) => True
    | some (.ok p) => ResultHeld p t.regs

/-- A per-command register, and a byte of `buf`, that no step of the command has written is never read as zero: the tick
that would read it faults under the register's name (R42; the tick, and that a read starts with no byte in `buf`, are
log 1). -/
def Obligations.UnwrittenRegisterFaults : Prop :=
  ∀ s : State,
    (s.phase = .decodeCmd → s.desc = none → tick s = .fault (.noValue .desc)) ∧
    (s.phase = .validate → s.cur.isSome → s.regs.ct = none → tick s = .fault (.noValue .ct)) ∧
    (s.phase = .respond → s.regs.result = none → tick s = .fault (.noValue .result)) ∧
    (s.phase = .initC1 → s.tphase = .done → s.latched = none → s.regs.mode = none → tick s = .fault (.noValue .mode)) ∧
    (∀ i, s.phase = .initC2 → s.tphase = .done → s.latched = none → s.cur = some i → s.regs.img = none →
      (i = .syncHostToDev ∨ ∃ ct, i = .setDateTime ct) → tick s = .fault (.noValue .img)) ∧
    (s.phase = .hostIo → s.cur = some .syncDevToHost → s.regs.ct = none → tick s = .fault (.noValue .ct)) ∧
    (s.phase = .initC1 ∨ s.phase = .initC2 ∨ (s.phase = .xfer ∧ s.cur.isSome) →
      (s.tphase = .reg → s.regs.reg = none → tick s = .fault (.noValue .reg)) ∧
      (∀ k, s.tphase = .dataTx k ∨ s.tphase = .dataRx k → s.regs.len = none → tick s = .fault (.noValue .len)) ∧
      (∀ k, s.tphase = .dataTx k → s.regs.len.isSome → s.regs.written.length ≤ k → tick s = .fault (.noValue .buf))) ∧
    (s.phase = .xfer → s.tphase = .done → s.latched = none → s.cur = some .getDateTime ∨ s.cur = some .syncDevToHost →
      s.regs.written.length < 7 → tick s = .fault (.noValue .buf)) ∧
    (∀ reg n len, s.phase = .xfer → s.tphase = .done → s.latched = none → s.cur = some (.busRead reg n) →
      s.regs.len = some len → s.regs.written.length < len.toNat → tick s = .fault (.noValue .buf))
end

