-- ==== Sys2Proof/Laws/Encoding.lean ====
section
/-! SUPPORT. The decoder against the encoder and against R108 stated on the bytes. -/

namespace Sys2Proof

open Machine

theorem opcodeOf_code (o : Opcode) : opcodeOf o.code = some o := by cases o <;> decide

theorem opcodeOf_some {b : Byte} {o : Opcode} (h : opcodeOf b = some o) : o.code = b := by
  have := List.find?_some h
  simpa using this

theorem checkBounds_ok {reg len : Byte} {i j : Instr} (h : checkBounds reg len i = .ok j) :
    j = i ∧ InBounds reg len.toNat := by
  simp only [checkBounds] at h
  split at h
  · cases h
  · split at h
    · cases h
    · cases h
      rename_i h0 h1
      have : len.toNat ≠ 0 := fun hh => h0 (BitVec.eq_of_toNat_eq (by simpa using hh))
      have := len.isLt
      exact ⟨rfl, by omega, by omega, by omega⟩

theorem checkBounds_of_inBounds {reg len : Byte} (i : Instr) (h : InBounds reg len.toNat) :
    checkBounds reg len i = .ok i := by
  obtain ⟨h1, -, h3⟩ := h
  have h0 : len ≠ 0 := by rintro rfl; simp at h1
  simp only [checkBounds, if_neg h0]
  rw [if_neg (by omega)]

theorem byteOfInt_toNat (b : Byte) : byteOfInt (b.toNat : Int) = b := by
  simp [byteOfInt]

theorem byteOfInt_calendar_year (lo hi : Byte) :
    byteOfInt ((lo.toNat : Int) + 256 * hi.toNat) = lo ∧
    byteOfInt (((lo.toNat : Int) + 256 * hi.toNat) / 256) = hi := by
  have h1 := lo.isLt
  have h2 := hi.isLt
  have e1 : ((lo.toNat : Int) + 256 * hi.toNat) = ((lo.toNat + 256 * hi.toNat : Nat) : Int) := by omega
  have e2 : ((lo.toNat : Int) + 256 * hi.toNat) / 256 = ((hi.toNat : Nat) : Int) := by omega
  constructor
  · rw [e1]
    apply BitVec.eq_of_toNat_eq
    simp [byteOfInt]
    omega
  · rw [e2, byteOfInt_toNat]

theorem calendarBytes_ofBytes (s m h d w mo yl yh : Byte) :
    calendarBytes (calendarOfBytes s m h d w mo yl yh) = [s, m, h, d, w, mo, yl, yh] := by
  obtain ⟨h1, h2⟩ := byteOfInt_calendar_year yl yh
  simp only [calendarBytes, calendarOfBytes, byteOfInt_toNat, h1, h2]

theorem calendarOfBytes_fits (s m h d w mo yl yh : Byte) : (calendarOfBytes s m h d w mo yl yh).FitsPort := by
  have := s.isLt; have := m.isLt; have := h.isLt; have := d.isLt
  have := w.isLt; have := mo.isLt; have := yl.isLt; have := yh.isLt
  simp only [CalendarTime.FitsPort, FitsByte, calendarOfBytes]
  omega

theorem byteOfInt_fits {v : Int} (h : 0 ≤ v ∧ v ≤ 255) : ((byteOfInt v).toNat : Int) = v := by
  simp only [byteOfInt, BitVec.toNat_ofInt]
  omega

/-- The eight bytes of a time that fits its ports give the time back (R102). -/
theorem calendarOfBytes_calendarBytes {ct : CalendarTime} (h : ct.FitsPort) :
    calendarOfBytes (byteOfInt ct.second) (byteOfInt ct.minute) (byteOfInt ct.hour) (byteOfInt ct.day)
      (byteOfInt ct.weekday) (byteOfInt ct.month) (byteOfInt ct.year) (byteOfInt (ct.year / 256)) = ct := by
  obtain ⟨h1, h2, h3, h4, h5, h6, h7, h8⟩ := h
  have hy : ((byteOfInt ct.year).toNat : Int) = ct.year % 256 := by
    simp only [byteOfInt, BitVec.toNat_ofInt]; omega
  have hy' := byteOfInt_fits (v := ct.year / 256) (by omega)
  cases ct
  simp only [calendarOfBytes, CalendarTime.mk.injEq] at *
  simp only [byteOfInt_fits h1, byteOfInt_fits h2, byteOfInt_fits h3, byteOfInt_fits h4, byteOfInt_fits h5,
    byteOfInt_fits h6, hy, hy', true_and]
  omega

theorem decodeCalendar_ok {op : Opcode} {build : CalendarTime → Instr} {bs : List Byte} {i : Instr}
    (h : decodeCalendar op build bs = .ok i) :
    ∃ ct, i = build ct ∧ ct.FitsPort ∧ calendarBytes ct = bs := by
  match bs, h with
  | [s, m, hh, d, w, mo, yl, yh], h =>
    cases h
    exact ⟨_, rfl, calendarOfBytes_fits _ _ _ _ _ _ _ _, calendarBytes_ofBytes _ _ _ _ _ _ _ _⟩

theorem decodeCalendar_calendarBytes (op : Opcode) (build : CalendarTime → Instr) {ct : CalendarTime}
    (h : ct.FitsPort) : decodeCalendar op build (calendarBytes ct) = .ok (build ct) := by
  simp only [decodeCalendar, calendarBytes, calendarOfBytes_calendarBytes h]

/-- What a descriptor that decodes is made of. -/
theorem decodeOperands_sound {o : Opcode} {bs : List Byte} {i : Instr} (h : decodeOperands o bs = .ok i) :
    i.opcode = o ∧ i.operandBytes = bs ∧ i.WellFormed := by
  cases o with
  | ensureInit =>
    match bs, h with
    | [mode], h => cases h; exact ⟨rfl, rfl, trivial⟩
  | getDateTime =>
    match bs, h with
    | [], h => cases h; exact ⟨rfl, rfl, trivial⟩
  | setDateTime =>
    obtain ⟨ct, rfl, hf, hb⟩ := decodeCalendar_ok h
    exact ⟨rfl, hb, hf⟩
  | syncDevToHost =>
    match bs, h with
    | [], h => cases h; exact ⟨rfl, rfl, trivial⟩
  | syncHostToDev =>
    match bs, h with
    | [], h => cases h; exact ⟨rfl, rfl, trivial⟩
  | busWrite =>
    match bs, h with
    | reg :: len :: buf, h =>
      simp only [decodeOperands, decodeBusWrite] at h
      split at h
      · rename_i hl
        obtain ⟨rfl, hb⟩ := checkBounds_ok h
        exact ⟨rfl, by simp [Instr.operandBytes, hl], by rw [← hl] at hb; exact hb⟩
      · cases h
  | busRead =>
    match bs, h with
    | [reg, len], h =>
      obtain ⟨rfl, hb⟩ := checkBounds_ok h
      exact ⟨rfl, rfl, hb⟩
  | encodeTime =>
    obtain ⟨ct, rfl, hf, hb⟩ := decodeCalendar_ok h
    exact ⟨rfl, hb, hf⟩
  | decodeTime =>
    match bs, h with
    | [i0, i1, i2, i3, i4, i5, i6], h => cases h; exact ⟨rfl, rfl, trivial⟩

theorem decode_wellFormed {bs : List Byte} {i : Instr} (h : decode bs = .ok i) : i.WellFormed := by
  cases bs with
  | nil => cases h
  | cons op rest =>
    simp only [decode] at h
    split at h
    · cases h
    · exact (decodeOperands_sound h).2.2

/-- The operands of a well-formed command decode to it. -/
theorem decodeOperands_operandBytes {i : Instr} (h : i.WellFormed) :
    decodeOperands i.opcode i.operandBytes = .ok i := by
  cases i with
  | ensureInit mode => rfl
  | getDateTime => rfl
  | setDateTime ct => exact decodeCalendar_calendarBytes .setDateTime .setDateTime h
  | syncDevToHost => rfl
  | syncHostToDev => rfl
  | busWrite reg buf =>
    have hb : InBounds reg buf.length := h
    have hl : buf.length = (BitVec.ofNat 8 buf.length).toNat := by
      rw [BitVec.toNat_ofNat, Nat.mod_eq_of_lt (by have := hb.2.1; omega)]
    simp only [Instr.opcode, Instr.operandBytes, decodeOperands, decodeBusWrite, if_pos hl]
    exact checkBounds_of_inBounds _ (by rw [← hl]; exact hb)
  | busRead reg len => exact checkBounds_of_inBounds _ h
  | encodeTime ct => exact decodeCalendar_calendarBytes .encodeTime .encodeTime h
  | decodeTime img => rfl

/-- What decodes is legal (R108). -/
theorem legal_of_decode {bs : List Byte} {i : Instr} (h : decode bs = .ok i) : LegalDescriptor bs := by
  have hw := decode_wellFormed h
  cases bs with
  | nil => cases h
  | cons op rest =>
    simp only [decode] at h
    split at h
    · cases h
    · rename_i o ho
      obtain ⟨h1, h2, -⟩ := decodeOperands_sound h
      rw [← opcodeOf_some ho, ← h1, ← h2]
      cases i with
      | busWrite reg buf =>
        have hb : InBounds reg buf.length := hw
        obtain ⟨b1, b2, b3⟩ := hb
        simp [LegalDescriptor, requiredLength, byteAt, Instr.opcode, Opcode.code, Instr.operandBytes]
        omega
      | busRead reg len =>
        have hb : InBounds reg len.toNat := hw
        obtain ⟨b1, b2, b3⟩ := hb
        simp [LegalDescriptor, requiredLength, byteAt, Instr.opcode, Opcode.code, Instr.operandBytes]
        omega
      | _ => simp [LegalDescriptor, requiredLength, byteAt, Instr.opcode, Opcode.code, Instr.operandBytes, calendarBytes, imageBytes]

/-- What is legal decodes (R108). -/
theorem decode_of_legal {bs : List Byte} (h : LegalDescriptor bs) : ∃ i, decode bs = .ok i := by
  cases bs with
  | nil => simp [LegalDescriptor, requiredLength] at h
  | cons op rest =>
    obtain ⟨hl, hb⟩ := h
    have bounds : ∀ (reg len : Byte) i, 1 ≤ len.toNat → reg.toNat + len.toNat ≤ 256 → ∃ j, checkBounds reg len i = .ok j := by
      intro reg len i h1 h2
      exact ⟨i, checkBounds_of_inBounds i ⟨h1, by have := len.isLt; omega, h2⟩⟩
    simp only [requiredLength, byteAt] at hl hb
    by_cases h1 : op = 0x01
    · subst h1; simp at hl; match rest, hl with | [m], _ => exact ⟨_, rfl⟩
    by_cases h2 : op = 0x02
    · subst h2; simp at hl; match rest, hl with | [], _ => exact ⟨_, rfl⟩
    by_cases h3 : op = 0x03
    · subst h3; simp at hl; match rest, hl with | [a,b,c,d,e,f,g,h], _ => exact ⟨_, rfl⟩
    by_cases h4 : op = 0x04
    · subst h4; simp at hl; match rest, hl with | [], _ => exact ⟨_, rfl⟩
    by_cases h5 : op = 0x05
    · subst h5; simp at hl; match rest, hl with | [], _ => exact ⟨_, rfl⟩
    by_cases h6 : op = 0x10
    · subst h6
      match rest, hl, hb with
      | [], hl, hb => simp at hl
      | [_], hl, hb => simp at hl
      | reg :: len :: buf, hl, hb =>
        simp at hl hb
        have : decode (0x10 :: reg :: len :: buf) = checkBounds reg len (.busWrite reg buf) := by
          have e : opcodeOf 0x10 = some .busWrite := by decide
          simp only [decode, e, decodeOperands, decodeBusWrite]
          rw [if_pos (by omega)]
        obtain ⟨j, hj⟩ := bounds reg len (.busWrite reg buf) (by omega) (by omega)
        exact ⟨j, this.trans hj⟩
    by_cases h7 : op = 0x11
    · subst h7; simp at hl
      match rest, hl, hb with
      | [reg, len], _, hb =>
        simp at hb
        exact bounds reg len (.busRead reg len) (by omega) (by omega)
    by_cases h8 : op = 0x20
    · subst h8; simp at hl; match rest, hl with | [a,b,c,d,e,f,g,h], _ => exact ⟨_, rfl⟩
    by_cases h9 : op = 0x21
    · subst h9; simp at hl; match rest, hl with | [a,b,c,d,e,f,g], _ => exact ⟨_, rfl⟩
    rw [if_neg h1, if_neg h2, if_neg h3, if_neg h4, if_neg h5, if_neg h6, if_neg h7, if_neg h8, if_neg h9] at hl; cases hl

end Sys2Proof
end

