-- ==== Sys2Proof/Laws/Memory.lean ====
section
/-! SUPPORT. The device's registers: read after write, and the canonical form kept by every memory
operation. -/

namespace Sys2Proof.Machine

/-- Read after write: the written address gives the value, every other one what it gave. -/
@[simp] theorem Memory.read_write (m : Memory) (a b : Nat) (v : Byte) :
    Memory.read (Memory.write m a v) b = if a = b then some v else Memory.read m b := by
  induction m with
  | nil => simp [Memory.write, Memory.read]
  | cons c rest ih =>
    obtain ⟨k, w⟩ := c
    simp only [Memory.write]
    split
    · simp [Memory.read]
    · split
      · subst_vars; by_cases h : k = b <;> simp [Memory.read, h]
      · by_cases h : k = b
        · subst h; simp [Memory.read, *]
        · simp [Memory.read, h, ih]

/-- Canonical from `lo` is canonical from anything lower. -/
theorem Memory.wfFrom_mono {m : Memory} {lo lo' : Nat} (h : lo' ≤ lo) (hm : Memory.wfFrom lo m = true) :
    Memory.wfFrom lo' m = true := by
  cases m with
  | nil => rfl
  | cons c rest =>
    obtain ⟨k, w⟩ := c
    simp only [Memory.wfFrom, Bool.and_eq_true, decide_eq_true_eq] at hm ⊢
    exact ⟨⟨by omega, hm.1.2⟩, hm.2⟩

/-- A write at or above `lo` keeps the form from `lo`. -/
theorem Memory.wfFrom_write {m : Memory} {lo a : Nat} (v : Byte) (hlo : lo ≤ a) (ha : a < 256)
    (hm : Memory.wfFrom lo m = true) : Memory.wfFrom lo (Memory.write m a v) = true := by
  induction m generalizing lo with
  | nil => simp [Memory.write, Memory.wfFrom, hlo, ha]
  | cons c rest ih =>
    obtain ⟨k, w⟩ := c
    simp only [Memory.wfFrom, Bool.and_eq_true, decide_eq_true_eq] at hm
    obtain ⟨⟨hk, hk'⟩, hrest⟩ := hm
    simp only [Memory.write]
    split
    · simp only [Memory.wfFrom, Bool.and_eq_true, decide_eq_true_eq]
      exact ⟨⟨hlo, ha⟩, ⟨by omega, hk'⟩, hrest⟩
    · split
      · subst_vars
        simp only [Memory.wfFrom, Bool.and_eq_true, decide_eq_true_eq]
        exact ⟨⟨hk, hk'⟩, hrest⟩
      · simp only [Memory.wfFrom, Bool.and_eq_true, decide_eq_true_eq]
        exact ⟨⟨hk, hk'⟩, ih (by omega) hrest⟩

/-- Every write at a register address keeps the canonical form. -/
theorem Memory.wf_write {m : Memory} (a v : Byte) (hm : Memory.wf m = true) :
    Memory.wf (Memory.write m a.toNat v) = true :=
  Memory.wfFrom_write v (Nat.zero_le _) a.isLt hm

/-- Reading a register after a write, through the device (R58). -/
theorem Device.regAt_write (d : Device) (a v b : Byte) :
    Device.regAt { d with regs := Memory.write d.regs a.toNat v } b =
      if a = b then v else Device.regAt d b := by
  simp only [Device.regAt, Memory.read_write]
  by_cases h : a = b
  · simp [h]
  · have : a.toNat ≠ b.toNat := fun hh => h (BitVec.eq_of_toNat_eq hh)
    simp [h, this]

theorem Device.regAt_congr {d d' : Device} (h : d'.regs = d.regs) (a : Byte) :
    Device.regAt d' a = Device.regAt d a := by
  simp only [Device.regAt, h]

/-- Every event keeps the canonical form. -/
theorem deviceEffect_wf (cfg : Config) (n : Nat) (d : Device) (e : TpEvent)
    (h : Memory.wf d.regs = true) : Memory.wf (deviceEffect cfg n d e).regs = true := by
  cases e with
  | start a dir => cases dir <;> simp only [deviceEffect] <;> split <;> exact h
  | tx b =>
    simp only [deviceEffect]
    split
    · split
      · exact h
      · exact Memory.wf_write _ _ h
    · exact h
  | rx ack => simp only [deviceEffect]; split <;> exact h
  | acq _ => exact h
  | stop => exact h
  | rel => exact h

end Sys2Proof.Machine
end

