-- ==== Sys2Proof/Laws/State.lean ====
section
/-! SUPPORT. One lemma per field per update of the state, each true by rfl. -/

namespace Sys2Proof.Machine

@[simp] theorem setBusHeld_cfg (v : Bool) (s : State) : (State.setBusHeld v s).cfg = s.cfg := rfl
@[simp] theorem setBusHeld_initState (v : Bool) (s : State) : (State.setBusHeld v s).initState = s.initState := rfl
@[simp] theorem setBusHeld_phase (v : Bool) (s : State) : (State.setBusHeld v s).phase = s.phase := rfl
@[simp] theorem setBusHeld_tphase (v : Bool) (s : State) : (State.setBusHeld v s).tphase = s.tphase := rfl
@[simp] theorem setBusHeld_busHeld (v : Bool) (s : State) : (State.setBusHeld v s).busHeld = v := rfl
@[simp] theorem setBusHeld_latched (v : Bool) (s : State) : (State.setBusHeld v s).latched = s.latched := rfl
@[simp] theorem setBusHeld_desc (v : Bool) (s : State) : (State.setBusHeld v s).desc = s.desc := rfl
@[simp] theorem setBusHeld_cur (v : Bool) (s : State) : (State.setBusHeld v s).cur = s.cur := rfl
@[simp] theorem setBusHeld_regs (v : Bool) (s : State) : (State.setBusHeld v s).regs = s.regs := rfl
@[simp] theorem setBusHeld_dev (v : Bool) (s : State) : (State.setBusHeld v s).dev = s.dev := rfl
@[simp] theorem setBusHeld_tpInstalled (v : Bool) (s : State) : (State.setBusHeld v s).tpInstalled = s.tpInstalled := rfl
@[simp] theorem setBusHeld_hostEpoch (v : Bool) (s : State) : (State.setBusHeld v s).hostEpoch = s.hostEpoch := rfl
@[simp] theorem setBusHeld_trace (v : Bool) (s : State) : (State.setBusHeld v s).trace = s.trace := rfl
@[simp] theorem setBusHeld_responses (v : Bool) (s : State) : (State.setBusHeld v s).responses = s.responses := rfl
@[simp] theorem setBusHeld_inbox (v : Bool) (s : State) : (State.setBusHeld v s).inbox = s.inbox := rfl
@[simp] theorem setBusHeld_env (v : Bool) (s : State) : (State.setBusHeld v s).env = s.env := rfl

@[simp] theorem setReady_cfg (s : State) : (State.setReady s).cfg = s.cfg := rfl
@[simp] theorem setReady_initState (s : State) : (State.setReady s).initState = .ready := rfl
@[simp] theorem setReady_phase (s : State) : (State.setReady s).phase = s.phase := rfl
@[simp] theorem setReady_tphase (s : State) : (State.setReady s).tphase = s.tphase := rfl
@[simp] theorem setReady_busHeld (s : State) : (State.setReady s).busHeld = s.busHeld := rfl
@[simp] theorem setReady_latched (s : State) : (State.setReady s).latched = s.latched := rfl
@[simp] theorem setReady_desc (s : State) : (State.setReady s).desc = s.desc := rfl
@[simp] theorem setReady_cur (s : State) : (State.setReady s).cur = s.cur := rfl
@[simp] theorem setReady_regs (s : State) : (State.setReady s).regs = s.regs := rfl
@[simp] theorem setReady_dev (s : State) : (State.setReady s).dev = s.dev := rfl
@[simp] theorem setReady_tpInstalled (s : State) : (State.setReady s).tpInstalled = s.tpInstalled := rfl
@[simp] theorem setReady_hostEpoch (s : State) : (State.setReady s).hostEpoch = s.hostEpoch := rfl
@[simp] theorem setReady_trace (s : State) : (State.setReady s).trace = s.trace := rfl
@[simp] theorem setReady_responses (s : State) : (State.setReady s).responses = s.responses := rfl
@[simp] theorem setReady_inbox (s : State) : (State.setReady s).inbox = s.inbox := rfl
@[simp] theorem setReady_env (s : State) : (State.setReady s).env = s.env := rfl

@[simp] theorem setHostEpoch_cfg (e : Int) (s : State) : (State.setHostEpoch e s).cfg = s.cfg := rfl
@[simp] theorem setHostEpoch_initState (e : Int) (s : State) : (State.setHostEpoch e s).initState = s.initState := rfl
@[simp] theorem setHostEpoch_phase (e : Int) (s : State) : (State.setHostEpoch e s).phase = s.phase := rfl
@[simp] theorem setHostEpoch_tphase (e : Int) (s : State) : (State.setHostEpoch e s).tphase = s.tphase := rfl
@[simp] theorem setHostEpoch_busHeld (e : Int) (s : State) : (State.setHostEpoch e s).busHeld = s.busHeld := rfl
@[simp] theorem setHostEpoch_latched (e : Int) (s : State) : (State.setHostEpoch e s).latched = s.latched := rfl
@[simp] theorem setHostEpoch_desc (e : Int) (s : State) : (State.setHostEpoch e s).desc = s.desc := rfl
@[simp] theorem setHostEpoch_cur (e : Int) (s : State) : (State.setHostEpoch e s).cur = s.cur := rfl
@[simp] theorem setHostEpoch_regs (e : Int) (s : State) : (State.setHostEpoch e s).regs = s.regs := rfl
@[simp] theorem setHostEpoch_dev (e : Int) (s : State) : (State.setHostEpoch e s).dev = s.dev := rfl
@[simp] theorem setHostEpoch_tpInstalled (e : Int) (s : State) : (State.setHostEpoch e s).tpInstalled = s.tpInstalled := rfl
@[simp] theorem setHostEpoch_hostEpoch (e : Int) (s : State) : (State.setHostEpoch e s).hostEpoch = e := rfl
@[simp] theorem setHostEpoch_trace (e : Int) (s : State) : (State.setHostEpoch e s).trace = s.trace := rfl
@[simp] theorem setHostEpoch_responses (e : Int) (s : State) : (State.setHostEpoch e s).responses = s.responses := rfl
@[simp] theorem setHostEpoch_inbox (e : Int) (s : State) : (State.setHostEpoch e s).inbox = s.inbox := rfl
@[simp] theorem setHostEpoch_env (e : Int) (s : State) : (State.setHostEpoch e s).env = s.env := rfl

@[simp] theorem afterHostRead_cfg (s : State) : (State.afterHostRead s).cfg = s.cfg := rfl
@[simp] theorem afterHostRead_initState (s : State) : (State.afterHostRead s).initState = s.initState := rfl
@[simp] theorem afterHostRead_phase (s : State) : (State.afterHostRead s).phase = s.phase := rfl
@[simp] theorem afterHostRead_tphase (s : State) : (State.afterHostRead s).tphase = s.tphase := rfl
@[simp] theorem afterHostRead_busHeld (s : State) : (State.afterHostRead s).busHeld = s.busHeld := rfl
@[simp] theorem afterHostRead_latched (s : State) : (State.afterHostRead s).latched = s.latched := rfl
@[simp] theorem afterHostRead_desc (s : State) : (State.afterHostRead s).desc = s.desc := rfl
@[simp] theorem afterHostRead_cur (s : State) : (State.afterHostRead s).cur = s.cur := rfl
@[simp] theorem afterHostRead_regs (s : State) : (State.afterHostRead s).regs = s.regs := rfl
@[simp] theorem afterHostRead_dev (s : State) : (State.afterHostRead s).dev = s.dev := rfl
@[simp] theorem afterHostRead_tpInstalled (s : State) : (State.afterHostRead s).tpInstalled = s.tpInstalled := rfl
@[simp] theorem afterHostRead_hostEpoch (s : State) : (State.afterHostRead s).hostEpoch = s.hostEpoch := rfl
@[simp] theorem afterHostRead_trace (s : State) : (State.afterHostRead s).trace = s.trace := rfl
@[simp] theorem afterHostRead_responses (s : State) : (State.afterHostRead s).responses = s.responses := rfl
@[simp] theorem afterHostRead_inbox (s : State) : (State.afterHostRead s).inbox = s.inbox := rfl
@[simp] theorem afterHostRead_env (s : State) : (State.afterHostRead s).env = { s.env with hostScript := s.env.hostScript.tail, hostReads := s.env.hostReads + 1 } := rfl

@[simp] theorem respond_cfg (r : Result) (s : State) : (respond r s).cfg = s.cfg := rfl
@[simp] theorem respond_initState (r : Result) (s : State) : (respond r s).initState = s.initState := rfl
@[simp] theorem respond_phase (r : Result) (s : State) : (respond r s).phase = .idle := rfl
@[simp] theorem respond_tphase (r : Result) (s : State) : (respond r s).tphase = .done := rfl
@[simp] theorem respond_busHeld (r : Result) (s : State) : (respond r s).busHeld = s.busHeld := rfl
@[simp] theorem respond_latched (r : Result) (s : State) : (respond r s).latched = none := rfl
@[simp] theorem respond_desc (r : Result) (s : State) : (respond r s).desc = none := rfl
@[simp] theorem respond_cur (r : Result) (s : State) : (respond r s).cur = none := rfl
@[simp] theorem respond_regs (r : Result) (s : State) : (respond r s).regs = CmdRegs.empty := rfl
@[simp] theorem respond_dev (r : Result) (s : State) : (respond r s).dev = s.dev := rfl
@[simp] theorem respond_tpInstalled (r : Result) (s : State) : (respond r s).tpInstalled = s.tpInstalled := rfl
@[simp] theorem respond_hostEpoch (r : Result) (s : State) : (respond r s).hostEpoch = s.hostEpoch := rfl
@[simp] theorem respond_trace (r : Result) (s : State) : (respond r s).trace = s.trace := rfl
@[simp] theorem respond_responses (r : Result) (s : State) : (respond r s).responses = s.responses ++ [r.response] := rfl
@[simp] theorem respond_inbox (r : Result) (s : State) : (respond r s).inbox = s.inbox := rfl
@[simp] theorem respond_env (r : Result) (s : State) : (respond r s).env = s.env := rfl

@[simp] theorem assertReset_cfg (s : State) : (State.assertReset s).cfg = s.cfg := rfl
@[simp] theorem assertReset_initState (s : State) : (State.assertReset s).initState = .uninitialized := rfl
@[simp] theorem assertReset_phase (s : State) : (State.assertReset s).phase = .idle := rfl
@[simp] theorem assertReset_tphase (s : State) : (State.assertReset s).tphase = .done := rfl
@[simp] theorem assertReset_busHeld (s : State) : (State.assertReset s).busHeld = false := rfl
@[simp] theorem assertReset_latched (s : State) : (State.assertReset s).latched = none := rfl
@[simp] theorem assertReset_desc (s : State) : (State.assertReset s).desc = none := rfl
@[simp] theorem assertReset_cur (s : State) : (State.assertReset s).cur = none := rfl
@[simp] theorem assertReset_regs (s : State) : (State.assertReset s).regs = CmdRegs.empty := rfl
@[simp] theorem assertReset_dev (s : State) : (State.assertReset s).dev = s.dev := rfl
@[simp] theorem assertReset_tpInstalled (s : State) : (State.assertReset s).tpInstalled = s.tpInstalled := rfl
@[simp] theorem assertReset_hostEpoch (s : State) : (State.assertReset s).hostEpoch = s.hostEpoch := rfl
@[simp] theorem assertReset_trace (s : State) : (State.assertReset s).trace = [] := rfl
@[simp] theorem assertReset_responses (s : State) : (State.assertReset s).responses = s.responses := rfl
@[simp] theorem assertReset_inbox (s : State) : (State.assertReset s).inbox = s.inbox := rfl
@[simp] theorem assertReset_env (s : State) : (State.assertReset s).env = s.env := rfl

@[simp] theorem afterEvent_cfg (e : TpEvent) (s : State) : (afterEvent e s).cfg = s.cfg := rfl
@[simp] theorem afterEvent_initState (e : TpEvent) (s : State) : (afterEvent e s).initState = s.initState := rfl
@[simp] theorem afterEvent_phase (e : TpEvent) (s : State) : (afterEvent e s).phase = s.phase := rfl
@[simp] theorem afterEvent_tphase (e : TpEvent) (s : State) : (afterEvent e s).tphase = s.tphase := rfl
@[simp] theorem afterEvent_busHeld (e : TpEvent) (s : State) : (afterEvent e s).busHeld = s.busHeld := rfl
@[simp] theorem afterEvent_latched (e : TpEvent) (s : State) : (afterEvent e s).latched = s.latched := rfl
@[simp] theorem afterEvent_desc (e : TpEvent) (s : State) : (afterEvent e s).desc = s.desc := rfl
@[simp] theorem afterEvent_cur (e : TpEvent) (s : State) : (afterEvent e s).cur = s.cur := rfl
@[simp] theorem afterEvent_regs (e : TpEvent) (s : State) : (afterEvent e s).regs = s.regs := rfl
@[simp] theorem afterEvent_dev (e : TpEvent) (s : State) : (afterEvent e s).dev = if takesEffect e (answerTo e s) s.env.draw then deviceEffect s.cfg s.env.events s.dev e else s.dev := rfl
@[simp] theorem afterEvent_tpInstalled (e : TpEvent) (s : State) : (afterEvent e s).tpInstalled = if takesEffect e (answerTo e s) s.env.draw then installedAfter s.tpInstalled e else s.tpInstalled := rfl
@[simp] theorem afterEvent_hostEpoch (e : TpEvent) (s : State) : (afterEvent e s).hostEpoch = s.hostEpoch := rfl
@[simp] theorem afterEvent_trace (e : TpEvent) (s : State) : (afterEvent e s).trace = s.trace ++ [⟨e, answerTo e s⟩] := rfl
@[simp] theorem afterEvent_responses (e : TpEvent) (s : State) : (afterEvent e s).responses = s.responses := rfl
@[simp] theorem afterEvent_inbox (e : TpEvent) (s : State) : (afterEvent e s).inbox = s.inbox := rfl
@[simp] theorem afterEvent_env (e : TpEvent) (s : State) : (afterEvent e s).env = s.env.afterEvent := rfl

@[simp] theorem setTPhase_cfg (p : TPhase) (s : State) : (setTPhase p s).cfg = s.cfg := rfl
@[simp] theorem setTPhase_initState (p : TPhase) (s : State) : (setTPhase p s).initState = s.initState := rfl
@[simp] theorem setTPhase_phase (p : TPhase) (s : State) : (setTPhase p s).phase = s.phase := rfl
@[simp] theorem setTPhase_tphase (p : TPhase) (s : State) : (setTPhase p s).tphase = p := rfl
@[simp] theorem setTPhase_busHeld (p : TPhase) (s : State) : (setTPhase p s).busHeld = s.busHeld := rfl
@[simp] theorem setTPhase_latched (p : TPhase) (s : State) : (setTPhase p s).latched = s.latched := rfl
@[simp] theorem setTPhase_desc (p : TPhase) (s : State) : (setTPhase p s).desc = s.desc := rfl
@[simp] theorem setTPhase_cur (p : TPhase) (s : State) : (setTPhase p s).cur = s.cur := rfl
@[simp] theorem setTPhase_regs (p : TPhase) (s : State) : (setTPhase p s).regs = s.regs := rfl
@[simp] theorem setTPhase_dev (p : TPhase) (s : State) : (setTPhase p s).dev = s.dev := rfl
@[simp] theorem setTPhase_tpInstalled (p : TPhase) (s : State) : (setTPhase p s).tpInstalled = s.tpInstalled := rfl
@[simp] theorem setTPhase_hostEpoch (p : TPhase) (s : State) : (setTPhase p s).hostEpoch = s.hostEpoch := rfl
@[simp] theorem setTPhase_trace (p : TPhase) (s : State) : (setTPhase p s).trace = s.trace := rfl
@[simp] theorem setTPhase_responses (p : TPhase) (s : State) : (setTPhase p s).responses = s.responses := rfl
@[simp] theorem setTPhase_inbox (p : TPhase) (s : State) : (setTPhase p s).inbox = s.inbox := rfl
@[simp] theorem setTPhase_env (p : TPhase) (s : State) : (setTPhase p s).env = s.env := rfl

@[simp] theorem setMode_cfg (m : Byte) (s : State) : (setMode m s).cfg = s.cfg := rfl
@[simp] theorem setMode_initState (m : Byte) (s : State) : (setMode m s).initState = s.initState := rfl
@[simp] theorem setMode_phase (m : Byte) (s : State) : (setMode m s).phase = s.phase := rfl
@[simp] theorem setMode_tphase (m : Byte) (s : State) : (setMode m s).tphase = s.tphase := rfl
@[simp] theorem setMode_busHeld (m : Byte) (s : State) : (setMode m s).busHeld = s.busHeld := rfl
@[simp] theorem setMode_latched (m : Byte) (s : State) : (setMode m s).latched = s.latched := rfl
@[simp] theorem setMode_desc (m : Byte) (s : State) : (setMode m s).desc = s.desc := rfl
@[simp] theorem setMode_cur (m : Byte) (s : State) : (setMode m s).cur = s.cur := rfl
@[simp] theorem setMode_regs (m : Byte) (s : State) : (setMode m s).regs = { s.regs with mode := some m } := rfl
@[simp] theorem setMode_dev (m : Byte) (s : State) : (setMode m s).dev = s.dev := rfl
@[simp] theorem setMode_tpInstalled (m : Byte) (s : State) : (setMode m s).tpInstalled = s.tpInstalled := rfl
@[simp] theorem setMode_hostEpoch (m : Byte) (s : State) : (setMode m s).hostEpoch = s.hostEpoch := rfl
@[simp] theorem setMode_trace (m : Byte) (s : State) : (setMode m s).trace = s.trace := rfl
@[simp] theorem setMode_responses (m : Byte) (s : State) : (setMode m s).responses = s.responses := rfl
@[simp] theorem setMode_inbox (m : Byte) (s : State) : (setMode m s).inbox = s.inbox := rfl
@[simp] theorem setMode_env (m : Byte) (s : State) : (setMode m s).env = s.env := rfl

@[simp] theorem setCt_cfg (ct : CalendarTime) (s : State) : (setCt ct s).cfg = s.cfg := rfl
@[simp] theorem setCt_initState (ct : CalendarTime) (s : State) : (setCt ct s).initState = s.initState := rfl
@[simp] theorem setCt_phase (ct : CalendarTime) (s : State) : (setCt ct s).phase = s.phase := rfl
@[simp] theorem setCt_tphase (ct : CalendarTime) (s : State) : (setCt ct s).tphase = s.tphase := rfl
@[simp] theorem setCt_busHeld (ct : CalendarTime) (s : State) : (setCt ct s).busHeld = s.busHeld := rfl
@[simp] theorem setCt_latched (ct : CalendarTime) (s : State) : (setCt ct s).latched = s.latched := rfl
@[simp] theorem setCt_desc (ct : CalendarTime) (s : State) : (setCt ct s).desc = s.desc := rfl
@[simp] theorem setCt_cur (ct : CalendarTime) (s : State) : (setCt ct s).cur = s.cur := rfl
@[simp] theorem setCt_regs (ct : CalendarTime) (s : State) : (setCt ct s).regs = { s.regs with ct := some ct } := rfl
@[simp] theorem setCt_dev (ct : CalendarTime) (s : State) : (setCt ct s).dev = s.dev := rfl
@[simp] theorem setCt_tpInstalled (ct : CalendarTime) (s : State) : (setCt ct s).tpInstalled = s.tpInstalled := rfl
@[simp] theorem setCt_hostEpoch (ct : CalendarTime) (s : State) : (setCt ct s).hostEpoch = s.hostEpoch := rfl
@[simp] theorem setCt_trace (ct : CalendarTime) (s : State) : (setCt ct s).trace = s.trace := rfl
@[simp] theorem setCt_responses (ct : CalendarTime) (s : State) : (setCt ct s).responses = s.responses := rfl
@[simp] theorem setCt_inbox (ct : CalendarTime) (s : State) : (setCt ct s).inbox = s.inbox := rfl
@[simp] theorem setCt_env (ct : CalendarTime) (s : State) : (setCt ct s).env = s.env := rfl

@[simp] theorem setImg_cfg (img : RegisterImage) (s : State) : (setImg img s).cfg = s.cfg := rfl
@[simp] theorem setImg_initState (img : RegisterImage) (s : State) : (setImg img s).initState = s.initState := rfl
@[simp] theorem setImg_phase (img : RegisterImage) (s : State) : (setImg img s).phase = s.phase := rfl
@[simp] theorem setImg_tphase (img : RegisterImage) (s : State) : (setImg img s).tphase = s.tphase := rfl
@[simp] theorem setImg_busHeld (img : RegisterImage) (s : State) : (setImg img s).busHeld = s.busHeld := rfl
@[simp] theorem setImg_latched (img : RegisterImage) (s : State) : (setImg img s).latched = s.latched := rfl
@[simp] theorem setImg_desc (img : RegisterImage) (s : State) : (setImg img s).desc = s.desc := rfl
@[simp] theorem setImg_cur (img : RegisterImage) (s : State) : (setImg img s).cur = s.cur := rfl
@[simp] theorem setImg_regs (img : RegisterImage) (s : State) : (setImg img s).regs = { s.regs with img := some img } := rfl
@[simp] theorem setImg_dev (img : RegisterImage) (s : State) : (setImg img s).dev = s.dev := rfl
@[simp] theorem setImg_tpInstalled (img : RegisterImage) (s : State) : (setImg img s).tpInstalled = s.tpInstalled := rfl
@[simp] theorem setImg_hostEpoch (img : RegisterImage) (s : State) : (setImg img s).hostEpoch = s.hostEpoch := rfl
@[simp] theorem setImg_trace (img : RegisterImage) (s : State) : (setImg img s).trace = s.trace := rfl
@[simp] theorem setImg_responses (img : RegisterImage) (s : State) : (setImg img s).responses = s.responses := rfl
@[simp] theorem setImg_inbox (img : RegisterImage) (s : State) : (setImg img s).inbox = s.inbox := rfl
@[simp] theorem setImg_env (img : RegisterImage) (s : State) : (setImg img s).env = s.env := rfl

/-- Reading `buf` when all its bytes are written (R42). -/
theorem needBytes_written {n : Nat} {r : CmdRegs} {bs : Received n} (h : r.written = bs.1) (k : Received n → Tick) :
    needBytes n r k = k bs := by
  simp only [needBytes, h, bs.2, dite_true]

/-- Reading `buf` when some byte is not written (R42). -/
theorem needBytes_unwritten {n : Nat} {r : CmdRegs} (h : r.written.length ≠ n) (k : Received n → Tick) :
    needBytes n r k = .fault (.noValue .buf) := by
  rw [needBytes, dif_neg h]

/-- A read of `buf` that goes on has all its bytes. -/
theorem needBytes_next {n : Nat} {r : CmdRegs} {k : Received n → Tick} {t : State} (h : needBytes n r k = .next t) :
    ∃ bs : Received n, bs.1 = r.written ∧ k bs = .next t := by
  simp only [needBytes] at h
  split at h
  · exact ⟨_, rfl, h⟩
  · cases h

@[simp] theorem takeByte_cfg (b : Byte) (s : State) : (takeByte b s).cfg = s.cfg := rfl
@[simp] theorem takeByte_initState (b : Byte) (s : State) : (takeByte b s).initState = s.initState := rfl
@[simp] theorem takeByte_phase (b : Byte) (s : State) : (takeByte b s).phase = s.phase := rfl
@[simp] theorem takeByte_tphase (b : Byte) (s : State) : (takeByte b s).tphase = s.tphase := rfl
@[simp] theorem takeByte_busHeld (b : Byte) (s : State) : (takeByte b s).busHeld = s.busHeld := rfl
@[simp] theorem takeByte_latched (b : Byte) (s : State) : (takeByte b s).latched = s.latched := rfl
@[simp] theorem takeByte_desc (b : Byte) (s : State) : (takeByte b s).desc = s.desc := rfl
@[simp] theorem takeByte_cur (b : Byte) (s : State) : (takeByte b s).cur = s.cur := rfl
@[simp] theorem takeByte_regs (b : Byte) (s : State) : (takeByte b s).regs = { s.regs with buf := some (s.regs.written ++ [b]) } := rfl
@[simp] theorem takeByte_dev (b : Byte) (s : State) : (takeByte b s).dev = s.dev := rfl
@[simp] theorem takeByte_tpInstalled (b : Byte) (s : State) : (takeByte b s).tpInstalled = s.tpInstalled := rfl
@[simp] theorem takeByte_hostEpoch (b : Byte) (s : State) : (takeByte b s).hostEpoch = s.hostEpoch := rfl
@[simp] theorem takeByte_trace (b : Byte) (s : State) : (takeByte b s).trace = s.trace := rfl
@[simp] theorem takeByte_responses (b : Byte) (s : State) : (takeByte b s).responses = s.responses := rfl
@[simp] theorem takeByte_inbox (b : Byte) (s : State) : (takeByte b s).inbox = s.inbox := rfl
@[simp] theorem takeByte_env (b : Byte) (s : State) : (takeByte b s).env = s.env := rfl

@[simp] theorem toRespond_cfg (r : Result) (s : State) : (toRespond r s).cfg = s.cfg := rfl
@[simp] theorem toRespond_initState (r : Result) (s : State) : (toRespond r s).initState = s.initState := rfl
@[simp] theorem toRespond_phase (r : Result) (s : State) : (toRespond r s).phase = .respond := rfl
@[simp] theorem toRespond_tphase (r : Result) (s : State) : (toRespond r s).tphase = s.tphase := rfl
@[simp] theorem toRespond_busHeld (r : Result) (s : State) : (toRespond r s).busHeld = s.busHeld := rfl
@[simp] theorem toRespond_latched (r : Result) (s : State) : (toRespond r s).latched = s.latched := rfl
@[simp] theorem toRespond_desc (r : Result) (s : State) : (toRespond r s).desc = s.desc := rfl
@[simp] theorem toRespond_cur (r : Result) (s : State) : (toRespond r s).cur = s.cur := rfl
@[simp] theorem toRespond_regs (r : Result) (s : State) : (toRespond r s).regs = { s.regs with result := some r } := rfl
@[simp] theorem toRespond_dev (r : Result) (s : State) : (toRespond r s).dev = s.dev := rfl
@[simp] theorem toRespond_tpInstalled (r : Result) (s : State) : (toRespond r s).tpInstalled = s.tpInstalled := rfl
@[simp] theorem toRespond_hostEpoch (r : Result) (s : State) : (toRespond r s).hostEpoch = s.hostEpoch := rfl
@[simp] theorem toRespond_trace (r : Result) (s : State) : (toRespond r s).trace = s.trace := rfl
@[simp] theorem toRespond_responses (r : Result) (s : State) : (toRespond r s).responses = s.responses := rfl
@[simp] theorem toRespond_inbox (r : Result) (s : State) : (toRespond r s).inbox = s.inbox := rfl
@[simp] theorem toRespond_env (r : Result) (s : State) : (toRespond r s).env = s.env := rfl

@[simp] theorem startTransaction_cfg (p : Phase) (reg len : Byte) (buf : Option (List Byte)) (s : State) : (startTransaction p reg len buf s).cfg = s.cfg := rfl
@[simp] theorem startTransaction_initState (p : Phase) (reg len : Byte) (buf : Option (List Byte)) (s : State) : (startTransaction p reg len buf s).initState = s.initState := rfl
@[simp] theorem startTransaction_phase (p : Phase) (reg len : Byte) (buf : Option (List Byte)) (s : State) : (startTransaction p reg len buf s).phase = p := rfl
@[simp] theorem startTransaction_tphase (p : Phase) (reg len : Byte) (buf : Option (List Byte)) (s : State) : (startTransaction p reg len buf s).tphase = .acq := rfl
@[simp] theorem startTransaction_busHeld (p : Phase) (reg len : Byte) (buf : Option (List Byte)) (s : State) : (startTransaction p reg len buf s).busHeld = s.busHeld := rfl
@[simp] theorem startTransaction_latched (p : Phase) (reg len : Byte) (buf : Option (List Byte)) (s : State) : (startTransaction p reg len buf s).latched = none := rfl
@[simp] theorem startTransaction_desc (p : Phase) (reg len : Byte) (buf : Option (List Byte)) (s : State) : (startTransaction p reg len buf s).desc = s.desc := rfl
@[simp] theorem startTransaction_cur (p : Phase) (reg len : Byte) (buf : Option (List Byte)) (s : State) : (startTransaction p reg len buf s).cur = s.cur := rfl
@[simp] theorem startTransaction_regs (p : Phase) (reg len : Byte) (buf : Option (List Byte)) (s : State) : (startTransaction p reg len buf s).regs = { s.regs with reg := some reg, len := some len, buf := buf } := rfl
@[simp] theorem startTransaction_dev (p : Phase) (reg len : Byte) (buf : Option (List Byte)) (s : State) : (startTransaction p reg len buf s).dev = s.dev := rfl
@[simp] theorem startTransaction_tpInstalled (p : Phase) (reg len : Byte) (buf : Option (List Byte)) (s : State) : (startTransaction p reg len buf s).tpInstalled = s.tpInstalled := rfl
@[simp] theorem startTransaction_hostEpoch (p : Phase) (reg len : Byte) (buf : Option (List Byte)) (s : State) : (startTransaction p reg len buf s).hostEpoch = s.hostEpoch := rfl
@[simp] theorem startTransaction_trace (p : Phase) (reg len : Byte) (buf : Option (List Byte)) (s : State) : (startTransaction p reg len buf s).trace = s.trace := rfl
@[simp] theorem startTransaction_responses (p : Phase) (reg len : Byte) (buf : Option (List Byte)) (s : State) : (startTransaction p reg len buf s).responses = s.responses := rfl
@[simp] theorem startTransaction_inbox (p : Phase) (reg len : Byte) (buf : Option (List Byte)) (s : State) : (startTransaction p reg len buf s).inbox = s.inbox := rfl
@[simp] theorem startTransaction_env (p : Phase) (reg len : Byte) (buf : Option (List Byte)) (s : State) : (startTransaction p reg len buf s).env = s.env := rfl

@[simp] theorem accept_cfg (d : List Byte) (s : State) : (accept d s).cfg = s.cfg := rfl
@[simp] theorem accept_initState (d : List Byte) (s : State) : (accept d s).initState = s.initState := rfl
@[simp] theorem accept_phase (d : List Byte) (s : State) : (accept d s).phase = .decodeCmd := rfl
@[simp] theorem accept_tphase (d : List Byte) (s : State) : (accept d s).tphase = s.tphase := rfl
@[simp] theorem accept_busHeld (d : List Byte) (s : State) : (accept d s).busHeld = s.busHeld := rfl
@[simp] theorem accept_latched (d : List Byte) (s : State) : (accept d s).latched = s.latched := rfl
@[simp] theorem accept_desc (d : List Byte) (s : State) : (accept d s).desc = some d := rfl
@[simp] theorem accept_cur (d : List Byte) (s : State) : (accept d s).cur = s.cur := rfl
@[simp] theorem accept_regs (d : List Byte) (s : State) : (accept d s).regs = s.regs := rfl
@[simp] theorem accept_dev (d : List Byte) (s : State) : (accept d s).dev = s.dev := rfl
@[simp] theorem accept_tpInstalled (d : List Byte) (s : State) : (accept d s).tpInstalled = s.tpInstalled := rfl
@[simp] theorem accept_hostEpoch (d : List Byte) (s : State) : (accept d s).hostEpoch = s.hostEpoch := rfl
@[simp] theorem accept_trace (d : List Byte) (s : State) : (accept d s).trace = s.trace := rfl
@[simp] theorem accept_responses (d : List Byte) (s : State) : (accept d s).responses = s.responses := rfl
@[simp] theorem accept_inbox (d : List Byte) (s : State) : (accept d s).inbox = s.inbox := rfl
@[simp] theorem accept_env (d : List Byte) (s : State) : (accept d s).env = s.env := rfl

@[simp] theorem changeDevice_cfg (a v : Byte) (s : State) : (changeDevice a v s).cfg = s.cfg := rfl
@[simp] theorem changeDevice_initState (a v : Byte) (s : State) : (changeDevice a v s).initState = s.initState := rfl
@[simp] theorem changeDevice_phase (a v : Byte) (s : State) : (changeDevice a v s).phase = s.phase := rfl
@[simp] theorem changeDevice_tphase (a v : Byte) (s : State) : (changeDevice a v s).tphase = s.tphase := rfl
@[simp] theorem changeDevice_busHeld (a v : Byte) (s : State) : (changeDevice a v s).busHeld = s.busHeld := rfl
@[simp] theorem changeDevice_latched (a v : Byte) (s : State) : (changeDevice a v s).latched = s.latched := rfl
@[simp] theorem changeDevice_desc (a v : Byte) (s : State) : (changeDevice a v s).desc = s.desc := rfl
@[simp] theorem changeDevice_cur (a v : Byte) (s : State) : (changeDevice a v s).cur = s.cur := rfl
@[simp] theorem changeDevice_regs (a v : Byte) (s : State) : (changeDevice a v s).regs = s.regs := rfl
@[simp] theorem changeDevice_dev (a v : Byte) (s : State) : (changeDevice a v s).dev = { s.dev with regs := Memory.write s.dev.regs a.toNat v } := rfl
@[simp] theorem changeDevice_tpInstalled (a v : Byte) (s : State) : (changeDevice a v s).tpInstalled = s.tpInstalled := rfl
@[simp] theorem changeDevice_hostEpoch (a v : Byte) (s : State) : (changeDevice a v s).hostEpoch = s.hostEpoch := rfl
@[simp] theorem changeDevice_trace (a v : Byte) (s : State) : (changeDevice a v s).trace = s.trace := rfl
@[simp] theorem changeDevice_responses (a v : Byte) (s : State) : (changeDevice a v s).responses = s.responses := rfl
@[simp] theorem changeDevice_inbox (a v : Byte) (s : State) : (changeDevice a v s).inbox = s.inbox := rfl
@[simp] theorem changeDevice_env (a v : Byte) (s : State) : (changeDevice a v s).env = s.env := rfl

@[simp] theorem advanceHost_cfg (n : Nat) (s : State) : (advanceHost n s).cfg = s.cfg := rfl
@[simp] theorem advanceHost_initState (n : Nat) (s : State) : (advanceHost n s).initState = s.initState := rfl
@[simp] theorem advanceHost_phase (n : Nat) (s : State) : (advanceHost n s).phase = s.phase := rfl
@[simp] theorem advanceHost_tphase (n : Nat) (s : State) : (advanceHost n s).tphase = s.tphase := rfl
@[simp] theorem advanceHost_busHeld (n : Nat) (s : State) : (advanceHost n s).busHeld = s.busHeld := rfl
@[simp] theorem advanceHost_latched (n : Nat) (s : State) : (advanceHost n s).latched = s.latched := rfl
@[simp] theorem advanceHost_desc (n : Nat) (s : State) : (advanceHost n s).desc = s.desc := rfl
@[simp] theorem advanceHost_cur (n : Nat) (s : State) : (advanceHost n s).cur = s.cur := rfl
@[simp] theorem advanceHost_regs (n : Nat) (s : State) : (advanceHost n s).regs = s.regs := rfl
@[simp] theorem advanceHost_dev (n : Nat) (s : State) : (advanceHost n s).dev = s.dev := rfl
@[simp] theorem advanceHost_tpInstalled (n : Nat) (s : State) : (advanceHost n s).tpInstalled = s.tpInstalled := rfl
@[simp] theorem advanceHost_hostEpoch (n : Nat) (s : State) : (advanceHost n s).hostEpoch = s.hostEpoch + n := rfl
@[simp] theorem advanceHost_trace (n : Nat) (s : State) : (advanceHost n s).trace = s.trace := rfl
@[simp] theorem advanceHost_responses (n : Nat) (s : State) : (advanceHost n s).responses = s.responses := rfl
@[simp] theorem advanceHost_inbox (n : Nat) (s : State) : (advanceHost n s).inbox = s.inbox := rfl
@[simp] theorem advanceHost_env (n : Nat) (s : State) : (advanceHost n s).env = s.env := rfl

/-- An error is delivered like any other result (R242). -/
theorem raiseError_eq (e : CmdError) (s : State) : raiseError e s = respond (.err e) s := rfl

@[simp] theorem complete_ok (p : Payload) (s : State) : complete (.ok p, s) = respond (.ok p) s := rfl
@[simp] theorem complete_error (e : CmdError) (s : State) : complete (.error e, s) = respond (.err e) s := rfl

@[simp] theorem afterEvent_env_mode (e : TpEvent) (s : State) : (afterEvent e s).env.mode = s.env.mode := rfl
@[simp] theorem afterEvent_env_script (e : TpEvent) (s : State) : (afterEvent e s).env.script = s.env.script.tail := rfl

end Sys2Proof.Machine
end

