-- ==== Sys2Proof/Laws/Events.lean ====
section
/-! SUPPORT. What one transport event can do: its answer is of its result type (R121), it changes
only the trace, the device, the transport and the environment; what `send` and `recv` answer. -/

namespace Sys2Proof.Machine

/-! ## Answers -/

/-- A failing answer is one the event may give (R121). -/
theorem answer_mayFail {cfg : Config} {d : Device} {e : TpEvent} {w : Draw} {f : TpFailure}
    (h : answer cfg d e w = .fail f) : e.mayFail f = true := by
  cases w with
  | asReference =>
    cases e with
    | start a dir => rfl
    | _ => cases h
  | ok b => cases e <;> cases h
  | fail g lands =>
    simp only [answer] at h
    split at h
    · cases h; assumption
    · cases h; cases e <;> rfl

/-- Only an `RX` answers with a byte, and a good `RX` always does (R121). -/
theorem answer_ok_form (cfg : Config) (d : Device) (e : TpEvent) (w : Draw) :
    (∃ f, answer cfg d e w = .fail f) ∨
    (∃ ack b, e = .rx ack ∧ answer cfg d e w = .okByte b) ∨
    ((∀ ack, e ≠ .rx ack) ∧ answer cfg d e w = .ok) := by
  cases w with
  | asReference =>
    cases e <;> simp [answer, refAnswer]
    rename_i a dir
    by_cases h : a = cfg.devAddr <;> simp [h]
  | ok b => cases e <;> simp [answer]
  | fail g lands => left; simp only [answer]; split <;> exact ⟨_, rfl⟩

/-- `send` of an event that is no `RX`: `Ok`, or a failure of its result type. -/
theorem send_cases (e : TpEvent) (s : State) (he : ∀ ack, e ≠ .rx ack) :
    (answerTo e s = .ok ∧ send e s = (.ok (), afterEvent e s)) ∨
    (∃ f, answerTo e s = .fail f ∧ e.mayFail f = true ∧ send e s = (.error f, afterEvent e s)) := by
  rcases answer_ok_form s.cfg s.dev e s.env.draw with ⟨f, h⟩ | ⟨ack, b, h, -⟩ | ⟨-, h⟩
  · right
    exact ⟨f, h, answer_mayFail h, by simp [send, answerTo, h]⟩
  · exact absurd h (he ack)
  · left
    exact ⟨h, by simp [send, answerTo, h]⟩

/-- `recv`: a byte, or a failure an `RX` may answer. -/
theorem recv_cases (ack : Bool) (s : State) :
    (∃ b, answerTo (.rx ack) s = .okByte b ∧ recv ack s = (.ok b, afterEvent (.rx ack) s)) ∨
    (∃ f, answerTo (.rx ack) s = .fail f ∧ TpEvent.mayFail (.rx ack) f = true ∧
      recv ack s = (.error f, afterEvent (.rx ack) s)) := by
  rcases answer_ok_form s.cfg s.dev (.rx ack) s.env.draw with ⟨f, h⟩ | ⟨a, b, -, h⟩ | ⟨h, -⟩
  · right
    exact ⟨f, h, answer_mayFail h, by simp [recv, answerTo, h]⟩
  · left
    exact ⟨b, h, by simp [recv, answerTo, h]⟩
  · exact absurd rfl (h ack)

@[simp] theorem send_snd (e : TpEvent) (s : State) : (send e s).2 = afterEvent e s := by
  simp only [send]; split <;> rfl

@[simp] theorem recv_snd (ack : Bool) (s : State) : (recv ack s).2 = afterEvent (.rx ack) s := by
  simp only [recv]; split <;> rfl

/-- An event that answered `Ok` took effect. -/
theorem takesEffect_ok (e : TpEvent) (w : Draw) : takesEffect e .ok w = true := rfl
theorem takesEffect_okByte (e : TpEvent) (b : Byte) (w : Draw) : takesEffect e (.okByte b) w = true := rfl

/-- A failing begin or acquire leaves the device as it was (R136, R140 item 6). -/
theorem takesEffect_start (a : Addr7) (dir : Dir) (f : TpFailure) (w : Draw) :
    takesEffect (.start a dir) (.fail f) w = false := by
  cases w <;> rfl

theorem takesEffect_acq (c : BusCfg) (f : TpFailure) (w : Draw) :
    takesEffect (.acq c) (.fail f) w = false := by
  cases w <;> rfl

/-! ## The frame of events -/

/-- What no event touches: everything but `bus_held`, the trace, the device, the transport and the
environment's script and event count. -/
structure EventFrame (s t : State) : Prop where
  cfg        : t.cfg = s.cfg
  initState  : t.initState = s.initState
  phase      : t.phase = s.phase
  tphase     : t.tphase = s.tphase
  latched    : t.latched = s.latched
  desc       : t.desc = s.desc
  cur        : t.cur = s.cur
  regs       : t.regs = s.regs
  hostEpoch  : t.hostEpoch = s.hostEpoch
  responses  : t.responses = s.responses
  inbox      : t.inbox = s.inbox
  mode       : t.env.mode = s.env.mode
  hostScript : t.env.hostScript = s.env.hostScript
  hostReads  : t.env.hostReads = s.env.hostReads

theorem EventFrame.refl (s : State) : EventFrame s s := by constructor <;> rfl

theorem EventFrame.trans {s t u : State} (h : EventFrame s t) (k : EventFrame t u) : EventFrame s u := by
  constructor
  · exact k.cfg.trans h.cfg
  · exact k.initState.trans h.initState
  · exact k.phase.trans h.phase
  · exact k.tphase.trans h.tphase
  · exact k.latched.trans h.latched
  · exact k.desc.trans h.desc
  · exact k.cur.trans h.cur
  · exact k.regs.trans h.regs
  · exact k.hostEpoch.trans h.hostEpoch
  · exact k.responses.trans h.responses
  · exact k.inbox.trans h.inbox
  · exact k.mode.trans h.mode
  · exact k.hostScript.trans h.hostScript
  · exact k.hostReads.trans h.hostReads

theorem afterEvent_eventFrame (e : TpEvent) (s : State) : EventFrame s (afterEvent e s) := by
  constructor <;> rfl

theorem setBusHeld_eventFrame (v : Bool) (s : State) : EventFrame s (s.setBusHeld v) := by
  constructor <;> rfl

/-- Events keep the device's registers in canonical form. -/
theorem afterEvent_wf (e : TpEvent) (s : State) (h : Memory.wf s.dev.regs = true) :
    Memory.wf (afterEvent e s).dev.regs = true := by
  simp only [afterEvent_dev]
  split
  · exact deviceEffect_wf _ _ _ _ h
  · exact h

/-! ## The reference environment -/

/-- The next draw of a reference environment is the reference device's (R58). -/
theorem ReferenceEnv.draw {s : State} (h : ReferenceEnv s) : s.env.draw = .asReference := by
  simp [Env.draw, h.script, h.mode]

theorem ReferenceEnv.afterEvent {s : State} (h : ReferenceEnv s) (e : TpEvent) :
    ReferenceEnv (afterEvent e s) :=
  ⟨h.mode, by rw [afterEvent_env_script, h.script]; rfl⟩

theorem ReferenceEnv.setBusHeld {s : State} (h : ReferenceEnv s) (v : Bool) :
    ReferenceEnv (s.setBusHeld v) := ⟨h.mode, h.script⟩

theorem ReferenceEnv.answerTo {s : State} (h : ReferenceEnv s) (e : TpEvent) :
    answerTo e s = refAnswer s.cfg s.dev e := by
  simp only [Machine.answerTo, h.draw, answer]

end Sys2Proof.Machine
end

