-- ==== Sys2Proof/Laws/Bus.lean ====
section
/-! SUPPORT. What the pieces of a transaction can do: the frame they keep, the trace they leave
(R130, R131, R134 to R137), in every environment. -/

namespace Sys2Proof.Machine

variable {α β ε : Type}

theorem andThen_error {m : Act ε α} {s t : State} {e : ε} (h : m s = (.error e, t)) (k : α → Act ε β) :
    andThen m k s = (.error e, t) := by
  simp only [andThen, h]

theorem andThen_ok {m : Act ε α} {s t : State} {a : α} (h : m s = (.ok a, t)) (k : α → Act ε β) :
    andThen m k s = k a t := by
  simp only [andThen, h]

/-- `m` leaves the events `evs` and ends as a frame `frame` can: all of it answered `Ok`, with the
bytes received standing in `val` to the value, or some event of it the first to fail (R134). -/
def EndsFrame (frame : List TpEvent) (evs : List BusEvent) (val : α → List Byte → Prop) :
    Except TpFailure α → Prop
  | .ok a => evs.map BusEvent.event = frame ∧ AllOk evs ∧ val a (received evs)
  | .error f => ∃ before e after, evs = before ++ [⟨e, .fail f⟩] ∧
      frame = before.map BusEvent.event ++ e :: after ∧ AllOk before

/-- From any state with parameters `cfg`, `m` runs the frame and touches nothing else. -/
def RunsFrame (cfg : Config) (frame : List TpEvent) (m : Act TpFailure α)
    (val : α → List Byte → Prop) : Prop :=
  ∀ s : State, s.cfg = cfg → EventFrame s (m s).2 ∧ (m s).2.busHeld = s.busHeld ∧
    ∃ evs, (m s).2.trace = s.trace ++ evs ∧ EndsFrame frame evs val (m s).1

theorem received_append (a b : List BusEvent) : received (a ++ b) = received a ++ received b := by
  simp [received]

theorem AllOk.append {a b : List BusEvent} (ha : AllOk a) (hb : AllOk b) : AllOk (a ++ b) := by
  intro e he
  rcases List.mem_append.1 he with h | h
  · exact ha e h
  · exact hb e h

theorem send_runsFrame (cfg : Config) (e : TpEvent) (he : ∀ ack, e ≠ .rx ack) :
    RunsFrame cfg [e] (send e) (fun _ bs => bs = []) := by
  intro s _
  refine ⟨by simpa using afterEvent_eventFrame e s, by simp, [⟨e, answerTo e s⟩], by simp, ?_⟩
  rcases send_cases e s he with ⟨ha, hs⟩ | ⟨f, ha, -, hs⟩
  · simp [hs, EndsFrame, ha, AllOk, received, TpResult.isOk]
  · simp only [hs, EndsFrame, ha]
    exact ⟨[], e, [], by simp [AllOk]⟩

theorem startDev_runsFrame (cfg : Config) (dir : Dir) :
    RunsFrame cfg [.start cfg.devAddr dir] (startDev dir) (fun _ bs => bs = []) := by
  intro s hs
  have := send_runsFrame cfg (.start cfg.devAddr dir) (by simp) s hs
  simpa [startDev, hs] using this

theorem recv_runsFrame (cfg : Config) (ack : Bool) :
    RunsFrame cfg [.rx ack] (recv ack) (fun b bs => bs = [b]) := by
  intro s _
  refine ⟨by simpa using afterEvent_eventFrame (.rx ack) s, by simp,
    [⟨.rx ack, answerTo (.rx ack) s⟩], by simp, ?_⟩
  rcases recv_cases ack s with ⟨b, ha, hs⟩ | ⟨f, ha, -, hs⟩
  · simp [hs, EndsFrame, ha, AllOk, received, TpResult.isOk]
  · simp only [hs, EndsFrame, ha]
    exact ⟨[], .rx ack, [], by simp [AllOk]⟩

/-- Frames in sequence. -/
theorem andThen_runsFrame {cfg : Config} {f g : List TpEvent} {m : Act TpFailure α}
    {k : α → Act TpFailure β} {v : α → List Byte → Prop} {w : α → β → List Byte → Prop}
    {val : β → List Byte → Prop}
    (hm : RunsFrame cfg f m v) (hk : ∀ a, RunsFrame cfg g (k a) (w a))
    (hval : ∀ a b x y, v a x → w a b y → val b (x ++ y)) :
    RunsFrame cfg (f ++ g) (andThen m k) val := by
  intro s hs
  obtain ⟨hf, hh, evs, ht, he⟩ := hm s hs
  rcases hms : m s with ⟨r, t⟩
  simp only [hms] at hf hh ht he
  cases r with
  | error x =>
    obtain ⟨before, e, after, h1, h2, h3⟩ := he
    rw [andThen_error hms]
    exact ⟨hf, hh, evs, ht, before, e, after ++ g, h1, by simp [h2], h3⟩
  | ok a =>
    obtain ⟨h1, h2, h3⟩ := he
    obtain ⟨hf', hh', evs', ht', he'⟩ := hk a t (hf.cfg.trans hs)
    rw [andThen_ok hms]
    refine ⟨hf.trans hf', hh'.trans hh, evs ++ evs', by rw [ht', ht, List.append_assoc], ?_⟩
    rcases hks : k a t with ⟨r', u⟩
    simp only [hks] at he' ⊢
    cases r' with
    | error x =>
      obtain ⟨before, e, after, g1, g2, g3⟩ := he'
      exact ⟨evs ++ before, e, after, by simp [g1], by simp [g2, h1], h2.append g3⟩
    | ok b =>
      obtain ⟨g1, g2, g3⟩ := he'
      exact ⟨by simp [h1, g1], h2.append g2, by rw [received_append]; exact hval a b _ _ h3 g3⟩

theorem pure_runsFrame (cfg : Config) (a : α) {v : α → List Byte → Prop} (h : v a []) :
    RunsFrame cfg [] (fun s => (.ok a, s)) v :=
  fun s _ => ⟨EventFrame.refl s, rfl, [], by simp, by simpa [EndsFrame, AllOk, received] using h⟩

theorem sendAll_runsFrame (cfg : Config) (buf : List Byte) :
    RunsFrame cfg (buf.map .tx) (sendAll buf) (fun _ bs => bs = []) := by
  induction buf with
  | nil => exact pure_runsFrame cfg () rfl
  | cons b rest ih =>
    exact andThen_runsFrame (send_runsFrame cfg (.tx b) (by simp)) (fun _ => ih)
      (by rintro _ _ _ _ rfl rfl; rfl)

/-- The receptions of a read of `n` bytes: each but the last acknowledged (R133). -/
def rxEvents (n : Nat) : List TpEvent := (List.range n).map fun i => .rx (decide (i + 1 ≠ n))

theorem rxEvents_succ (n : Nat) : rxEvents (n + 1) = [.rx (decide (n ≠ 0))] ++ rxEvents n := by
  simp only [rxEvents, List.range_succ_eq_map, List.map_cons, List.map_map, List.singleton_append]
  congr 1
  · congr 1; simp only [decide_eq_decide]; omega
  · apply List.map_congr_left; intro i _; simp

theorem recvAll_runsFrame (cfg : Config) (n : Nat) :
    RunsFrame cfg (rxEvents n) (recvAll n) (fun bs x => x = bs.1) := by
  induction n with
  | zero => exact pure_runsFrame cfg (⟨[], rfl⟩ : Received 0) rfl
  | succ n ih =>
    rw [rxEvents_succ]
    refine andThen_runsFrame (w := fun b (bs : Received (n + 1)) x => bs.1 = b :: x) (recv_runsFrame cfg _) (fun b => ?_)
      (by rintro _ _ _ _ rfl h; exact h.symm)
    have := andThen_runsFrame (val := fun (bs : Received (n + 1)) x => bs.1 = b :: x) ih
      (fun bs => pure_runsFrame cfg (Received.cons b bs) (v := fun r x => r.1 = b :: bs.1 ∧ x = []) ⟨rfl, rfl⟩)
      (by rintro _ _ _ _ rfl ⟨h, rfl⟩; simpa using h)
    simpa using this

theorem writeFrame_runsFrame (cfg : Config) (reg : Byte) (buf : List Byte) :
    RunsFrame cfg (writeEvents cfg.devAddr reg buf) (writeFrame reg buf) (fun _ bs => bs = []) :=
  andThen_runsFrame (w := fun _ _ x => x = []) (startDev_runsFrame cfg .write)
    (fun _ => andThen_runsFrame (w := fun _ _ x => x = []) (send_runsFrame cfg (.tx reg) (by simp))
      (fun _ => sendAll_runsFrame cfg buf) (by rintro _ _ _ _ rfl rfl; rfl))
    (by rintro _ _ _ _ rfl rfl; rfl)

theorem readFrame_runsFrame (cfg : Config) (reg : Byte) (len : Nat) :
    RunsFrame cfg (readEvents cfg.devAddr reg len) (readFrame reg len) (fun bs x => x = bs.1) :=
  andThen_runsFrame (w := fun _ (bs : Received len) x => x = bs.1) (startDev_runsFrame cfg .write)
    (fun _ => andThen_runsFrame (w := fun _ (bs : Received len) x => x = bs.1) (send_runsFrame cfg (.tx reg) (by simp))
      (fun _ => andThen_runsFrame (w := fun _ (bs : Received len) x => x = bs.1) (startDev_runsFrame cfg .read)
        (fun _ => recvAll_runsFrame cfg len) (by rintro _ _ _ _ rfl rfl; rfl))
      (by rintro _ _ _ _ rfl rfl; rfl))
    (by rintro _ _ _ _ rfl rfl; rfl)

/-! ## The whole transaction -/

/-- The release whose answer is ignored, after a failure (R135). -/
theorem releaseIgnored_spec (s : State) : EventFrame s (releaseIgnored s) ∧
    (releaseIgnored s).busHeld = false ∧
    (releaseIgnored s).trace = s.trace ++ [⟨.rel, answerTo .rel s⟩] := by
  simp only [releaseIgnored, send_snd]
  exact ⟨(afterEvent_eventFrame _ _).trans (setBusHeld_eventFrame _ _), rfl, rfl⟩

/-- How a transaction's result stands to the bytes received. -/
def TxnValue (val : α → List Byte → Prop) : Except Cause α → Except Cause (List Byte) → Prop
  | .ok a, .ok bs => val a bs
  | .error c, .error d => c = d
  | _, _ => False

/-- Everything a transaction can do, in any environment: what it keeps, that `bus_held` ends false,
and the trace it leaves (R130, R131, R134 to R137). -/
theorem session_run {cfg : Config} {frame : List TpEvent} {m : Act TpFailure α}
    {val : α → List Byte → Prop} (hm : RunsFrame cfg frame m val) (s : State) (hs : s.cfg = cfg) :
    EventFrame s (session m s).2 ∧ (s.busHeld = false → (session m s).2.busHeld = false) ∧
    ∃ evs r, (session m s).2.trace = s.trace ++ evs ∧ TxnRun cfg.busCfg frame evs r ∧
      TxnValue val (session m s).1 r := by
  simp only [session, hs]
  have hfa := afterEvent_eventFrame (.acq cfg.busCfg) s
  rcases send_cases (.acq cfg.busCfg) s (by simp) with ⟨ha, hse⟩ | ⟨f, ha, -, hse⟩
  · simp only [hse]
    have hfb := hfa.trans (setBusHeld_eventFrame true (afterEvent (.acq cfg.busCfg) s))
    obtain ⟨hf, hh, evs, ht, he⟩ := hm ((afterEvent (.acq cfg.busCfg) s).setBusHeld true) hs
    rcases hms : m ((afterEvent (.acq cfg.busCfg) s).setBusHeld true) with ⟨r, u⟩
    rw [hms] at hf hh ht he
    have hfu := hfb.trans hf
    simp only [setBusHeld_trace, afterEvent_trace, ha] at ht
    cases r with
    | error f =>
      obtain ⟨before, e, after, h1, h2, h3⟩ := he
      by_cases hfl : f = .arbLost
      · obtain ⟨g1, g2, g3⟩ := releaseIgnored_spec u
        simp only [abort, hfl, if_true]
        refine ⟨hfu.trans g1, fun _ => g2, _, _, ?_,
          TxnRun.frameFails before e f after [⟨.rel, answerTo .rel u⟩] h2 h3 (by simp [hfl]), by rw [hfl]; rfl⟩
        rw [g3, ht, h1]; simp
      · obtain ⟨g1, g2, g3⟩ := releaseIgnored_spec (afterEvent .stop u)
        simp only [abort, hfl, if_false, send_snd]
        refine ⟨(hfu.trans (afterEvent_eventFrame _ _)).trans g1, fun _ => g2, _, _, ?_,
          TxnRun.frameFails before e f after
            [⟨.stop, answerTo .stop u⟩, ⟨.rel, answerTo .rel (afterEvent .stop u)⟩] h2 h3 (by simp [hfl]), rfl⟩
        rw [g3, afterEvent_trace, ht, h1]; simp
    | ok a =>
      obtain ⟨h1, h2, h3⟩ := he
      simp only [closeSession]
      rcases send_cases .stop u (by simp) with ⟨hst, hse'⟩ | ⟨f, hst, -, hse'⟩
      · simp only [hse', releaseChecked]
        have hfv := hfu.trans (afterEvent_eventFrame .stop u)
        rcases send_cases .rel (afterEvent .stop u) (by simp) with ⟨hr, hse''⟩ | ⟨f, hr, -, hse''⟩
        · simp only [hse'']
          refine ⟨(hfv.trans (afterEvent_eventFrame _ _)).trans (setBusHeld_eventFrame _ _), fun _ => rfl,
            _, _, ?_, TxnRun.succeeds evs h1 h2, h3⟩
          simp [ht, hst, hr]
        · simp only [hse'']
          refine ⟨(hfv.trans (afterEvent_eventFrame _ _)).trans (setBusHeld_eventFrame _ _), fun _ => rfl,
            _, _, ?_, TxnRun.releaseFails evs f h1 h2, rfl⟩
          simp [ht, hst, hr]
      · obtain ⟨g1, g2, g3⟩ := releaseIgnored_spec (afterEvent .stop u)
        simp only [hse', abortAfterStop]
        refine ⟨(hfu.trans (afterEvent_eventFrame _ _)).trans g1, fun _ => g2, _, _, ?_,
          TxnRun.stopFails evs f (answerTo .rel (afterEvent .stop u)) h1 h2, rfl⟩
        rw [g3, afterEvent_trace, ht, hst]; simp
  · simp only [hse]
    exact ⟨hfa, fun h => h, [⟨.acq cfg.busCfg, .fail f⟩], .error .transport, by simp [ha],
      TxnRun.acquireFails f, rfl⟩

/-- Everything a write transaction can do on the bus (R130). -/
theorem memWrite_run (reg : Byte) (buf : List Byte) (s : State) :
    EventFrame s (memWrite reg buf s).2 ∧ (s.busHeld = false → (memWrite reg buf s).2.busHeld = false) ∧
    ∃ evs r, (memWrite reg buf s).2.trace = s.trace ++ evs ∧
      TxnRun s.cfg.busCfg (writeEvents s.cfg.devAddr reg buf) evs r ∧
      TxnValue (fun _ bs => bs = []) (memWrite reg buf s).1 r :=
  session_run (writeFrame_runsFrame s.cfg reg buf) s rfl

/-- Everything a read transaction can do on the bus (R131): an `Ok` carries exactly the bytes
received. -/
theorem memRead_run (reg : Byte) (len : Nat) (s : State) :
    EventFrame s (memRead reg len s).2 ∧ (s.busHeld = false → (memRead reg len s).2.busHeld = false) ∧
    ∃ evs r, (memRead reg len s).2.trace = s.trace ++ evs ∧
      TxnRun s.cfg.busCfg (readEvents s.cfg.devAddr reg len) evs r ∧
      TxnValue (fun (bs : Received len) x => x = bs.1) (memRead reg len s).1 r :=
  session_run (readFrame_runsFrame s.cfg reg len) s rfl

end Sys2Proof.Machine
end

