-- ==== Sys2Proof/Laws/Device.lean ====
section
/-! SUPPORT. What a transaction does in the device: which bytes are stored (R56, R63), that a read
stores nothing, and what the reference device answers (R58). -/

namespace Sys2Proof.Machine

theorem StoredUpTo.zero (d : Device) (base : Byte) (buf : List Byte) : StoredUpTo d d base buf 0 := by
  intro a
  rw [if_neg (by omega)]

theorem StoredUpTo.of_regs {d d' d'' : Device} {base : Byte} {buf : List Byte} {n : Nat}
    (h : StoredUpTo d d' base buf n) (hr : d''.regs = d'.regs) : StoredUpTo d d'' base buf n := by
  intro a
  rw [← h a, Device.regAt_congr hr]

theorem StoredUpTo.from_regs {d d' d'' : Device} {base : Byte} {buf : List Byte} {n : Nat}
    (h : StoredUpTo d' d'' base buf n) (hr : d'.regs = d.regs) : StoredUpTo d d'' base buf n := by
  intro a
  rw [h a, Device.regAt_congr hr]

/-- The pointer short of 0xFF moves up by one (R58). -/
theorem nextPtr_toNat {p : Byte} (n : Nat) (h : p.toNat + 1 < 256) : (nextPtr p n).toNat = p.toNat + 1 := by
  have hp : p ≠ 0xFF := by
    rintro rfl
    exact absurd h (by decide)
  rw [nextPtr, if_neg hp, BitVec.toNat_add, Nat.mod_eq_of_lt (by simpa using h)]
  rfl

theorem txAcked_append (a b : List BusEvent) : txAcked (a ++ b) = txAcked a + txAcked b := by
  induction a with
  | nil => simp [txAcked]
  | cons e rest ih =>
    rcases e with ⟨e, r⟩
    cases e <;> simp only [List.cons_append, txAcked, ih]
    split <;> omega

/-- The device takes a data byte at its pointer. -/
theorem deviceEffect_data {cfg : Config} {n : Nat} {d : Device} (b : Byte) (hd : d.dir = some .write)
    (hf : d.first = false) :
    deviceEffect cfg n d (.tx b) =
      { d with regs := Memory.write d.regs d.ptr.toNat b, ptr := nextPtr d.ptr n } := by
  simp [deviceEffect, hd, hf]

/-- One data byte: acknowledged and stored, or refused and stored or not (R63). -/
theorem sendData_cases {s : State} (b : Byte) (hd : s.dev.dir = some .write) (hf : s.dev.first = false) :
    let dev' : Device := { s.dev with
      regs := Memory.write s.dev.regs s.dev.ptr.toNat b, ptr := nextPtr s.dev.ptr s.env.events }
    (∃ t, send (.tx b) s = (.ok (), t) ∧ t = afterEvent (.tx b) s ∧ answerTo (.tx b) s = .ok ∧ t.dev = dev') ∨
    (∃ f t, send (.tx b) s = (.error f, t) ∧ t = afterEvent (.tx b) s ∧ answerTo (.tx b) s = .fail f ∧
      (t.dev = s.dev ∨ t.dev = dev')) := by
  intro dev'
  rcases send_cases (.tx b) s (by simp) with ⟨ha, hs⟩ | ⟨f, ha, -, hs⟩
  · left
    refine ⟨_, hs, rfl, ha, ?_⟩
    rw [afterEvent_dev, ha, takesEffect_ok, if_pos rfl, deviceEffect_data b hd hf]
  · right
    refine ⟨f, _, hs, rfl, ha, ?_⟩
    rw [afterEvent_dev]
    split
    · right; rw [deviceEffect_data b hd hf]
    · left; rfl

/-- What the data bytes of a burst leave in the device: some first bytes stored, all of them after
an `Ok`; after a failure those acknowledged and perhaps the refused one (R63). -/
theorem sendAll_stores (buf : List Byte) (s : State) (hd : s.dev.dir = some .write)
    (hf : s.dev.first = false) (hb : s.dev.ptr.toNat + buf.length ≤ 256) :
    ∃ n evs, (sendAll buf s).2.trace = s.trace ++ evs ∧ n ≤ buf.length ∧
      StoredUpTo s.dev (sendAll buf s).2.dev s.dev.ptr buf n ∧
      txAcked evs ≤ n ∧ n ≤ txAcked evs + 1 ∧
      (∀ u, (sendAll buf s).1 = .ok u → n = buf.length ∧ txAcked evs = buf.length) := by
  induction buf generalizing s with
  | nil => exact ⟨0, [], by simp [sendAll], by simp, StoredUpTo.zero _ _ _, by simp [txAcked], by simp, by simp [txAcked]⟩
  | cons b rest ih =>
    simp only [sendAll]
    have hone : ∀ d' : Device, d'.regs = Memory.write s.dev.regs s.dev.ptr.toNat b →
        StoredUpTo s.dev d' s.dev.ptr (b :: rest) 1 := by
      intro d' hr a
      have := Device.regAt_write s.dev s.dev.ptr b a
      rw [Device.regAt_congr (d := { s.dev with regs := Memory.write s.dev.regs s.dev.ptr.toNat b }) hr, this]
      by_cases h : s.dev.ptr = a
      · subst h; simp
      · have : s.dev.ptr.toNat ≠ a.toNat := fun hh => h (BitVec.eq_of_toNat_eq hh)
        rw [if_neg h, if_neg (by omega)]
    rcases sendData_cases b hd hf with ⟨t, hs, ht, ha, hdev⟩ | ⟨f, t, hs, ht, ha, hdev⟩
    · rw [andThen_ok hs]
      have htr : t.trace = s.trace ++ [⟨.tx b, .ok⟩] := by rw [ht, afterEvent_trace, ha]
      cases rest with
      | nil =>
        refine ⟨1, [⟨.tx b, .ok⟩], by simpa [sendAll] using htr, by simp, ?_, by simp [txAcked, TpResult.isOk],
          by simp [txAcked, TpResult.isOk], by simp [txAcked, TpResult.isOk]⟩
        exact hone _ (by simp [sendAll, hdev])
      | cons c rest' =>
        simp only [List.length_cons] at hb
        have hp := nextPtr_toNat (p := s.dev.ptr) s.env.events (by omega)
        obtain ⟨n, evs, h1, h2, h3, h4, h5, h6⟩ := ih t (by rw [hdev]; exact hd) (by rw [hdev]; exact hf)
          (by rw [hdev]; simp only [List.length_cons]; rw [hp]; omega)
        refine ⟨n + 1, ⟨.tx b, .ok⟩ :: evs, by rw [h1, htr]; simp, by simp only [List.length_cons] at h2 ⊢; omega, ?_,
          by simp [txAcked, TpResult.isOk]; omega, by simp [txAcked, TpResult.isOk]; omega, ?_⟩
        · intro a
          rw [h3 a, hdev]
          simp only [hp]
          have hw := Device.regAt_write s.dev s.dev.ptr b a
          have hw' : Device.regAt { s.dev with
              regs := Memory.write s.dev.regs s.dev.ptr.toNat b,
              ptr := nextPtr s.dev.ptr s.env.events } a = if s.dev.ptr = a then b else s.dev.regAt a := hw
          by_cases h : s.dev.ptr = a
          · subst h
            rw [hw', if_pos rfl, if_neg (by omega), if_pos (by omega)]
            simp
          · have hne : s.dev.ptr.toNat ≠ a.toNat := fun hh => h (BitVec.eq_of_toNat_eq hh)
            by_cases hin : s.dev.ptr.toNat + 1 ≤ a.toNat ∧ a.toNat < s.dev.ptr.toNat + 1 + n
            · rw [if_pos hin, if_pos (by omega)]
              rw [show a.toNat - s.dev.ptr.toNat = (a.toNat - (s.dev.ptr.toNat + 1)) + 1 by omega]
              simp
            · rw [if_neg hin, if_neg (by omega), hw', if_neg h]
        · intro u hu
          obtain ⟨g1, g2⟩ := h6 u hu
          simp only [List.length_cons] at g1 g2 ⊢
          simp only [txAcked, TpResult.isOk, if_true]
          omega
    · rw [andThen_error hs]
      have htr : t.trace = s.trace ++ [⟨.tx b, .fail f⟩] := by rw [ht, afterEvent_trace, ha]
      rcases hdev with hdev | hdev
      · exact ⟨0, _, htr, by simp, by simpa [hdev] using StoredUpTo.zero s.dev _ _,
          by simp [txAcked, TpResult.isOk], by simp, by simp⟩
      · exact ⟨1, _, htr, by simp, hone _ (by simp [hdev]), by simp [txAcked, TpResult.isOk],
          by simp [txAcked, TpResult.isOk], by simp⟩

/-- Events that store nothing. -/
theorem afterEvent_regs_of_ne_tx (e : TpEvent) (s : State) (he : ∀ b, e ≠ .tx b) :
    (afterEvent e s).dev.regs = s.dev.regs := by
  rw [afterEvent_dev]
  split
  · cases e with
    | tx b => exact absurd rfl (he b)
    | start a dir => cases dir <;> simp only [deviceEffect] <;> split <;> rfl
    | rx ack => simp only [deviceEffect]; split <;> rfl
    | acq _ => rfl
    | stop => rfl
    | rel => rfl
  · rfl

theorem releaseIgnored_regs (s : State) : (releaseIgnored s).dev.regs = s.dev.regs := by
  simp only [releaseIgnored, send_snd, setBusHeld_dev]
  exact afterEvent_regs_of_ne_tx .rel s (by simp)

/-- What the frame of a transaction does to the device's registers, the transaction does: acquire,
end and release store nothing and send no byte. `Q` speaks of the registers and of how many sent
bytes were acknowledged, `R` of an `Ok` value and the registers. -/
theorem session_device {α : Type} (m : Act TpFailure α) (s : State) (Q : Memory → Nat → Prop)
    (R : α → Memory → Prop) (hacq : Q s.dev.regs 0)
    (hm : ∀ t : State, t.cfg = s.cfg → t.dev.regs = s.dev.regs →
      ∃ evs, (m t).2.trace = t.trace ++ evs ∧ Q (m t).2.dev.regs (txAcked evs) ∧
        ∀ a, (m t).1 = .ok a → R a (m t).2.dev.regs) :
    ∃ evs, (session m s).2.trace = s.trace ++ evs ∧ Q (session m s).2.dev.regs (txAcked evs) ∧
      ∀ a, (session m s).1 = .ok a → R a (session m s).2.dev.regs := by
  simp only [session]
  have hra := afterEvent_regs_of_ne_tx (.acq s.cfg.busCfg) s (by simp)
  rcases send_cases (.acq s.cfg.busCfg) s (by simp) with ⟨-, hse⟩ | ⟨f, -, -, hse⟩
  · simp only [hse]
    obtain ⟨evs, htr, hQ, hR⟩ := hm ((afterEvent (.acq s.cfg.busCfg) s).setBusHeld true) rfl (by simpa using hra)
    rcases hms : m ((afterEvent (.acq s.cfg.busCfg) s).setBusHeld true) with ⟨r, u⟩
    simp only [hms, setBusHeld_trace, afterEvent_trace] at htr hQ hR
    have hst := afterEvent_regs_of_ne_tx .stop u (by simp)
    cases r with
    | error f =>
      simp only [abort, releaseIgnored_regs, send_snd]
      split
      · refine ⟨⟨.acq s.cfg.busCfg, answerTo (.acq s.cfg.busCfg) s⟩ :: (evs ++ [⟨.rel, answerTo .rel u⟩]), ?_, ?_, by simp⟩
        · rw [(releaseIgnored_spec u).2.2, htr]; simp
        · simpa [txAcked, txAcked_append] using hQ
      · refine ⟨⟨.acq s.cfg.busCfg, answerTo (.acq s.cfg.busCfg) s⟩ ::
          (evs ++ [⟨.stop, answerTo .stop u⟩, ⟨.rel, answerTo .rel (afterEvent .stop u)⟩]), ?_, ?_, by simp⟩
        · rw [(releaseIgnored_spec _).2.2, afterEvent_trace, htr]; simp
        · rw [hst]; simpa [txAcked, txAcked_append] using hQ
    | ok a =>
      have hrel := afterEvent_regs_of_ne_tx .rel (afterEvent .stop u) (by simp)
      refine ⟨⟨.acq s.cfg.busCfg, answerTo (.acq s.cfg.busCfg) s⟩ ::
          (evs ++ [⟨.stop, answerTo .stop u⟩, ⟨.rel, answerTo .rel (afterEvent .stop u)⟩]), ?_, ?_, ?_⟩ <;>
        simp only [closeSession]
      · rcases send_cases .stop u (by simp) with ⟨-, hse'⟩ | ⟨f, -, -, hse'⟩
        · simp only [hse', releaseChecked]
          rcases send_cases .rel (afterEvent .stop u) (by simp) with ⟨-, hse''⟩ | ⟨f, -, -, hse''⟩ <;>
            simp [hse'', htr]
        · simp only [hse', abortAfterStop, (releaseIgnored_spec _).2.2]
          simp [htr]
      · have hcount : txAcked (⟨.acq s.cfg.busCfg, answerTo (.acq s.cfg.busCfg) s⟩ ::
            (evs ++ [⟨.stop, answerTo .stop u⟩, ⟨.rel, answerTo .rel (afterEvent .stop u)⟩])) = txAcked evs := by
          simp [txAcked, txAcked_append]
        rw [hcount]
        rcases send_cases .stop u (by simp) with ⟨-, hse'⟩ | ⟨f, -, -, hse'⟩
        · simp only [hse', releaseChecked]
          rcases send_cases .rel (afterEvent .stop u) (by simp) with ⟨-, hse''⟩ | ⟨f, -, -, hse''⟩ <;>
            (simp only [hse'', setBusHeld_dev, hrel, hst]; exact hQ)
        · simp only [hse', abortAfterStop, releaseIgnored_regs, hst]; exact hQ
      · rcases send_cases .stop u (by simp) with ⟨-, hse'⟩ | ⟨f, -, -, hse'⟩
        · simp only [hse', releaseChecked]
          rcases send_cases .rel (afterEvent .stop u) (by simp) with ⟨-, hse''⟩ | ⟨f, -, -, hse''⟩
          · simp only [hse'', setBusHeld_dev, hrel, hst]
            exact fun b h => hR b (by cases h; rfl)
          · simp [hse'']
        · simp [hse', abortAfterStop]
  · simp only [hse, hra]
    exact ⟨[⟨.acq s.cfg.busCfg, answerTo (.acq s.cfg.busCfg) s⟩], by simp, by simpa [txAcked] using hacq, by simp⟩

/-- A begin for writing that answered `Ok` selects the device and makes the next byte the register
address (R58). -/
theorem startDev_write_cases (s : State) :
    (∃ t, startDev .write s = (.ok (), t) ∧ t.cfg = s.cfg ∧ t.dev = { s.dev with dir := some .write, first := true } ∧
      t.trace = s.trace ++ [⟨.start s.cfg.devAddr .write, .ok⟩]) ∨
    (∃ f t, startDev .write s = (.error f, t) ∧ t.dev = s.dev ∧
      t.trace = s.trace ++ [⟨.start s.cfg.devAddr .write, .fail f⟩]) := by
  rcases send_cases (.start s.cfg.devAddr .write) s (by simp) with ⟨ha, hs⟩ | ⟨f, ha, -, hs⟩
  · left
    refine ⟨_, hs, rfl, ?_, by rw [afterEvent_trace, ha]⟩
    rw [afterEvent_dev, ha, takesEffect_ok, if_pos rfl]
    simp [deviceEffect]
  · right
    refine ⟨f, _, hs, ?_, by rw [afterEvent_trace, ha]⟩
    rw [afterEvent_dev, ha, takesEffect_start]
    rfl

/-- The register address loads the pointer and stores nothing (R56). -/
theorem sendReg_cases (reg : Byte) (s : State) (hd : s.dev.dir = some .write) (hf : s.dev.first = true) :
    (∃ t, send (.tx reg) s = (.ok (), t) ∧ t.cfg = s.cfg ∧ t.dev = { s.dev with ptr := reg, first := false } ∧
      t.trace = s.trace ++ [⟨.tx reg, .ok⟩]) ∨
    (∃ f t, send (.tx reg) s = (.error f, t) ∧ t.dev.regs = s.dev.regs ∧
      t.trace = s.trace ++ [⟨.tx reg, .fail f⟩]) := by
  rcases send_cases (.tx reg) s (by simp) with ⟨ha, hs⟩ | ⟨f, ha, -, hs⟩
  · left
    refine ⟨_, hs, rfl, ?_, by rw [afterEvent_trace, ha]⟩
    rw [afterEvent_dev, ha, takesEffect_ok, if_pos rfl]
    simp [deviceEffect, hd, hf]
  · right
    refine ⟨f, _, hs, ?_, by rw [afterEvent_trace, ha]⟩
    rw [afterEvent_dev]
    split
    · simp [deviceEffect, hd, hf]
    · rfl

/-- What a write transaction stores (R56, R63): the first `n` bytes from `reg` on, where `n` is the
number of data bytes acknowledged or one more, and all of them after an `Ok`; no other register
changes. -/
theorem memWrite_stores (reg : Byte) (buf : List Byte) (s : State) (hb : reg.toNat + buf.length ≤ 256) :
    ∃ evs, (memWrite reg buf s).2.trace = s.trace ++ evs ∧
      (∃ n, n ≤ buf.length ∧ StoredUpTo s.dev (memWrite reg buf s).2.dev reg buf n ∧
        txAcked evs ≤ n + 1 ∧ n ≤ txAcked evs) ∧
      ((memWrite reg buf s).1 = .ok () → StoredUpTo s.dev (memWrite reg buf s).2.dev reg buf buf.length) := by
  have hlift : ∀ (d d' : Device) n, d'.regs = d.regs → StoredUpTo s.dev d reg buf n → StoredUpTo s.dev d' reg buf n :=
    fun d d' n h k => k.of_regs h
  obtain ⟨evs, h1, h2, h3⟩ := session_device (writeFrame reg buf) s
    (fun m c => ∃ n, n ≤ buf.length ∧ StoredUpTo s.dev { s.dev with regs := m } reg buf n ∧ c ≤ n + 1 ∧ n ≤ c)
    (fun _ m => StoredUpTo s.dev { s.dev with regs := m } reg buf buf.length)
    ⟨0, by simp, StoredUpTo.zero _ _ _, by simp, by simp⟩ (by
      intro t hc hr
      have h0 : StoredUpTo s.dev { s.dev with regs := t.dev.regs } reg buf 0 :=
        (StoredUpTo.zero s.dev reg buf).of_regs hr
      simp only [writeFrame]
      rcases startDev_write_cases t with ⟨u, hu, hcu, hdu, htu⟩ | ⟨f, u, hu, hdu, htu⟩
      · rw [andThen_ok hu]
        have hru : u.dev.regs = s.dev.regs := by rw [hdu]; exact hr
        rcases sendReg_cases reg u (by rw [hdu]) (by rw [hdu]) with ⟨v, hv, hcv, hdv, htv⟩ | ⟨f, v, hv, hdv, htv⟩
        · rw [andThen_ok hv]
          have hrv : v.dev.regs = s.dev.regs := by rw [hdv]; exact hru
          obtain ⟨n, evs, g1, g2, g3, g4, g5, g6⟩ := sendAll_stores buf v (by rw [hdv, hdu]) (by rw [hdv])
            (by rw [hdv]; exact hb)
          have hpv : v.dev.ptr = reg := by rw [hdv]
          rw [hpv] at g3
          have g3' : ∀ k, StoredUpTo v.dev (sendAll buf v).2.dev reg buf k →
              StoredUpTo s.dev { s.dev with regs := (sendAll buf v).2.dev.regs } reg buf k :=
            fun k h => (h.from_regs hrv).of_regs rfl
          refine ⟨⟨.start t.cfg.devAddr .write, .ok⟩ :: ⟨.tx reg, .ok⟩ :: evs, by rw [g1, htv, htu]; simp,
            ⟨n, g2, g3' n g3, ?_, ?_⟩, fun _ hu' => ?_⟩
          · simp only [txAcked, TpResult.isOk, if_true]; omega
          · simp only [txAcked, TpResult.isOk, if_true]; omega
          · have := g6 () hu'
            rw [← this.1]
            exact g3' n g3
        · rw [andThen_error hv]
          refine ⟨[⟨.start t.cfg.devAddr .write, .ok⟩, ⟨.tx reg, .fail f⟩], by rw [htv, htu]; simp,
            ⟨0, by simp, ?_, by simp [txAcked, TpResult.isOk], by simp⟩, by simp⟩
          simp only [hdv, hru, ← hr]; exact h0
      · rw [andThen_error hu]
        refine ⟨[⟨.start t.cfg.devAddr .write, .fail f⟩], htu,
          ⟨0, by simp, ?_, by simp [txAcked], by simp⟩, by simp⟩
        rw [hdu]; exact h0)
  obtain ⟨n, g1, g2, g3, g4⟩ := h2
  exact ⟨evs, h1, ⟨n, g1, g2.of_regs rfl, g3, g4⟩, fun hok => (h3 () hok).of_regs rfl⟩

/-- Receiving stores nothing. -/
theorem recvAll_regs (n : Nat) (s : State) : (recvAll n s).2.dev.regs = s.dev.regs := by
  induction n generalizing s with
  | zero => rfl
  | succ n ih =>
    simp only [recvAll]
    have hreg := afterEvent_regs_of_ne_tx (.rx (decide (n ≠ 0))) s (by simp)
    rcases recv_cases (decide (n ≠ 0)) s with ⟨b, -, hs⟩ | ⟨f, -, -, hs⟩
    · rw [andThen_ok hs]
      rcases hr : recvAll n (afterEvent (.rx (decide (n ≠ 0))) s) with ⟨r, t⟩
      have := ih (afterEvent (.rx (decide (n ≠ 0))) s)
      rw [hr] at this
      cases r with
      | error f => rw [andThen_error hr]; exact this.trans hreg
      | ok bs => rw [andThen_ok hr]; exact this.trans hreg
    · rw [andThen_error hs]; exact hreg

/-- A read transaction stores nothing (R64: its one side effect on the device is the pointer). -/
theorem memRead_regs (reg : Byte) (len : Nat) (s : State) :
    (memRead reg len s).2.dev.regs = s.dev.regs := by
  obtain ⟨evs, -, h, -⟩ := session_device (readFrame reg len) s (fun m _ => m = s.dev.regs) (fun _ _ => True) rfl (by
    intro t hc hr
    obtain ⟨-, -, evs, ht, -⟩ := readFrame_runsFrame s.cfg reg len t hc
    refine ⟨evs, ht, ?_, fun _ _ => trivial⟩
    simp only [readFrame]
    rcases startDev_write_cases t with ⟨u, hu, hcu, hdu, htu⟩ | ⟨f, u, hu, hdu, htu⟩
    · rw [andThen_ok hu]
      have hru : u.dev.regs = s.dev.regs := by rw [hdu]; exact hr
      rcases sendReg_cases reg u (by rw [hdu]) (by rw [hdu]) with ⟨v, hv, hcv, hdv, htv⟩ | ⟨f, v, hv, hdv, htv⟩
      · rw [andThen_ok hv]
        have hrv : v.dev.regs = s.dev.regs := by rw [hdv]; exact hru
        have hsr := afterEvent_regs_of_ne_tx (.start v.cfg.devAddr .read) v (by simp)
        rcases send_cases (.start v.cfg.devAddr .read) v (by simp) with ⟨-, hw⟩ | ⟨f, -, -, hw⟩
        · rw [andThen_ok (m := startDev .read) hw, recvAll_regs, hsr, hrv]
        · rw [andThen_error (m := startDev .read) hw, hsr, hrv]
      · rw [andThen_error hv, hdv, hru]
    · rw [andThen_error hu, hdu]; exact hr)
  exact h

end Sys2Proof.Machine
end

