-- ==== Sys2Proof/Laws/Reference.lean ====
section
/-! SUPPORT. The reference environment (R58): every event answers `Ok`, so a transaction succeeds with
one fixed trace, a write stores every byte, and a read gives what the registers hold. -/

namespace Sys2Proof.Machine

/-- In the reference environment every event but a reception answers `Ok`. -/
theorem refEnv_send {s : State} (h : ReferenceEnv s) {e : TpEvent} (he : ∀ ack, e ≠ .rx ack)
    (ha : ∀ a dir, e = .start a dir → a = s.cfg.devAddr) : send e s = (.ok (), afterEvent e s) := by
  rcases send_cases e s he with ⟨-, hs⟩ | ⟨f, hf, -, -⟩
  · exact hs
  · rw [h.answerTo] at hf
    cases e with
    | start a dir => simp [refAnswer, ha a dir rfl] at hf
    | rx ack => exact absurd rfl (he ack)
    | acq _ => cases hf
    | tx _ => cases hf
    | stop => cases hf
    | rel => cases hf

/-- A reception gives the byte at the device's pointer. -/
theorem refEnv_recv {s : State} (h : ReferenceEnv s) (ack : Bool) :
    recv ack s = (.ok (s.dev.regAt s.dev.ptr), afterEvent (.rx ack) s) := by
  have ha : answerTo (.rx ack) s = .okByte (s.dev.regAt s.dev.ptr) := by rw [h.answerTo]; rfl
  simp only [recv, ha]

/-- In the reference environment every event takes effect. -/
theorem refEnv_dev {s : State} (h : ReferenceEnv s) {e : TpEvent}
    (ha : ∀ a dir, e = .start a dir → a = s.cfg.devAddr) :
    (afterEvent e s).dev = deviceEffect s.cfg s.env.events s.dev e := by
  have hr : ∀ f, answerTo e s ≠ .fail f := by
    intro f hf
    rw [h.answerTo] at hf
    cases e with
    | start a dir => simp [refAnswer, ha a dir rfl] at hf
    | _ => cases hf
  rw [afterEvent_dev]
  cases hx : answerTo e s with
  | fail f => exact absurd hx (hr f)
  | _ => rfl

/-- The bytes of a burst move the pointer up by one each (R58). -/
theorem refEnv_sendAll {s : State} (h : ReferenceEnv s) (buf : List Byte) (hd : s.dev.dir = some .write)
    (hf : s.dev.first = false) (hb : s.dev.ptr.toNat + buf.length ≤ 256) :
    ∃ t, sendAll buf s = (.ok (), t) ∧ ReferenceEnv t ∧ t.dev.first = false ∧
      (s.dev.ptr.toNat + buf.length < 256 → t.dev.ptr.toNat = s.dev.ptr.toNat + buf.length) := by
  induction buf generalizing s with
  | nil => exact ⟨s, rfl, h, hf, by simp⟩
  | cons b rest ih =>
    have hdev : (afterEvent (.tx b) s).dev = { s.dev with
        regs := Memory.write s.dev.regs s.dev.ptr.toNat b, ptr := nextPtr s.dev.ptr s.env.events } := by
      rw [refEnv_dev h (by simp), deviceEffect_data b hd hf]
    simp only [sendAll, List.length_cons] at hb ⊢
    rw [andThen_ok (refEnv_send h (by simp) (by simp))]
    cases rest with
    | nil =>
      refine ⟨_, rfl, h.afterEvent _, by rw [hdev]; exact hf, fun hlt => ?_⟩
      rw [hdev]
      exact nextPtr_toNat _ (by simpa using hlt)
    | cons c rest' =>
      have hp := nextPtr_toNat (p := s.dev.ptr) s.env.events (by simp only [List.length_cons] at hb; omega)
      obtain ⟨t, ht, hr, hft, hpt⟩ := ih (h.afterEvent (.tx b)) (by rw [hdev]; exact hd) (by rw [hdev]; exact hf)
        (by rw [hdev]; simp only [hp]; simp only [List.length_cons] at hb ⊢; omega)
      refine ⟨t, ht, hr, hft, fun hlt => ?_⟩
      rw [hdev] at hpt
      simp only [hp] at hpt
      rw [hpt (by simp only [List.length_cons] at hlt ⊢; omega)]
      omega

/-- A frame that succeeds makes the transaction succeed. -/
theorem refEnv_session {α : Type} {s : State} (h : ReferenceEnv s) {m : Act TpFailure α} {a : α} {u : State}
    (hm : m ((afterEvent (.acq s.cfg.busCfg) s).setBusHeld true) = (.ok a, u)) (hu : ReferenceEnv u) :
    ∃ t, session m s = (.ok a, t) ∧ ReferenceEnv t ∧ t.tpInstalled = false ∧
      t.dev = { u.dev with dir := none } := by
  refine ⟨_, ?_, ((hu.afterEvent .stop).afterEvent .rel).setBusHeld false, ?_, ?_⟩
  · simp only [session, refEnv_send h (e := .acq s.cfg.busCfg) (by simp) (by simp), hm, closeSession,
      refEnv_send hu (e := .stop) (by simp) (by simp), releaseChecked,
      refEnv_send (hu.afterEvent .stop) (e := .rel) (by simp) (by simp)]
  · have ha : answerTo .rel (afterEvent .stop u) = .ok := by rw [(hu.afterEvent .stop).answerTo]; rfl
    rw [setBusHeld_tpInstalled, afterEvent_tpInstalled, ha]
    rfl
  · rw [setBusHeld_dev, refEnv_dev (hu.afterEvent .stop) (by simp), refEnv_dev hu (by simp)]
    rfl

theorem regsFrom_succ (d : Device) (p : Byte) (n : Nat) :
    regsFrom d p (n + 1) = d.regAt p :: regsFrom d (p + 1) n := by
  simp only [regsFrom, List.range_succ_eq_map, List.map_cons, List.map_map]
  congr 1
  · congr 1; bv_omega
  · apply List.map_congr_left
    intro i _
    simp only [Function.comp]
    congr 1
    rw [BitVec.add_assoc]
    congr 1
    apply BitVec.eq_of_toNat_eq
    simp [Nat.add_comm]

theorem regsFrom_congr {d d' : Device} (h : d'.regs = d.regs) (p : Byte) (n : Nat) :
    regsFrom d' p n = regsFrom d p n := by
  simp only [regsFrom, Device.regAt_congr h]

theorem regsFrom_length (d : Device) (p : Byte) (n : Nat) : (regsFrom d p n).length = n := by
  simp [regsFrom]

/-- The same bytes, all received. -/
def regsRead (d : Device) (p : Byte) (n : Nat) : Received n := ⟨regsFrom d p n, regsFrom_length d p n⟩

theorem regsRead_congr {d d' : Device} (h : d'.regs = d.regs) (p : Byte) (n : Nat) : regsRead d' p n = regsRead d p n :=
  Subtype.ext (regsFrom_congr h p n)

theorem regsRead_succ (d : Device) (p : Byte) (n : Nat) :
    regsRead d p (n + 1) = Received.cons (d.regAt p) (regsRead d (p + 1) n) :=
  Subtype.ext (regsFrom_succ d p n)

theorem refEnv_recvAll {s : State} (h : ReferenceEnv s) (n : Nat) (hd : s.dev.dir = some .read)
    (hn : s.dev.ptr.toNat + n ≤ 256) :
    ∃ t, recvAll n s = (.ok (regsRead s.dev s.dev.ptr n), t) ∧ ReferenceEnv t ∧ t.dev.first = s.dev.first ∧
      (s.dev.ptr.toNat + n < 256 → t.dev.ptr.toNat = s.dev.ptr.toNat + n) := by
  induction n generalizing s with
  | zero => exact ⟨s, rfl, h, rfl, by simp⟩
  | succ n ih =>
    simp only [recvAll]
    rw [andThen_ok (refEnv_recv h _)]
    have hdev : (afterEvent (.rx (decide (n ≠ 0))) s).dev =
        { s.dev with ptr := nextPtr s.dev.ptr s.env.events } := by
      rw [refEnv_dev h (by simp)]; simp [deviceEffect, hd]
    cases n with
    | zero =>
      refine ⟨afterEvent (.rx false) s, by simp only [recvAll, andThen, regsRead_succ]; rfl, h.afterEvent _, ?_, fun hlt => ?_⟩
      · have := congrArg Device.first hdev
        simpa using this
      · have := congrArg Device.ptr hdev
        simp only [ne_eq, not_true_eq_false, decide_false] at this
        rw [this]
        exact nextPtr_toNat _ (by simpa using hlt)
    | succ m =>
      have hp := nextPtr_toNat (p := s.dev.ptr) s.env.events (by omega)
      obtain ⟨t, ht, hr, hft, hpt⟩ := ih (h.afterEvent (.rx (decide (m + 1 ≠ 0)))) (by rw [hdev]; exact hd)
        (by rw [hdev]; simp only [hp]; omega)
      have hnext : nextPtr s.dev.ptr s.env.events = s.dev.ptr + 1 := by
        apply BitVec.eq_of_toNat_eq
        rw [hp, BitVec.toNat_add, Nat.mod_eq_of_lt (by simpa using (by omega : s.dev.ptr.toNat + 1 < 256))]
        rfl
      have heq : regsRead (afterEvent (.rx (decide (m + 1 ≠ 0))) s).dev
          (afterEvent (.rx (decide (m + 1 ≠ 0))) s).dev.ptr (m + 1) =
          regsRead s.dev (s.dev.ptr + 1) (m + 1) := by
        rw [hdev, hnext]; exact regsRead_congr rfl _ _
      exact ⟨t, by rw [andThen_ok ht, regsRead_succ s.dev s.dev.ptr (m + 1), heq], hr,
        by rw [hft, hdev], fun hlt => by rw [hdev] at hpt; simp only [hp] at hpt; rw [hpt (by omega)]; omega⟩

/-- On the reference device a write transaction succeeds: its trace, and every byte stored (R58, R130). -/
theorem refEnv_memWrite {s : State} (h : ReferenceEnv s) (reg : Byte) (buf : List Byte)
    (hb : reg.toNat + buf.length ≤ 256) :
    ∃ t, memWrite reg buf s = (.ok (), t) ∧ ReferenceEnv t ∧ EventFrame s t ∧
      (s.busHeld = false → t.busHeld = false) ∧ StoredUpTo s.dev t.dev reg buf buf.length ∧
      t.tpInstalled = false ∧ t.dev.dir = none ∧
      (reg.toNat + buf.length < 256 → t.dev.ptr.toNat = reg.toNat + buf.length) ∧
      ∃ evs, t.trace = s.trace ++ evs ∧ AllOk evs ∧
        evs.map BusEvent.event =
          .acq s.cfg.busCfg :: writeEvents s.cfg.devAddr reg buf ++ [.stop, .rel] := by
  have h1 := (h.afterEvent (.acq s.cfg.busCfg)).setBusHeld true
  have h2 := h1.afterEvent (.start s.cfg.devAddr .write)
  have h3 := h2.afterEvent (.tx reg)
  have d1 : ((afterEvent (.acq s.cfg.busCfg) s).setBusHeld true).dev = s.dev := by
    rw [setBusHeld_dev, refEnv_dev h (by simp)]; rfl
  have d2 := refEnv_dev h1 (e := .start s.cfg.devAddr .write) (by simp)
  have d3 := refEnv_dev h2 (e := .tx reg) (by simp)
  simp only [d1, setBusHeld_cfg, afterEvent_cfg, deviceEffect, if_true] at d2
  simp only [d2, deviceEffect, if_true] at d3
  obtain ⟨u, hu, hru, -, hpu⟩ := refEnv_sendAll h3 buf (by rw [d3]) (by rw [d3]) (by rw [d3]; exact hb)
  rw [d3] at hpu
  have hm : writeFrame reg buf ((afterEvent (.acq s.cfg.busCfg) s).setBusHeld true) = (.ok (), u) := by
    simp only [writeFrame]
    rw [andThen_ok (m := startDev .write) (refEnv_send h1 (e := .start s.cfg.devAddr .write) (by simp) (by simp)),
      andThen_ok (refEnv_send h2 (e := .tx reg) (by simp) (by simp))]
    exact hu
  obtain ⟨t, ht, hrt, hit, hdt⟩ := refEnv_session h hm hru
  have ht' : memWrite reg buf s = (.ok (), t) := ht
  obtain ⟨hf, hh, evs, r, htr, hrun, hval⟩ := memWrite_run reg buf s
  obtain ⟨-, -, -, hst⟩ := memWrite_stores reg buf s hb
  rw [ht'] at hf hh htr hval hst
  refine ⟨t, ht', hrt, hf, hh, hst rfl, hit, by rw [hdt], by rw [hdt]; exact hpu, evs, htr, ?_⟩
  cases hrun with
  | acquireFails f => exact hval.elim
  | frameFails => exact hval.elim
  | stopFails => exact hval.elim
  | releaseFails => exact hval.elim
  | succeeds body hbody hok =>
    constructor
    · intro e he
      simp only [List.cons_append, List.mem_cons, List.mem_append, List.not_mem_nil, or_false] at he
      rcases he with rfl | he | rfl | rfl
      · rfl
      · exact hok e he
      · rfl
      · rfl
    · simp [hbody]

/-- On the reference device a read transaction succeeds with what the registers hold (R58, R131). -/
theorem refEnv_memRead {s : State} (h : ReferenceEnv s) (reg : Byte) (len : Nat)
    (hb : reg.toNat + len ≤ 256) :
    ∃ t, memRead reg len s = (.ok (regsRead s.dev reg len), t) ∧ ReferenceEnv t ∧ EventFrame s t ∧
      (s.busHeld = false → t.busHeld = false) ∧ t.dev.regs = s.dev.regs ∧
      t.tpInstalled = false ∧ t.dev.dir = none ∧
      (reg.toNat + len < 256 → t.dev.ptr.toNat = reg.toNat + len) ∧
      ∃ evs, t.trace = s.trace ++ evs ∧ AllOk evs ∧
        evs.map BusEvent.event =
          .acq s.cfg.busCfg :: readEvents s.cfg.devAddr reg len ++ [.stop, .rel] := by
  have h1 := (h.afterEvent (.acq s.cfg.busCfg)).setBusHeld true
  have h2 := h1.afterEvent (.start s.cfg.devAddr .write)
  have h3 := h2.afterEvent (.tx reg)
  have h4 := h3.afterEvent (.start s.cfg.devAddr .read)
  have d1 : ((afterEvent (.acq s.cfg.busCfg) s).setBusHeld true).dev = s.dev := by
    rw [setBusHeld_dev, refEnv_dev h (by simp)]; rfl
  have d2 := refEnv_dev h1 (e := .start s.cfg.devAddr .write) (by simp)
  have d3 := refEnv_dev h2 (e := .tx reg) (by simp)
  have d4 := refEnv_dev h3 (e := .start s.cfg.devAddr .read) (by simp)
  simp only [d1, setBusHeld_cfg, afterEvent_cfg, deviceEffect, if_true] at d2
  simp only [d2, deviceEffect, if_true] at d3
  simp only [d3, afterEvent_cfg, setBusHeld_cfg, deviceEffect, if_true] at d4
  obtain ⟨w, hw, hrw, -, hpw⟩ := refEnv_recvAll h4 len (by rw [d4]) (by rw [d4]; exact hb)
  rw [d4] at hpw
  rw [d4, regsRead_congr (d := s.dev) (d' := ⟨s.dev.regs, reg, some .read, false⟩) rfl] at hw
  have hm : readFrame reg len ((afterEvent (.acq s.cfg.busCfg) s).setBusHeld true) =
      (.ok (regsRead s.dev reg len), w) := by
    simp only [readFrame]
    rw [andThen_ok (m := startDev .write) (refEnv_send h1 (e := .start s.cfg.devAddr .write) (by simp) (by simp)),
      andThen_ok (refEnv_send h2 (e := .tx reg) (by simp) (by simp)),
      andThen_ok (m := startDev .read) (refEnv_send h3 (e := .start s.cfg.devAddr .read) (by simp) (by simp))]
    exact hw
  obtain ⟨t, ht, hrt, hit, hdt⟩ := refEnv_session h hm hrw
  have ht' : memRead reg len s = (.ok (regsRead s.dev reg len), t) := ht
  obtain ⟨hf, hh, evs, r, htr, hrun, hval⟩ := memRead_run reg len s
  have hregs' := memRead_regs reg len s
  rw [ht'] at hf hh htr hval hregs'
  refine ⟨t, ht', hrt, hf, hh, hregs', hit, by rw [hdt], by rw [hdt]; exact hpw, evs, htr, ?_⟩
  cases hrun with
  | acquireFails f => exact hval.elim
  | frameFails => exact hval.elim
  | stopFails => exact hval.elim
  | releaseFails => exact hval.elim
  | succeeds body hbody hok =>
    constructor
    · intro e he
      simp only [List.cons_append, List.mem_cons, List.mem_append, List.not_mem_nil, or_false] at he
      rcases he with rfl | he | rfl | rfl
      · rfl
      · exact hok e he
      · rfl
      · rfl
    · simp [hbody]

end Sys2Proof.Machine
end

