-- ==== Sys2Proof/Laws/Commands.lean ====
section
/-! SUPPORT. What the pieces of the device-level commands can do: the (implicit) initialisation, the
time-block transfers, and what ending a command leaves. -/

namespace Sys2Proof.Machine

/-- What no piece of a command changes but the host clock's two. -/
structure Keeps (s t : State) : Prop where
  cfg        : t.cfg = s.cfg
  responses  : t.responses = s.responses
  inbox      : t.inbox = s.inbox
  mode       : t.env.mode = s.env.mode
  busHeld    : s.busHeld = false → t.busHeld = false
  hostEpoch  : t.hostEpoch = s.hostEpoch
  hostScript : t.env.hostScript = s.env.hostScript
  hostReads  : t.env.hostReads = s.env.hostReads

theorem Keeps.refl (s : State) : Keeps s s := by constructor <;> first | rfl | exact id

theorem Keeps.trans {s t u : State} (h : Keeps s t) (k : Keeps t u) : Keeps s u where
  cfg := k.cfg.trans h.cfg
  responses := k.responses.trans h.responses
  inbox := k.inbox.trans h.inbox
  mode := k.mode.trans h.mode
  busHeld := fun x => k.busHeld (h.busHeld x)
  hostEpoch := k.hostEpoch.trans h.hostEpoch
  hostScript := k.hostScript.trans h.hostScript
  hostReads := k.hostReads.trans h.hostReads

theorem EventFrame.keeps {s t : State} (h : EventFrame s t) (hb : s.busHeld = false → t.busHeld = false) :
    Keeps s t :=
  ⟨h.cfg, h.responses, h.inbox, h.mode, hb, h.hostEpoch, h.hostScript, h.hostReads⟩

theorem setReady_keeps (s : State) : Keeps s s.setReady := by constructor <;> first | rfl | exact id

/-! ## Ending a command -/

theorem respond_idle (r : Result) (s : State) : ControllerIdle (respond r s) := by constructor <;> rfl

/-- Ending a command after pieces that keep what `Keeps` says leaves the command's frame. -/
theorem Keeps.respond {s u : State} (h : Keeps s u) (r : Result) : CommandFrame s (respond r u) :=
  ⟨respond_idle r u, h.cfg, h.inbox, h.mode, h.busHeld⟩

/-- The result of a command as the response reads it. -/
def resultOf : Except CmdError Payload → Result
  | .ok p => .ok p
  | .error e => .err e

theorem complete_eq (x : Except CmdError Payload × State) : complete x = respond (resultOf x.1) x.2 := by
  rcases x with ⟨r, s⟩
  cases r <;> rfl

theorem respond_eq_delivered (r : Result) (s : State) : respond r s = delivered s r.response := rfl

theorem errorResponse_eq (e : CmdError) : (Result.err e).response = errorResponse e := rfl

/-! ## Transactions under their error names -/

theorem asBusError_snd {α : Type} (m : Act Cause α) (s : State) : (asBusError m s).2 = (m s).2 := by
  simp only [asBusError]; split <;> simp [*]

theorem asInitError_snd {α : Type} (m : Act Cause α) (s : State) : (asInitError m s).2 = (m s).2 := by
  simp only [asInitError]; split <;> simp [*]

theorem asBusError_fst {α : Type} (m : Act Cause α) (s : State) : (asBusError m s).1 =
    match (m s).1 with | .ok a => .ok a | .error c => .error (.busError c) := by
  simp only [asBusError]; split <;> simp [*]

/-- Everything a write transaction can do, on the bus and in the device, over one trace (R63, R130). -/
theorem memWrite_leaves (reg : Byte) (buf : List Byte) (s : State) :
    EventFrame s (memWrite reg buf s).2 ∧ (s.busHeld = false → (memWrite reg buf s).2.busHeld = false) ∧
    ∃ evs r, (memWrite reg buf s).2.trace = s.trace ++ evs ∧
      TxnRun s.cfg.busCfg (writeEvents s.cfg.devAddr reg buf) evs r ∧
      TxnValue (fun _ bs => bs = []) (memWrite reg buf s).1 r ∧
      WriteLeaves reg buf s.dev evs (memWrite reg buf s).2.dev := by
  obtain ⟨f, b, evs, r, ht, hr, hv⟩ := memWrite_run reg buf s
  refine ⟨f, b, evs, r, ht, hr, hv, fun hb => ?_⟩
  obtain ⟨evs', ht', hn, -⟩ := memWrite_stores reg buf s hb
  obtain rfl : evs = evs' := List.append_cancel_left (ht.symm.trans ht')
  exact hn

/-- The same of a read transaction, which leaves the registers as they were (R131). -/
theorem memRead_leaves (reg : Byte) (len : Nat) (s : State) :
    EventFrame s (memRead reg len s).2 ∧ (s.busHeld = false → (memRead reg len s).2.busHeld = false) ∧
    ∃ evs r, (memRead reg len s).2.trace = s.trace ++ evs ∧
      TxnRun s.cfg.busCfg (readEvents s.cfg.devAddr reg len) evs r ∧
      TxnValue (fun (bs : Received len) x => x = bs.1) (memRead reg len s).1 r ∧
      ReadLeaves s.dev evs (memRead reg len s).2.dev := by
  obtain ⟨f, b, evs, r, ht, hr, hv⟩ := memRead_run reg len s
  exact ⟨f, b, evs, r, ht, hr, hv, Device.regAt_congr (memRead_regs reg len s)⟩

theorem SameRegs.refl (d : Device) : SameRegs d d := fun _ => rfl

/-! ## Initialisation -/

/-- Everything ENSURE_INIT can do, explicit or implicit (R182 to R185, R187). -/
theorem ensureInit_run (mode : Byte) (s : State) :
    Keeps s (ensureInit mode s).2 ∧ ∃ evs r, (ensureInit mode s).2.trace = s.trace ++ evs ∧
      ReadyRun s mode evs r (ensureInit mode s).2.initState (ensureInit mode s).2.dev ∧
      (ensureInit mode s).1 = match r with | .ok _ => .ok () | .error c => .error (.initError c) := by
  simp only [ensureInit, ReadyRun]
  cases hi : s.initState with
  | ready => exact ⟨Keeps.refl s, [], .ok (), by simp, ⟨rfl, rfl, hi, SameRegs.refl _⟩, rfl⟩
  | uninitialized =>
    simp only [initialise]
    obtain ⟨f1, b1, evs, r, t1, n1, v1, l1⟩ := memWrite_leaves s.cfg.addrControl1 [control1Value] s
    have k1 := f1.keeps b1
    rcases hm : memWrite s.cfg.addrControl1 [control1Value] s with ⟨x, u⟩
    rw [hm] at f1 k1 t1 v1 l1
    cases x with
    | error c =>
      have ha : asInitError (fun s => memWrite s.cfg.addrControl1 [control1Value] s) s = (.error (.initError c), u) := by
        simp [asInitError, hm]
      rw [andThen_error ha]
      cases r with
      | ok bs => exact v1.elim
      | error d =>
        obtain rfl : c = d := v1
        exact ⟨k1, evs, .error c, t1, ⟨.firstFails evs c _ n1 l1, f1.initState.trans hi⟩, rfl⟩
    | ok x =>
      have ha : asInitError (fun s => memWrite s.cfg.addrControl1 [control1Value] s) s = (.ok (), u) := by
        simp [asInitError, hm]
      rw [andThen_ok ha]
      cases r with
      | error d => exact v1.elim
      | ok bs =>
        obtain ⟨f2, b2, evs', r', t2, n2, v2, l2⟩ := memWrite_leaves u.cfg.addrControl2 [control2Value mode] u
        have k2 := f2.keeps b2
        rcases hm' : memWrite u.cfg.addrControl2 [control2Value mode] u with ⟨y, w⟩
        rw [hm'] at f2 k2 t2 v2 l2
        rw [f1.cfg] at n2 l2
        cases y with
        | error c =>
          have hb : asInitError (fun s => memWrite s.cfg.addrControl2 [control2Value mode] s) u =
              (.error (.initError c), w) := by simp [asInitError, hm']
          rw [andThen_error hb]
          cases r' with
          | ok bs' => exact v2.elim
          | error d =>
            obtain rfl : c = d := v2
            exact ⟨k1.trans k2, evs ++ evs', .error c, by rw [t2, t1, List.append_assoc],
              ⟨.secondFails evs evs' bs c _ _ n1 l1 n2 l2, (f2.initState.trans f1.initState).trans hi⟩, rfl⟩
        | ok y =>
          have hb : asInitError (fun s => memWrite s.cfg.addrControl2 [control2Value mode] s) u = (.ok (), w) := by
            simp [asInitError, hm']
          rw [andThen_ok hb]
          cases r' with
          | error d => exact v2.elim
          | ok bs' =>
            exact ⟨(k1.trans k2).trans (setReady_keeps w), evs ++ evs', .ok (),
              by rw [setReady_trace, t2, t1, List.append_assoc], ⟨.succeeds evs evs' bs bs' _ _ n1 l1 n2 l2, rfl⟩, rfl⟩

/-- A transaction after the implicit initialisation. -/
theorem afterReady_run {α : Type} (s : State) (m : Act Cause α) (frame : List TpEvent)
    (leaves : Device → List BusEvent → Device → Prop) (val : α → List Byte → Prop)
    (hm : ∀ u : State, u.cfg = s.cfg → EventFrame u (m u).2 ∧ (u.busHeld = false → (m u).2.busHeld = false) ∧
      ∃ evs r, (m u).2.trace = u.trace ++ evs ∧ TxnRun s.cfg.busCfg frame evs r ∧ TxnValue val (m u).1 r ∧
        leaves u.dev evs (m u).2.dev) :
    let x := andThen ensureReady (fun _ => asBusError m) s
    Keeps s x.2 ∧ ∃ evs q, x.2.trace = s.trace ++ evs ∧ TimeRun s frame leaves evs x.2.initState q x.2.dev ∧
      match q with
      | .error e => x.1 = .error e
      | .ok bs => ∃ a, x.1 = .ok a ∧ val a bs := by
  intro x
  obtain ⟨k0, evs0, r, t0, n0, v0⟩ := ensureInit_run s.cfg.initModeDefault s
  have hx : x = andThen ensureReady (fun _ => asBusError m) s := rfl
  rcases he : ensureInit s.cfg.initModeDefault s with ⟨y, u⟩
  have he' : ensureReady s = (y, u) := he
  rw [he] at k0 t0 n0 v0
  cases r with
  | error c =>
    simp only at v0
    subst v0
    rw [andThen_error he'] at hx
    rw [hx]
    exact ⟨k0, evs0, .error (.initError c), t0, ⟨evs0, .error c, _, n0, rfl, rfl, SameRegs.refl _⟩, rfl⟩
  | ok _ =>
    simp only at v0
    subst v0
    rw [andThen_ok he'] at hx
    obtain ⟨f1, b1, evs1, r1, t1, n1, v1, l1⟩ := hm u k0.cfg
    have hx1 : x.2 = (m u).2 := by rw [hx, asBusError_snd]
    have hx2 := congrArg Prod.fst hx
    rw [asBusError_fst] at hx2
    rw [hx1]
    have hst : (m u).2.initState = u.initState := f1.initState
    have htr : (m u).2.trace = s.trace ++ (evs0 ++ evs1) := by rw [t1, t0, List.append_assoc]
    have n0' : ReadyRun s s.cfg.initModeDefault evs0 (.ok ()) (m u).2.initState u.dev := by rw [hst]; exact n0
    cases r1 with
    | error d =>
      refine ⟨k0.trans (f1.keeps b1), evs0 ++ evs1, .error (.busError d), htr,
        ⟨evs0, .ok (), _, n0', evs1, .error d, n1, rfl, l1, rfl⟩, ?_⟩
      rcases hmu : (m u).1 with c | a
      · rw [hmu] at v1 hx2
        obtain rfl : c = d := v1
        exact hx2
      · rw [hmu] at v1
        exact v1.elim
    | ok bs =>
      refine ⟨k0.trans (f1.keeps b1), evs0 ++ evs1, .ok bs, htr,
        ⟨evs0, .ok (), _, n0', evs1, .ok bs, n1, rfl, l1, rfl⟩, ?_⟩
      rcases hmu : (m u).1 with c | a
      · rw [hmu] at v1
        exact v1.elim
      · rw [hmu] at v1 hx2
        exact ⟨a, hx2, v1⟩

/-- The image of seven received bytes is those bytes (R196). -/
theorem imageBytes_imageOfBytes (bs : Received timeBlockLen) : imageBytes (imageOfBytes bs) = bs.1 := by
  obtain ⟨bs, h⟩ := bs
  match bs, h with
  | [_, _, _, _, _, _, _], _ => rfl

theorem imageBytes_injective {img img' : RegisterImage} (h : imageBytes img = imageBytes img') : img = img' := by
  cases img; cases img'
  simpa [imageBytes] using h

/-- Everything the reading half of GET_DATETIME can do (R196). -/
theorem getImage_run (s : State) :
    Keeps s (getImage s).2 ∧ ∃ evs q, (getImage s).2.trace = s.trace ++ evs ∧
      TimeRun s (readEvents s.cfg.devAddr s.cfg.addrTimeBlock 7) ReadLeaves evs (getImage s).2.initState q
        (getImage s).2.dev ∧
      match q with
      | .error e => (getImage s).1 = .error e
      | .ok bs => ∃ img, imageBytes img = bs ∧ (getImage s).1 = .ok img := by
  have h := afterReady_run s (fun u => memRead u.cfg.addrTimeBlock timeBlockLen u)
    (readEvents s.cfg.devAddr s.cfg.addrTimeBlock 7) ReadLeaves (fun bs x => x = bs.1) (by
      intro u hu
      have := memRead_leaves u.cfg.addrTimeBlock timeBlockLen u
      rw [hu] at this ⊢
      exact this)
  simp only at h
  obtain ⟨k, evs, q, ht, hn, hv⟩ := h
  have hsplit : getImage s = match andThen ensureReady (fun _ => asBusError fun u => memRead u.cfg.addrTimeBlock timeBlockLen u) s with
      | (.ok bs, t) => (.ok (imageOfBytes bs), t)
      | (.error e, t) => (.error e, t) := by
    simp only [getImage]
    rcases he : ensureReady s with ⟨y, u⟩
    cases y with
    | error e => rw [andThen_error he, andThen_error he]
    | ok y =>
      rw [andThen_ok he, andThen_ok he]
      simp only [readTimeBlock, andThen, asBusError]
      split <;> simp [*]
  rcases hx : andThen ensureReady (fun _ => asBusError fun u => memRead u.cfg.addrTimeBlock timeBlockLen u) s with ⟨r, t⟩
  rw [hx] at k ht hn hv hsplit
  cases q with
  | error e =>
    simp only at hv; subst hv
    rw [hsplit]
    exact ⟨k, evs, .error e, ht, hn, rfl⟩
  | ok bs =>
    obtain ⟨a, rfl, rfl⟩ := hv
    rw [hsplit]
    exact ⟨k, evs, .ok _, ht, hn, imageOfBytes a, imageBytes_imageOfBytes a, rfl⟩

/-- Everything SET_DATETIME can do on a valid operand (R200). -/
theorem setDateTime_run (ct : CalendarTime) (s : State) (hv : Valid s.cfg.dayMax ct) :
    Keeps s (setDateTime ct s).2 ∧ ∃ evs q, (setDateTime ct s).2.trace = s.trace ++ evs ∧
      TimeRun s (writeEvents s.cfg.devAddr s.cfg.addrTimeBlock (imageBytes (imageOf ct)))
        (WriteLeaves s.cfg.addrTimeBlock (imageBytes (imageOf ct))) evs (setDateTime ct s).2.initState q
        (setDateTime ct s).2.dev ∧
      (setDateTime ct s).1 = match q with | .error e => .error e | .ok _ => .ok .unit := by
  have h := afterReady_run s (fun u => memWrite u.cfg.addrTimeBlock (imageBytes (imageOf ct)) u)
    (writeEvents s.cfg.devAddr s.cfg.addrTimeBlock (imageBytes (imageOf ct)))
    (WriteLeaves s.cfg.addrTimeBlock (imageBytes (imageOf ct))) (fun _ bs => bs = []) (by
      intro u hu
      have := memWrite_leaves u.cfg.addrTimeBlock (imageBytes (imageOf ct)) u
      rw [hu] at this ⊢
      exact this)
  simp only at h
  obtain ⟨k, evs, q, ht, hn, hq⟩ := h
  have hsplit : setDateTime ct s = match andThen ensureReady (fun _ => asBusError fun u =>
        memWrite u.cfg.addrTimeBlock (imageBytes (imageOf ct)) u) s with
      | (.ok _, t) => (.ok .unit, t)
      | (.error e, t) => (.error e, t) := by
    have he : encodeAct ct s = (.ok (imageOf ct), s) := by simp [encodeAct, encodeCalendar, hv]
    simp only [setDateTime]
    rw [andThen_ok he]
    rcases he : ensureReady s with ⟨y, u⟩
    cases y with
    | error e => rw [andThen_error he, andThen_error he]
    | ok y =>
      rw [andThen_ok he, andThen_ok he]
      simp only [writeTimeBlock, andThen, asBusError]
      split <;> simp [*]
  rcases hx : andThen ensureReady (fun _ => asBusError fun u =>
      memWrite u.cfg.addrTimeBlock (imageBytes (imageOf ct)) u) s with ⟨r, t⟩
  rw [hx] at k ht hn hq hsplit
  cases q with
  | error e =>
    simp only at hq; subst hq
    rw [hsplit]
    exact ⟨k, evs, .error e, ht, hn, rfl⟩
  | ok bs =>
    obtain ⟨a, rfl, rfl⟩ := hq
    rw [hsplit]
    exact ⟨k, evs, .ok [], ht, hn, rfl⟩

/-- SET_DATETIME on an invalid operand stops before anything else (R152, R200). -/
theorem setDateTime_invalid (ct : CalendarTime) (s : State) (hv : ¬ Valid s.cfg.dayMax ct) :
    setDateTime ct s = (.error .invalidDateTime, s) := by
  have he : encodeAct ct s = (.error .invalidDateTime, s) := by
    simp only [encodeAct, encodeCalendar, if_neg hv]
  simp only [setDateTime]
  rw [andThen_error he]

end Sys2Proof.Machine
end

