-- ==== Sys2Proof/Laws/Codec.lean ====
section
/-! SUPPORT. The codec in plain arithmetic (R88 to R91, R153, R160), and its round trip (R165). -/

namespace Sys2Proof.Machine

/-! ## One field -/

theorem bcd8_toNat {v : Nat} (h : v < 100) : (bcd8 v).toNat = 16 * (v / 10) + v % 10 := by
  have : ∀ v : Fin 100, (bcd8 v).toNat = 16 * (v.val / 10) + v.val % 10 := by decide
  exact this ⟨v, h⟩

theorem bcd8_eq_digits {v : Nat} (h : v < 100) : bcd8 v = digits v := by
  apply BitVec.eq_of_toNat_eq
  rw [bcd8_toNat h, digits, BitVec.toNat_ofNat]
  omega

theorem toNat_and_low (b : Byte) {m : Byte} (k : Nat) (hm : m.toNat = 2 ^ k - 1) :
    (b &&& m).toNat = b.toNat % 2 ^ k := by
  rw [BitVec.toNat_and, hm, Nat.and_two_pow_sub_one_eq_mod]

/-- `unbcd` with a mask of `k` ones for the tens (R89). -/
theorem unbcd_eq (b : Byte) {m : Byte} (k : Nat) (hm : m.toNat = 2 ^ k - 1) :
    unbcd b m = fieldValue b (2 ^ k) := by
  have h1 := toNat_and_low (b >>> 4) k hm
  have h2 : (b &&& 0x0F).toNat = b.toNat % 16 := toNat_and_low b (m := 0x0F) 4 rfl
  have h3 : (b >>> 4).toNat = b.toNat / 16 := by
    rw [BitVec.toNat_ushiftRight, Nat.shiftRight_eq_div_pow]
  simp only [unbcd, fieldValue, h1, h2, h3]

theorem fieldValue_digits {v tens : Nat} (h : v < 10 * tens) (h100 : v < 100) :
    fieldValue (digits v) tens = v := by
  have : (digits v).toNat = 16 * (v / 10) + v % 10 := by
    rw [digits, BitVec.toNat_ofNat]; omega
  have hd : (16 * (v / 10) + v % 10) / 16 = v / 10 := by omega
  rw [fieldValue, this, hd, Nat.mod_eq_of_lt (by omega)]
  omega

theorem testBit7 (b : Byte) : b.getLsbD 7 = decide (128 ≤ b.toNat) := by
  have := BitVec.msb_eq_decide b
  rw [BitVec.msb_eq_getLsbD_last] at this
  simpa using this

/-! ## DECODE -/

/-- DECODE in plain arithmetic (R160). -/
theorem decodeImage_eq (img : RegisterImage) : decodeImage img = timeValue img := by
  have hw := toNat_and_low img.weekday (m := 0x07) 3 rfl
  simp only [decodeImage, unbcd_eq _ 3 (m := 0x7) rfl, unbcd_eq _ 2 (m := 0x3) rfl,
    unbcd_eq _ 1 (m := 0x1) rfl, unbcd_eq _ 4 (m := 0xF) rfl, centuryFlag, testBit7, timeValue, yearValue, hw]
  congr 1
  by_cases h : 128 ≤ img.month.toNat <;> simp [h]

theorem byteOfInt_natCast (n : Nat) : byteOfInt (n : Int) = BitVec.ofNat 8 n := by
  simp [byteOfInt]

/-- DECODE's response (R104 to R107). -/
theorem decoded_response (img : RegisterImage) : (Result.ok (decodedPayload img)).response = timeResponse img := by
  have hdiv : ((yearValue img : Nat) : Int) / 256 = ((yearValue img / 256 : Nat) : Int) := by omega
  simp only [Result.response, decodedPayload, Payload.aux, Payload.data, decodeImage_eq, timeValue, calendarBytes,
    byteOfInt_natCast, hdiv, timeResponse, integrityFlag, testBit7]
  by_cases h : 128 ≤ img.second.toNat <;> simp [h, flagByte]

/-! ## ENCODE -/

/-- A two-digit byte inside its mask is unchanged by it (R155). -/
theorem and_low_of_lt (b : Byte) {m : Byte} (k : Nat) (hm : m.toNat = 2 ^ k - 1) (h : b.toNat < 2 ^ k) :
    b &&& m = b := by
  apply BitVec.eq_of_toNat_eq
  rw [toNat_and_low b k hm, Nat.mod_eq_of_lt h]

theorem digits_and {v : Nat} {m : Byte} (k : Nat) (hm : m.toNat = 2 ^ k - 1) (hv : v < 100)
    (h : 16 * (v / 10) + v % 10 < 2 ^ k) : bcd8 v &&& m = digits v := by
  rw [and_low_of_lt _ k hm (by rw [bcd8_toNat hv]; exact h), bcd8_eq_digits hv]

/-- The bounds of a valid time as natural numbers. -/
theorem Valid.toNat {dm : DayMax} {ct : CalendarTime} (h : Valid dm ct) :
    ct.second.toNat ≤ 59 ∧ ct.minute.toNat ≤ 59 ∧ ct.hour.toNat ≤ 23 ∧
    (1 ≤ ct.day.toNat ∧ ct.day.toNat ≤ 32) ∧ ct.weekday.toNat ≤ 6 ∧
    (1 ≤ ct.month.toNat ∧ ct.month.toNat ≤ 12) ∧ (1900 ≤ ct.year.toNat ∧ ct.year.toNat ≤ 2099) := by
  obtain ⟨h1, h2, h3, h4, h5, h6, h7⟩ := h
  have : dayMaxInt dm ≤ 32 := by cases dm <;> decide
  omega

theorem yearDigits_eq {year : Int} (h : 1900 ≤ year ∧ year ≤ 2099) : yearDigits year = year.toNat % 100 := by
  by_cases hc : 2000 ≤ year
  · simp only [yearDigits, centuryOfYear, decide_eq_true hc, if_true]; omega
  · simp only [yearDigits, centuryOfYear, decide_eq_false hc, Bool.false_eq_true, if_false]; omega

theorem month_century {v : Nat} (h : v ≤ 12) : (bcd8 v &&& 0x1F) ||| centuryBit true = 128 + digits v := by
  have : ∀ v : Fin 13, (bcd8 v &&& 0x1F) ||| centuryBit true = 128 + digits v := by decide
  exact this ⟨v, by omega⟩

/-- ENCODE in decimal digits (R153, R155). -/
theorem imageOf_digits {dm : DayMax} {ct : CalendarTime} (h : Valid dm ct) :
    imageBytes (imageOf ct) = digitImage ct := by
  obtain ⟨h1, h2, h3, h4, h5, h6, h7⟩ := h.toNat
  have hy := yearDigits_eq h.2.2.2.2.2.2
  have hmonth : (bcd8 ct.month.toNat &&& 0x1F) ||| centuryBit (centuryOfYear ct.year) =
      if ct.year < 2000 then digits ct.month.toNat else 128 + digits ct.month.toNat := by
    by_cases hc : ct.year < 2000
    · have : centuryOfYear ct.year = false := by simp [centuryOfYear]; omega
      rw [this, if_pos hc, digits_and 5 rfl (by omega) (by omega)]
      simp [centuryBit, flagByte]
    · have : centuryOfYear ct.year = true := by simp [centuryOfYear]; omega
      rw [this, if_neg hc, month_century h6.2]
  simp only [imageBytes, imageOf, digitImage, hmonth, hy, digits_and 7 (m := 0x7F) rfl (by omega : ct.second.toNat < 100) (by omega),
    digits_and 7 (m := 0x7F) rfl (by omega : ct.minute.toNat < 100) (by omega),
    digits_and 6 (m := 0x3F) rfl (by omega : ct.hour.toNat < 100) (by omega),
    digits_and 6 (m := 0x3F) rfl (by omega : ct.day.toNat < 100) (by omega),
    digits_and 3 (m := 0x07) rfl (by omega : ct.weekday.toNat < 100) (by omega),
    bcd8_eq_digits (by omega : ct.year.toNat % 100 < 100)]

/-- The fields of a valid time's image, in decimal digits. -/
theorem imageOf_eq {dm : DayMax} {ct : CalendarTime} (h : Valid dm ct) : imageOf ct =
    ⟨digits ct.second.toNat, digits ct.minute.toNat, digits ct.hour.toNat, digits ct.day.toNat,
      digits ct.weekday.toNat,
      if ct.year < 2000 then digits ct.month.toNat else 128 + digits ct.month.toNat,
      digits (ct.year.toNat % 100)⟩ := by
  have := imageOf_digits h
  simp only [imageBytes, digitImage, List.cons.injEq, and_true] at this
  obtain ⟨h1, h2, h3, h4, h5, h6, h7⟩ := this
  cases hi : imageOf ct
  simp only [hi] at h1 h2 h3 h4 h5 h6 h7
  subst h1 h2 h3 h4 h5 h6 h7
  rfl

theorem digits_toNat {v : Nat} (h : v < 100) : (digits v).toNat = 16 * (v / 10) + v % 10 := by
  rw [← bcd8_eq_digits h, bcd8_toNat h]

theorem digits_century_toNat {v : Nat} (h : v < 80) : (128 + digits v : Byte).toNat = 128 + 16 * (v / 10) + v % 10 := by
  have h1 := digits_toNat (v := v) (by omega)
  rw [BitVec.toNat_add, h1]
  simp
  omega

/-- Round trip (R165), and the integrity flag is clear (R154). -/
theorem decode_imageOf {dm : DayMax} {ct : CalendarTime} (h : Valid dm ct) :
    decodeImage (imageOf ct) = ct ∧ integrityFlag (imageOf ct) = false := by
  have hN := h.toNat
  obtain ⟨v1, v2, v3, v4, v5, v6, v7⟩ := h
  obtain ⟨h1, h2, h3, h4, h5, h6, h7⟩ := hN
  rw [imageOf_eq ⟨v1, v2, v3, v4, v5, v6, v7⟩, decodeImage_eq]
  have hs := fieldValue_digits (tens := 8) (by omega : ct.second.toNat < _) (by omega)
  have hm := fieldValue_digits (tens := 8) (by omega : ct.minute.toNat < _) (by omega)
  have hh := fieldValue_digits (tens := 4) (by omega : ct.hour.toNat < _) (by omega)
  have hd := fieldValue_digits (tens := 4) (by omega : ct.day.toNat < _) (by omega)
  have hw := digits_toNat (v := ct.weekday.toNat) (by omega)
  have hmo := fieldValue_digits (tens := 2) (by omega : ct.month.toNat < _) (by omega)
  have hy := fieldValue_digits (tens := 16) (by omega : ct.year.toNat % 100 < _) (by omega)
  have hmd := digits_toNat (v := ct.month.toNat) (by omega)
  have hmc := digits_century_toNat (v := ct.month.toNat) (by omega)
  constructor
  · simp only [timeValue, yearValue, hs, hm, hh, hd, hy, hw]
    have hmonth : fieldValue (if ct.year < 2000 then digits ct.month.toNat else 128 + digits ct.month.toNat) 2 =
        ct.month.toNat := by
      split
      · exact hmo
      · simp only [fieldValue, hmc]; omega
    have hcent : (if 128 ≤ (if ct.year < 2000 then digits ct.month.toNat else 128 + digits ct.month.toNat).toNat
        then 100 else 0) = if ct.year < 2000 then 0 else 100 := by
      by_cases hc : ct.year < 2000
      · simp only [if_pos hc, hmd]; rw [if_neg (by omega)]
      · simp only [if_neg hc, hmc]; rw [if_pos (by omega)]
    rw [hmonth, hcent]
    rcases ct with ⟨a, b, c, d, e, f, g⟩
    simp only at v1 v2 v3 v4 v5 v6 v7 h5 ⊢
    simp only [CalendarTime.mk.injEq]
    refine ⟨by omega, by omega, by omega, by omega, by omega, by omega, ?_⟩
    split <;> omega
  · have := digits_toNat (v := ct.second.toNat) (by omega)
    simp only [integrityFlag, testBit7, this, decide_eq_false_iff_not]
    omega

/-- What ENCODE answers when it answers an image (R153). -/
theorem encode_ok {dm ct img} (h : encodeCalendar dm ct = .ok img) : Valid dm ct ∧ img = imageOf ct := by
  simp only [encodeCalendar] at h
  split at h
  · rename_i hv; cases h; exact ⟨hv, rfl⟩
  · cases h

/-- An image that ENCODE gives is canonical (R154, R155). -/
theorem canonical_imageOf {dm ct} (h : Valid dm ct) : CanonicalImage dm (imageOf ct) := by
  have hd := (decode_imageOf h).1
  have hN := h.toNat
  obtain ⟨h1, h2, h3, h4, h5, h6, h7⟩ := hN
  refine ⟨by rw [← decodeImage_eq, hd]; exact h, ?_⟩
  rw [imageOf_eq h]
  have a1 := digits_toNat (v := ct.second.toNat) (by omega)
  have a2 := digits_toNat (v := ct.minute.toNat) (by omega)
  have a3 := digits_toNat (v := ct.hour.toNat) (by omega)
  have a4 := digits_toNat (v := ct.day.toNat) (by omega)
  have a5 := digits_toNat (v := ct.weekday.toNat) (by omega)
  have a6 := digits_toNat (v := ct.month.toNat) (by omega)
  have a6' := digits_century_toNat (v := ct.month.toNat) (by omega)
  have a7 := digits_toNat (v := ct.year.toNat % 100) (by omega)
  simp only
  have hm : (if ct.year < 2000 then digits ct.month.toNat else 128 + digits ct.month.toNat).toNat % 128 =
      16 * (ct.month.toNat / 10) + ct.month.toNat % 10 := by
    split
    · rw [a6]; omega
    · rw [a6']; omega
  refine ⟨⟨by omega, by omega, by omega, by omega, by omega, by omega, by omega⟩, by omega, by omega, by omega, by omega, by omega, by omega⟩

/-- A byte of two decimal digits is the digits of its value. -/
theorem digits_field {b : Byte} {tens : Nat} (h1 : b.toNat % 16 ≤ 9) (h2 : b.toNat / 16 < tens) (h3 : b.toNat / 16 ≤ 9) :
    digits (fieldValue b tens) = b := by
  apply BitVec.eq_of_toNat_eq
  rw [digits_toNat (by rw [fieldValue, Nat.mod_eq_of_lt h2]; omega), fieldValue, Nat.mod_eq_of_lt h2]
  omega

/-- A canonical image is the image of its time (R165). -/
theorem imageOf_time {dm img} (h : CanonicalImage dm img) : imageOf (timeValue img) = img := by
  obtain ⟨hv, ⟨u1, u2, u3, u4, u5, u6, u7⟩, n1, n2, n3, n4, n5, n6⟩ := h
  rw [imageOf_eq hv]
  have hN := hv
  obtain ⟨v1, v2, v3, v4, v5, v6, v7⟩ := hN
  rcases img with ⟨s, m, h, d, w, mo, y⟩
  simp only [timeValue] at *
  simp only [RegisterImage.mk.injEq, Int.toNat_natCast]
  refine ⟨digits_field u1 (by omega) (by omega), digits_field u2 (by omega) (by omega), digits_field u3 (by omega) (by omega),
    digits_field u4 (by omega) (by omega), ?_, ?_, ?_⟩
  · apply BitVec.eq_of_toNat_eq
    rw [digits_toNat (by omega)]
    omega
  · have hf := digits_toNat (v := fieldValue mo 2) (by simp only [fieldValue]; omega)
    have hlow : mo.toNat % 128 = 16 * (fieldValue mo 2 / 10) + fieldValue mo 2 % 10 := by
      simp only [fieldValue]; omega
    have hyr : (yearValue ⟨s, m, h, d, w, mo, y⟩ : Int) < 2000 ↔ mo.toNat < 128 := by
      simp only [yearValue, fieldValue]
      have := y.isLt
      split <;> omega
    apply BitVec.eq_of_toNat_eq
    have := mo.isLt
    by_cases hc : mo.toNat < 128
    · simp only [hyr, hc, if_true, hf]; omega
    · simp only [hyr, hc, if_false, digits_century_toNat (v := fieldValue mo 2) (by simp only [fieldValue]; omega)]; omega
  · have hy : (yearValue ⟨s, m, h, d, w, mo, y⟩) % 100 = fieldValue y 16 := by
      simp only [yearValue, fieldValue]
      have := y.isLt
      split <;> omega
    rw [hy]
    exact digits_field u6 (by have := y.isLt; omega) u7

end Sys2Proof.Machine
end

