-- ==== Sys2Proof/Laws/Reach.lean ====
section
/-! SUPPORT. Every command is a sequence of elementary actions between its acceptance and its response:
transport events, the few writes of controller bits, the host clock's two. What holds of each action
holds of every command. -/

namespace Sys2Proof.Machine

/-- `t` is reached from `s` by elementary actions. -/
inductive Reach (s : State) : State → Prop where
  | refl : Reach s s
  | event {t : State} (e : TpEvent) (he : ∀ a dir, e = .start a dir → a = t.cfg.devAddr) (h : Reach s t) :
      Reach s (afterEvent e t)
  | busHeld {t : State} (v : Bool) (h : Reach s t) : Reach s (t.setBusHeld v)
  | ready {t : State} (h : Reach s t) : Reach s t.setReady
  | hostEpoch {t : State} (e : Int) (h : Reach s t) : Reach s (t.setHostEpoch e)
  | hostRead {t : State} (h : Reach s t) : Reach s t.afterHostRead

theorem Reach.trans {s t u : State} (h : Reach s t) (k : Reach t u) : Reach s u := by
  induction k with
  | refl => exact h
  | event e he _ ih => exact ih.event e he
  | busHeld v _ ih => exact ih.busHeld v
  | ready _ ih => exact ih.ready
  | hostEpoch e _ ih => exact ih.hostEpoch e
  | hostRead _ ih => exact ih.hostRead

/-- The pieces of a command reach what they leave. -/
def Reaches {ε α : Type} (m : Act ε α) : Prop := ∀ s, Reach s (m s).2

variable {ε α β : Type}

theorem send_reaches (e : TpEvent) (he : ∀ a dir, e ≠ .start a dir) : Reaches (send e) := fun s => by
  rw [send_snd]; exact (Reach.refl).event e fun a dir h => absurd h (he a dir)

theorem startDev_reaches (dir : Dir) : Reaches (startDev dir) := fun s => by
  simp only [startDev, send_snd]
  exact (Reach.refl).event _ fun a d h => by cases h; rfl

theorem recv_reaches (ack : Bool) : Reaches (recv ack) := fun s => by
  rw [recv_snd]; exact (Reach.refl).event _ (by simp)

theorem pure_reaches (x : Except ε α) : Reaches (fun s => (x, s)) := fun _ => .refl

theorem andThen_reaches {m : Act ε α} {k : α → Act ε β} (hm : Reaches m) (hk : ∀ a, Reaches (k a)) :
    Reaches (andThen m k) := fun s => by
  have h := hm s
  simp only [andThen]
  rcases hms : m s with ⟨r, t⟩
  rw [hms] at h
  cases r with
  | error e => exact h
  | ok a => exact h.trans (hk a t)

theorem sendAll_reaches (buf : List Byte) : Reaches (sendAll buf) := by
  induction buf with
  | nil => exact pure_reaches _
  | cons b rest ih => exact andThen_reaches (send_reaches _ (by simp)) fun _ => ih

theorem recvAll_reaches (n : Nat) : Reaches (recvAll n) := by
  induction n with
  | zero => exact pure_reaches _
  | succ n ih =>
    exact andThen_reaches (recv_reaches _) fun _ => andThen_reaches ih fun _ => pure_reaches _

theorem releaseIgnored_reach (s : State) : Reach s (releaseIgnored s) := by
  simp only [releaseIgnored, send_snd]
  exact ((Reach.refl).event .rel (by simp)).busHeld false

theorem abort_reaches (f : TpFailure) : Reaches (α := α) (abort f) := fun s => by
  simp only [abort]
  split
  · exact releaseIgnored_reach s
  · rw [send_snd]
    exact ((Reach.refl).event .stop (by simp)).trans (releaseIgnored_reach _)

theorem releaseChecked_reaches (a : α) : Reaches (releaseChecked a) := fun s => by
  have h := ((Reach.refl (s := s)).event .rel (by simp)).busHeld false
  have hs := send_snd .rel s
  simp only [releaseChecked]
  rcases hr : send .rel s with ⟨r, t⟩
  rw [hr] at hs
  simp only at hs
  subst hs
  cases r <;> exact h

theorem closeSession_reaches (a : α) : Reaches (closeSession a) := fun s => by
  have h := (Reach.refl (s := s)).event .stop (by simp)
  have hs := send_snd .stop s
  simp only [closeSession]
  rcases hr : send .stop s with ⟨r, t⟩
  rw [hr] at hs
  simp only at hs
  subst hs
  cases r with
  | error f => exact h.trans (releaseIgnored_reach _)
  | ok _ => exact h.trans (releaseChecked_reaches a _)

theorem session_reaches {m : Act TpFailure α} (hm : Reaches m) : Reaches (session m) := fun s => by
  have h := (Reach.refl (s := s)).event (.acq s.cfg.busCfg) (by simp)
  have hs := send_snd (.acq s.cfg.busCfg) s
  simp only [session]
  rcases hr : send (.acq s.cfg.busCfg) s with ⟨r, t⟩
  rw [hr] at hs
  simp only at hs
  subst hs
  cases r with
  | error f => exact h
  | ok _ =>
    have hb := (h.busHeld true).trans (hm _)
    simp only
    rcases hms : m ((afterEvent (.acq s.cfg.busCfg) s).setBusHeld true) with ⟨x, u⟩
    rw [hms] at hb
    cases x with
    | error f => exact hb.trans (abort_reaches f u)
    | ok a => exact hb.trans (closeSession_reaches a u)

theorem memWrite_reaches (reg : Byte) (buf : List Byte) : Reaches (memWrite reg buf) :=
  session_reaches (andThen_reaches (startDev_reaches _) fun _ =>
    andThen_reaches (send_reaches _ (by simp)) fun _ => sendAll_reaches buf)

theorem memRead_reaches (reg : Byte) (len : Nat) : Reaches (memRead reg len) :=
  session_reaches (andThen_reaches (startDev_reaches _) fun _ =>
    andThen_reaches (send_reaches _ (by simp)) fun _ =>
      andThen_reaches (startDev_reaches _) fun _ => recvAll_reaches len)

theorem asBusError_reaches {m : Act Cause α} (hm : Reaches m) : Reaches (asBusError m) := fun s => by
  rw [asBusError_snd]; exact hm s

theorem asInitError_reaches {m : Act Cause α} (hm : Reaches m) : Reaches (asInitError m) := fun s => by
  rw [asInitError_snd]; exact hm s

theorem ensureInit_reaches (mode : Byte) : Reaches (ensureInit mode) := fun s => by
  simp only [ensureInit]
  split
  · exact .refl
  · exact andThen_reaches (asInitError_reaches fun s => memWrite_reaches _ _ s) (fun _ =>
      andThen_reaches (asInitError_reaches fun s => memWrite_reaches _ _ s) fun _ t => (Reach.refl).ready) s

theorem ensureReady_reaches : Reaches ensureReady := fun s => ensureInit_reaches _ s

theorem getImage_reaches : Reaches getImage :=
  andThen_reaches ensureReady_reaches fun _ s =>
    andThen_reaches (asBusError_reaches (memRead_reaches _ _)) (fun _ => pure_reaches _) s

theorem setDateTime_reaches (ct : CalendarTime) : Reaches (setDateTime ct) :=
  andThen_reaches (fun _ => .refl) fun _ => andThen_reaches ensureReady_reaches fun _ =>
    andThen_reaches (fun s => asBusError_reaches (memWrite_reaches _ _) s) fun _ => pure_reaches _

/-- What a command does before its response. -/
def commandAct (i : Instr) : Act CmdError Payload :=
  match i with
  | .ensureInit mode => andThen (ensureInit mode) fun _ t => (.ok .unit, t)
  | .getDateTime => andThen getImage fun img t => (.ok (decodedPayload img), t)
  | .setDateTime ct => setDateTime ct
  | .syncDevToHost => syncDevToHost
  | .syncHostToDev => syncHostToDev
  | .busWrite reg buf => busWrite reg buf
  | .busRead reg len => busRead reg len
  | .encodeTime ct => andThen (encodeAct ct) fun img t => (.ok (.image img), t)
  | .decodeTime img => fun s => (.ok (decodedPayload img), s)

/-- Every command is its piece and then the response. -/
theorem exec_eq (i : Instr) (s : State) :
    exec i s = .next (respond (resultOf (commandAct i s).1) (commandAct i s).2) := by
  cases i <;> simp only [exec, execEnsureInit, execGetDateTime, execSetDateTime, execSyncDevToHost,
    execSyncHostToDev, execBusWrite, execBusRead, execEncodeTime, execDecodeTime, complete_eq, commandAct]
  rfl

theorem commandAct_reaches (i : Instr) : Reaches (commandAct i) := by
  cases i with
  | ensureInit mode => exact andThen_reaches (ensureInit_reaches mode) fun _ => pure_reaches _
  | getDateTime => exact andThen_reaches getImage_reaches fun _ => pure_reaches _
  | setDateTime ct => exact setDateTime_reaches ct
  | syncDevToHost => exact andThen_reaches getImage_reaches fun _ _ => (Reach.refl).hostEpoch _
  | syncHostToDev => exact fun s => ((Reach.refl).hostRead).trans (setDateTime_reaches _ _)
  | busWrite reg buf =>
    intro s
    simp only [commandAct, busWrite]
    split
    · exact andThen_reaches (asBusError_reaches (memWrite_reaches _ _)) (fun _ => pure_reaches _) s
    · exact .refl
  | busRead reg len =>
    intro s
    simp only [commandAct, busRead]
    split
    · exact andThen_reaches (asBusError_reaches (memRead_reaches _ _)) (fun _ => pure_reaches _) s
    · exact .refl
  | encodeTime ct => exact andThen_reaches (fun _ => .refl) fun _ => pure_reaches _
  | decodeTime img => exact pure_reaches _

/-! ## What follows for every command -/

/-- A command keeps the parameters, the responses, the inputs to come and the environment's mode. -/
structure ReachFrame (s t : State) : Prop where
  cfg       : t.cfg = s.cfg
  phase     : t.phase = s.phase
  responses : t.responses = s.responses
  inbox     : t.inbox = s.inbox
  mode      : t.env.mode = s.env.mode
  ready     : s.initState = .ready → t.initState = .ready

theorem Reach.frame {s t : State} (h : Reach s t) : ReachFrame s t := by
  induction h with
  | refl => constructor <;> first | rfl | exact id
  | event e _ _ ih => exact ⟨ih.cfg, ih.phase, ih.responses, ih.inbox, ih.mode, ih.ready⟩
  | busHeld v _ ih => exact ⟨ih.cfg, ih.phase, ih.responses, ih.inbox, ih.mode, ih.ready⟩
  | ready _ ih => exact ⟨ih.cfg, ih.phase, ih.responses, ih.inbox, ih.mode, fun _ => rfl⟩
  | hostEpoch e _ ih => exact ⟨ih.cfg, ih.phase, ih.responses, ih.inbox, ih.mode, ih.ready⟩
  | hostRead _ ih => exact ⟨ih.cfg, ih.phase, ih.responses, ih.inbox, ih.mode, ih.ready⟩

/-- The device's registers stay in canonical form. -/
theorem Reach.wf {s t : State} (h : Reach s t) (hm : Memory.wf s.dev.regs = true) :
    Memory.wf t.dev.regs = true := by
  induction h with
  | refl => exact hm
  | event e _ _ ih => exact afterEvent_wf e _ ih
  | busHeld v _ ih => exact ih
  | ready _ ih => exact ih
  | hostEpoch e _ ih => exact ih
  | hostRead _ ih => exact ih

/-- Every event a command issues satisfies what every single event satisfies. -/
theorem Reach.events {s t : State} (h : Reach s t) (P : BusEvent → Prop)
    (hP : ∀ (e : TpEvent) (u : State), u.cfg = s.cfg → (∀ a dir, e = .start a dir → a = s.cfg.devAddr) →
      P ⟨e, answerTo e u⟩) :
    ∃ evs, t.trace = s.trace ++ evs ∧ ∀ e ∈ evs, P e := by
  induction h with
  | refl => exact ⟨[], by simp, by simp⟩
  | event e he hr ih =>
    obtain ⟨evs, ht, hall⟩ := ih
    have hc := hr.frame.cfg
    refine ⟨evs ++ [⟨e, answerTo e _⟩], by rw [afterEvent_trace, ht, List.append_assoc], ?_⟩
    intro x hx
    rcases List.mem_append.1 hx with h | h
    · exact hall x h
    · rw [List.mem_singleton.1 h]
      exact hP e _ hc fun a dir h => by rw [← hc]; exact he a dir h
  | busHeld v _ ih => exact ih
  | ready _ ih => exact ih
  | hostEpoch e _ ih => exact ih
  | hostRead _ ih => exact ih

end Sys2Proof.Machine
end

