-- ==== Sys2Proof/Laws/Frames.lean ====
section
/-! SUPPORT. Frames of the commands: which device registers, which controller bits and which host value a
command can change. -/

namespace Sys2Proof.Machine

/-! ## Device registers -/

/-- A write transaction changes no register outside its range (R56, R63). -/
theorem memWrite_frame (reg : Byte) (buf : List Byte) (s : State) (hb : reg.toNat + buf.length ≤ 256)
    (a : Byte) (ha : ¬ InBlock reg buf.length a) : (memWrite reg buf s).2.dev.regAt a = s.dev.regAt a := by
  obtain ⟨-, -, ⟨n, hn, h, -, -⟩, -⟩ := memWrite_stores reg buf s hb
  rw [h a, if_neg]
  simp only [InBlock, not_and] at ha
  intro h'
  have := ha h'.1
  omega

theorem memRead_frame (reg : Byte) (len : Nat) (s : State) (a : Byte) :
    (memRead reg len s).2.dev.regAt a = s.dev.regAt a :=
  Device.regAt_congr (memRead_regs reg len s) a

theorem inBlock_one {base a : Byte} (h : InBlock base 1 a) : a = base := by
  obtain ⟨h1, h2⟩ := h
  apply BitVec.eq_of_toNat_eq
  omega

/-- The initialisation stores to the two control registers only, and to none when Ready. -/
theorem ensureInit_frame (mode : Byte) (s : State) (a : Byte) (ha : ¬ InitStores s a) :
    (ensureInit mode s).2.dev.regAt a = s.dev.regAt a := by
  simp only [InitStores, not_and, not_or] at ha
  simp only [ensureInit]
  split
  · rfl
  · rename_i hi
    obtain ⟨h1, h2⟩ := ha hi
    have hfr := (memWrite_run s.cfg.addrControl1 [control1Value] s).1.cfg
    have hb : ∀ x : Byte, x.toNat + [control1Value].length ≤ 256 := fun x => by
      have := x.isLt; simp; omega
    have hb' : ∀ x : Byte, x.toNat + [control2Value mode].length ≤ 256 := fun x => by
      have := x.isLt; simp; omega
    have g1 := memWrite_frame s.cfg.addrControl1 [control1Value] s (hb _) a (fun h => h1 (inBlock_one h))
    simp only [initialise, andThen]
    rcases hm : memWrite s.cfg.addrControl1 [control1Value] s with ⟨x, u⟩
    rw [hm] at hfr g1
    have ha1 : (asInitError (fun s => memWrite s.cfg.addrControl1 [control1Value] s) s) =
        (match x with | .error c => .error (.initError c) | .ok y => .ok y, u) := by
      simp only [asInitError, hm]; cases x <;> rfl
    rw [ha1]
    cases x with
    | error c => exact g1
    | ok y =>
      have g2 := memWrite_frame u.cfg.addrControl2 [control2Value mode] u (hb' _) a
        (fun h => h2 (by rw [inBlock_one h, hfr]))
      simp only
      rcases hm' : memWrite u.cfg.addrControl2 [control2Value mode] u with ⟨z, w⟩
      rw [hm'] at g2
      have ha2 : (asInitError (fun s => memWrite s.cfg.addrControl2 [control2Value mode] s) u) =
          (match z with | .error c => .error (.initError c) | .ok y => .ok y, w) := by
        simp only [asInitError, hm']; cases z <;> rfl
      rw [ha2]
      cases z with
      | error c => exact g2.trans g1
      | ok z => exact g2.trans g1

theorem getImage_frame (s : State) (a : Byte) (ha : ¬ InitStores s a) :
    (getImage s).2.dev.regAt a = s.dev.regAt a := by
  have g1 := ensureInit_frame s.cfg.initModeDefault s a ha
  simp only [getImage, andThen, ensureReady]
  rcases he : ensureInit s.cfg.initModeDefault s with ⟨x, u⟩
  rw [he] at g1
  cases x with
  | error e => exact g1
  | ok x =>
    have g2 := memRead_frame u.cfg.addrTimeBlock timeBlockLen u a
    rw [← asBusError_snd] at g2
    simp only [readTimeBlock, andThen]
    rcases hb : asBusError (memRead u.cfg.addrTimeBlock timeBlockLen) u with ⟨y, w⟩
    rw [hb] at g2
    cases y <;> exact g2.trans g1

theorem setDateTime_frame (ct : CalendarTime) (s : State) (hcfg : s.cfg.addrTimeBlock.toNat + 7 ≤ 256) (a : Byte)
    (ha : Valid s.cfg.dayMax ct → ¬ InitStores s a ∧ ¬ InBlock s.cfg.addrTimeBlock 7 a) :
    (setDateTime ct s).2.dev.regAt a = s.dev.regAt a := by
  by_cases hv : Valid s.cfg.dayMax ct
  · obtain ⟨h1, h2⟩ := ha hv
    have he : encodeAct ct s = (.ok (imageOf ct), s) := by simp [encodeAct, encodeCalendar, hv]
    have g1 := ensureInit_frame s.cfg.initModeDefault s a h1
    have hfr := (ensureInit_run s.cfg.initModeDefault s).1.cfg
    simp only [setDateTime]
    rw [andThen_ok he]
    simp only [andThen, ensureReady]
    rcases he : ensureInit s.cfg.initModeDefault s with ⟨x, u⟩
    rw [he] at g1 hfr
    cases x with
    | error e => exact g1
    | ok x =>
      have g2 := memWrite_frame u.cfg.addrTimeBlock (imageBytes (imageOf ct)) u (by rw [hfr]; exact hcfg) a
        (by rw [hfr]; exact h2)
      rw [← asBusError_snd] at g2
      simp only [writeTimeBlock]
      rcases hb : asBusError (memWrite u.cfg.addrTimeBlock (imageBytes (imageOf ct))) u with ⟨y, w⟩
      rw [hb] at g2
      cases y <;> exact g2.trans g1
  · rw [setDateTime_invalid ct s hv]

/-- The first constraint of R9: the time block fits below 0x100. -/
theorem Config.ok_timeBlock {c : Config} (h : c.ok = true) : c.addrTimeBlock.toNat + 7 ≤ 256 := by
  simp only [Config.ok, Bool.and_eq_true, decide_eq_true_eq] at h
  omega

/-- Every register outside what a command may store to reads as before (R50, R63). -/
theorem commandAct_regs (i : Instr) (s : State) (hcfg : s.cfg.ok = true) (a : Byte) (ha : ¬ MayStore i s a) :
    (commandAct i s).2.dev.regAt a = s.dev.regAt a := by
  have htb := Config.ok_timeBlock hcfg
  cases i with
  | ensureInit mode =>
    have g := ensureInit_frame mode s a ha
    simp only [commandAct, andThen]
    rcases h : ensureInit mode s with ⟨x, u⟩
    rw [h] at g
    cases x <;> exact g
  | getDateTime =>
    have g := getImage_frame s a ha
    simp only [commandAct, andThen]
    rcases h : getImage s with ⟨x, u⟩
    rw [h] at g
    cases x <;> exact g
  | setDateTime ct =>
    exact setDateTime_frame ct s htb a fun hv => by simpa [MayStore, hv] using ha
  | syncDevToHost =>
    have g := getImage_frame s a ha
    simp only [commandAct, syncDevToHost, andThen]
    rcases h : getImage s with ⟨x, u⟩
    rw [h] at g
    cases x <;> exact g
  | syncHostToDev =>
    exact setDateTime_frame (hostUtc s) s.afterHostRead htb a
      fun hv => by
        have hv' : Valid s.cfg.dayMax (hostUtc s) := hv
        simpa [MayStore, hv', InitStores] using ha
  | busWrite reg buf =>
    simp only [commandAct, busWrite]
    split
    · rename_i hb
      have g := memWrite_frame reg buf s hb.2.2 a fun h => ha ⟨hb, h⟩
      rw [← asBusError_snd] at g
      simp only [andThen]
      rcases h : asBusError (memWrite reg buf) s with ⟨x, u⟩
      rw [h] at g
      cases x <;> exact g
    · rfl
  | busRead reg len =>
    simp only [commandAct, busRead]
    split
    · have g := memRead_frame reg len.toNat s a
      rw [← asBusError_snd] at g
      simp only [andThen]
      rcases h : asBusError (memRead reg len.toNat) s with ⟨x, u⟩
      rw [h] at g
      cases x <;> exact g
    · rfl
  | encodeTime ct =>
    simp only [commandAct, andThen, encodeAct]
    rcases encodeCalendar s.cfg.dayMax ct with e | img <;> rfl
  | decodeTime img => rfl

/-! ## Controller and host -/

/-- Acts that keep `bus_held` false, `S.init_state`, the host clock and the host's breakdowns. -/
structure Quiet (s t : State) : Prop where
  busHeld   : s.busHeld = false → t.busHeld = false
  hostEpoch : t.hostEpoch = s.hostEpoch

theorem Keeps.quiet {s t : State} (h : Keeps s t) : Quiet s t := ⟨h.busHeld, h.hostEpoch⟩

theorem setDateTime_quiet (ct : CalendarTime) (s : State) : Quiet s (setDateTime ct s).2 := by
  by_cases hv : Valid s.cfg.dayMax ct
  · exact (setDateTime_run ct s hv).1.quiet
  · rw [setDateTime_invalid ct s hv]; exact ⟨id, rfl⟩

/-- `bus_held` is false after a command that began with it false (R22, R137); no command but
SYNC_DEV_TO_HOST writes the host clock (R39). -/
theorem commandAct_quiet (i : Instr) (s : State) :
    (s.busHeld = false → (commandAct i s).2.busHeld = false) ∧
    (i ≠ .syncDevToHost → (commandAct i s).2.hostEpoch = s.hostEpoch) := by
  have lift : ∀ u, Quiet s u → (s.busHeld = false → u.busHeld = false) ∧
      (i ≠ .syncDevToHost → u.hostEpoch = s.hostEpoch) := fun u h => ⟨h.busHeld, fun _ => h.hostEpoch⟩
  cases i with
  | ensureInit mode =>
    have g := (ensureInit_run mode s).1.quiet
    simp only [commandAct, andThen]
    rcases h : ensureInit mode s with ⟨x, u⟩
    rw [h] at g
    cases x <;> exact lift _ g
  | getDateTime =>
    have g := (getImage_run s).1.quiet
    simp only [commandAct, andThen]
    rcases h : getImage s with ⟨x, u⟩
    rw [h] at g
    cases x <;> exact lift _ g
  | setDateTime ct => exact lift _ (setDateTime_quiet ct s)
  | syncDevToHost =>
    have g := (getImage_run s).1.busHeld
    simp only [commandAct, syncDevToHost, andThen]
    rcases h : getImage s with ⟨x, u⟩
    rw [h] at g
    cases x <;> exact ⟨g, fun h => absurd rfl h⟩
  | syncHostToDev =>
    have g := setDateTime_quiet (hostUtc s) s.afterHostRead
    exact ⟨g.busHeld, fun _ => g.hostEpoch⟩
  | busWrite reg buf =>
    simp only [commandAct, busWrite]
    split
    · have g := memWrite_run reg buf s
      have k := (g.1.keeps g.2.1).quiet
      rw [← asBusError_snd] at k
      simp only [andThen]
      rcases h : asBusError (memWrite reg buf) s with ⟨x, u⟩
      rw [h] at k
      cases x <;> exact lift _ k
    · exact ⟨id, fun _ => rfl⟩
  | busRead reg len =>
    simp only [commandAct, busRead]
    split
    · have g := memRead_run reg len.toNat s
      have k := (g.1.keeps g.2.1).quiet
      rw [← asBusError_snd] at k
      simp only [andThen]
      rcases h : asBusError (memRead reg len.toNat) s with ⟨x, u⟩
      rw [h] at k
      cases x <;> exact lift _ k
    · exact ⟨id, fun _ => rfl⟩
  | encodeTime ct =>
    simp only [commandAct, andThen, encodeAct]
    rcases encodeCalendar s.cfg.dayMax ct with e | img <;> exact ⟨id, fun _ => rfl⟩
  | decodeTime img => exact ⟨id, fun _ => rfl⟩

/-! ## Independence of `S.init_state` (R21, R66, R278) -/

/-- `s` with another `S.init_state`. -/
def withInit (x : DeviceInitState) (s : State) : State := { s with initState := x }

/-- `m` neither reads nor writes `S.init_state`. -/
def IgnoresInit {ε α : Type} (m : Act ε α) : Prop :=
  ∀ x s, m (withInit x s) = ((m s).1, withInit x (m s).2)

variable {ε α β : Type}

theorem send_ignoresInit (e : TpEvent) : IgnoresInit (send e) := fun x s => by
  have ha : answerTo e (withInit x s) = answerTo e s := rfl
  simp only [send, ha]
  split <;> rfl

theorem recv_ignoresInit (ack : Bool) : IgnoresInit (recv ack) := fun x s => by
  have ha : answerTo (.rx ack) (withInit x s) = answerTo (.rx ack) s := rfl
  simp only [recv, ha]
  split <;> rfl

theorem startDev_ignoresInit (dir : Dir) : IgnoresInit (startDev dir) := fun x s =>
  send_ignoresInit (.start s.cfg.devAddr dir) x s

theorem pure_ignoresInit (r : Except ε α) : IgnoresInit (fun s => (r, s)) := fun _ _ => rfl

theorem andThen_ignoresInit {m : Act ε α} {k : α → Act ε β} (hm : IgnoresInit m) (hk : ∀ a, IgnoresInit (k a)) :
    IgnoresInit (andThen m k) := fun x s => by
  have h := hm x s
  rcases hms : m s with ⟨r, t⟩
  rw [hms] at h
  cases r with
  | error e => rw [andThen_error h, andThen_error hms]
  | ok a => rw [andThen_ok h, andThen_ok hms]; exact hk a x t

theorem sendAll_ignoresInit (buf : List Byte) : IgnoresInit (sendAll buf) := by
  induction buf with
  | nil => exact pure_ignoresInit _
  | cons b rest ih => exact andThen_ignoresInit (send_ignoresInit _) fun _ => ih

theorem recvAll_ignoresInit (n : Nat) : IgnoresInit (recvAll n) := by
  induction n with
  | zero => exact pure_ignoresInit _
  | succ n ih =>
    exact andThen_ignoresInit (recv_ignoresInit _) fun _ => andThen_ignoresInit ih fun _ => pure_ignoresInit _

theorem releaseIgnored_ignoresInit (x : DeviceInitState) (s : State) :
    releaseIgnored (withInit x s) = withInit x (releaseIgnored s) := by
  simp only [releaseIgnored, send_ignoresInit .rel x s]
  rfl

theorem session_ignoresInit {m : Act TpFailure α} (hm : IgnoresInit m) : IgnoresInit (session m) := fun x s => by
  have h1 := send_ignoresInit (.acq s.cfg.busCfg) x s
  have hc : (withInit x s).cfg = s.cfg := rfl
  simp only [session, hc, h1]
  rcases send (.acq s.cfg.busCfg) s with ⟨r, t⟩
  cases r with
  | error f => rfl
  | ok _ =>
    have h2 := hm x (t.setBusHeld true)
    have hb : (withInit x t).setBusHeld true = withInit x (t.setBusHeld true) := rfl
    simp only [hb, h2]
    rcases m (t.setBusHeld true) with ⟨y, u⟩
    cases y with
    | error f =>
      simp only [abort]
      split
      · rw [releaseIgnored_ignoresInit]
      · rw [send_ignoresInit .stop x u]; simp only [releaseIgnored_ignoresInit]
    | ok a =>
      simp only [closeSession, send_ignoresInit .stop x u]
      rcases send .stop u with ⟨z, v⟩
      cases z with
      | error f => simp only [abortAfterStop, releaseIgnored_ignoresInit]
      | ok _ =>
        simp only [releaseChecked, send_ignoresInit .rel x v]
        rcases send .rel v with ⟨q, w⟩
        cases q <;> rfl

theorem asBusError_ignoresInit {m : Act Cause α} (hm : IgnoresInit m) : IgnoresInit (asBusError m) := fun x s => by
  simp only [asBusError, hm x s]
  rcases m s with ⟨r, t⟩
  cases r <;> rfl

theorem memWrite_ignoresInit (reg : Byte) (buf : List Byte) : IgnoresInit (memWrite reg buf) :=
  session_ignoresInit (andThen_ignoresInit (startDev_ignoresInit _) fun _ =>
    andThen_ignoresInit (send_ignoresInit _) fun _ => sendAll_ignoresInit buf)

theorem memRead_ignoresInit (reg : Byte) (len : Nat) : IgnoresInit (memRead reg len) :=
  session_ignoresInit (andThen_ignoresInit (startDev_ignoresInit _) fun _ =>
    andThen_ignoresInit (send_ignoresInit _) fun _ =>
      andThen_ignoresInit (startDev_ignoresInit _) fun _ => recvAll_ignoresInit len)

end Sys2Proof.Machine
end

