-- ==== Sys2Proof/Laws/Fsm.lean ====
section
/-! SUPPORT. The phase-by-phase view against the command-at-once view (R68, R138, R191): a transaction
walked tick by tick leaves what the transaction run at once leaves. -/

namespace Sys2Proof.Machine

/-- The sequencing registers of a state. -/
structure Seq where
  phase   : Phase
  tphase  : TPhase
  latched : Option Cause
  desc    : Option (List Byte)
  cur     : Option Instr
  regs    : CmdRegs

/-- `s` with these sequencing registers. -/
def withSeq (q : Seq) (s : State) : State :=
  { s with phase := q.phase, tphase := q.tphase, latched := q.latched, desc := q.desc, cur := q.cur, regs := q.regs }

@[simp] theorem withSeq_phase (q : Seq) (s : State) : (withSeq q s).phase = q.phase := rfl
@[simp] theorem withSeq_tphase (q : Seq) (s : State) : (withSeq q s).tphase = q.tphase := rfl
@[simp] theorem withSeq_latched (q : Seq) (s : State) : (withSeq q s).latched = q.latched := rfl
@[simp] theorem withSeq_desc (q : Seq) (s : State) : (withSeq q s).desc = q.desc := rfl
@[simp] theorem withSeq_cur (q : Seq) (s : State) : (withSeq q s).cur = q.cur := rfl
@[simp] theorem withSeq_regs (q : Seq) (s : State) : (withSeq q s).regs = q.regs := rfl
@[simp] theorem withSeq_cfg (q : Seq) (s : State) : (withSeq q s).cfg = s.cfg := rfl
@[simp] theorem withSeq_initState (q : Seq) (s : State) : (withSeq q s).initState = s.initState := rfl

/-- Events do not see the sequencing registers. -/
@[simp] theorem send_withSeq (e : TpEvent) (q : Seq) (s : State) :
    send e (withSeq q s) = ((send e s).1, withSeq q (send e s).2) := by
  have ha : answerTo e (withSeq q s) = answerTo e s := rfl
  simp only [send, ha]
  split <;> rfl

@[simp] theorem recv_withSeq (ack : Bool) (q : Seq) (s : State) :
    recv ack (withSeq q s) = ((recv ack s).1, withSeq q (recv ack s).2) := by
  have ha : answerTo (.rx ack) (withSeq q s) = answerTo (.rx ack) s := rfl
  simp only [recv, ha]
  split <;> rfl

@[simp] theorem startDev_withSeq (dir : Dir) (q : Seq) (s : State) :
    startDev dir (withSeq q s) = ((startDev dir s).1, withSeq q (startDev dir s).2) := by
  simp only [startDev, withSeq_cfg, send_withSeq]

@[simp] theorem withSeq_setBusHeld (q : Seq) (v : Bool) (s : State) :
    (withSeq q s).setBusHeld v = withSeq q (s.setBusHeld v) := rfl

@[simp] theorem withSeq_setReady (q : Seq) (s : State) : (withSeq q s).setReady = withSeq q s.setReady := rfl

@[simp] theorem withSeq_setHostEpoch (q : Seq) (e : Int) (s : State) :
    (withSeq q s).setHostEpoch e = withSeq q (s.setHostEpoch e) := rfl

@[simp] theorem withSeq_afterHostRead (q : Seq) (s : State) :
    (withSeq q s).afterHostRead = withSeq q s.afterHostRead := rfl

@[simp] theorem respond_withSeq (r : Result) (q : Seq) (s : State) : respond r (withSeq q s) = respond r s := rfl

/-! ## Runs of ticks -/

theorem ticks_trans {m n : Nat} {x y : State} {o : Tick} (h : ticks m x = .next y) (k : ticks n y = o) :
    ticks (m + n) x = o := by
  induction m generalizing x with
  | zero => cases h; simpa using k
  | succ m ih =>
    rw [Nat.succ_add]
    simp only [ticks] at h ⊢
    cases ht : tick x with
    | next z => rw [ht] at h; exact ih h
    | fault f => rw [ht] at h; cases h
    | refused r => rw [ht] at h; cases h

theorem ticks_one {x : State} {o : Tick} (h : tick x = o) : ticks 1 x = o := by
  subst h
  simp only [ticks]
  cases tick x <;> rfl

theorem ticks_cons {n : Nat} {x y : State} {o : Tick} (h : tick x = .next y) (k : ticks n y = o) :
    ticks (n + 1) x = o := by
  simp only [ticks, h, k]

/-- From `q`, every tick before the end of the transaction is one event of it. -/
def InTransfer (q : Seq) (dir : Dir) : Prop :=
  ∀ tp l b s, tp ≠ .done →
    tick (withSeq { q with tphase := tp, latched := l, regs := { q.regs with buf := b } } s) =
      tickTransfer dir (withSeq { q with tphase := tp, latched := l, regs := { q.regs with buf := b } } s)

theorem inTransfer_initC1 {q : Seq} (h : q.phase = .initC1) : InTransfer q .write := by
  intro tp l b s htp
  simp [tick, h, htp]

theorem inTransfer_initC2 {q : Seq} (h : q.phase = .initC2) : InTransfer q .write := by
  intro tp l b s htp
  simp [tick, h, htp]

theorem inTransfer_xfer {q : Seq} {i : Instr} (h : q.phase = .xfer) (hc : q.cur = some i) :
    InTransfer q (xferDir i) := by
  intro tp l b s htp
  simp [tick, h, hc, need, htp]

/-- The sequencing registers inside a transaction. -/
abbrev Seq.at (q : Seq) (tp : TPhase) (l : Option Cause) (b : Option (List Byte)) : Seq :=
  { q with tphase := tp, latched := l, regs := { q.regs with buf := b } }

/-- The cause a transaction ends with. -/
def causeOf {α : Type} : Except Cause α → Option Cause
  | .ok _ => none
  | .error c => some c

/-! ## The tail of a transaction (R135, R138) -/

theorem ticks_rel_latched {q : Seq} {dir : Dir} (hq : InTransfer q dir) (c : Cause) (b : Option (List Byte)) (s : State) :
    ticks 1 (withSeq (q.at .rel (some c) b) s) = .next (withSeq (q.at .done (some c) b) (releaseIgnored s)) := by
  apply ticks_one
  rw [hq _ _ _ _ (by simp)]
  simp only [tickTransfer, withSeq_tphase, send_withSeq, releaseIgnored]
  rcases send .rel s with ⟨r, t⟩
  cases r <;> rfl

theorem ticks_stop_latched {q : Seq} {dir : Dir} (hq : InTransfer q dir) (c : Cause) (b : Option (List Byte)) (s : State) :
    ticks 2 (withSeq (q.at .stop (some c) b) s) =
      .next (withSeq (q.at .done (some c) b) (releaseIgnored (send .stop s).2)) := by
  refine ticks_cons (y := withSeq (q.at .rel (some c) b) (send .stop s).2) ?_ (ticks_rel_latched hq c b _)
  rw [hq _ _ _ _ (by simp)]
  simp only [tickTransfer, withSeq_tphase, send_withSeq]
  rcases send .stop s with ⟨r, t⟩
  cases r <;> rfl

theorem ticks_close {α : Type} {q : Seq} {dir : Dir} (hq : InTransfer q dir) (b : Option (List Byte)) (a : α) (s : State) :
    ticks 2 (withSeq (q.at .stop none b) s) =
      .next (withSeq (q.at .done (causeOf (closeSession a s).1) b) (closeSession a s).2) := by
  have h1 : tick (withSeq (q.at .stop none b) s) =
      tickTransfer dir (withSeq (q.at .stop none b) s) := hq _ _ _ _ (by simp)
  simp only [tickTransfer, withSeq_tphase, send_withSeq] at h1
  simp only [closeSession]
  rcases hs : send .stop s with ⟨r, t⟩
  rw [hs] at h1
  cases r with
  | error f =>
    exact ticks_cons (y := withSeq (q.at .rel (some f.cause) b) t) h1 (ticks_rel_latched hq f.cause b t)
  | ok _ =>
    refine ticks_cons (y := withSeq (q.at .rel none b) t) h1 (ticks_one ?_)
    have h2 : tick (withSeq (q.at .rel none b) t) = tickTransfer dir (withSeq (q.at .rel none b) t) :=
      hq _ _ _ _ (by simp)
    refine Eq.trans h2 ?_
    simp only [tickTransfer, withSeq_tphase, send_withSeq, releaseChecked]
    rcases send .rel t with ⟨r, u⟩
    cases r <;> rfl

/-- After a failing event of the frame. -/
theorem ticks_abort {α : Type} {q : Seq} {dir : Dir} (hq : InTransfer q dir) (f : TpFailure) (b : Option (List Byte)) (s : State) :
    ∃ n, n ≤ 2 ∧ ticks n (withSeq (q.at (if f = .arbLost then .rel else .stop) (some f.cause) b) s) =
      .next (withSeq (q.at .done (some f.cause) b) (abort (α := α) f s).2) := by
  simp only [abort]
  by_cases hf : f = .arbLost
  · rw [if_pos hf, if_pos hf]
    exact ⟨1, by omega, ticks_rel_latched hq _ b s⟩
  · rw [if_neg hf, if_neg hf]
    exact ⟨2, by omega, ticks_stop_latched hq _ b s⟩

/-- What a piece of the frame's ticks leave: on success the next sub-phase, on a failure the tail. -/
def FrameTicks {α : Type} (q : Seq) (N : Nat) (start : TPhase) (b : Option (List Byte)) (stop : α → TPhase)
    (b' : α → Option (List Byte)) (m : Act TpFailure α) : Prop :=
  ∀ s, ∃ n, n ≤ N ∧
    match m s with
    | (.ok a, t) => ticks n (withSeq (q.at start none b) s) = .next (withSeq (q.at (stop a) none (b' a)) t)
    | (.error f, t) => ∃ c, ticks n (withSeq (q.at start none b) s) =
        .next (withSeq (q.at (if f = .arbLost then .rel else .stop) (some f.cause) c) t)

theorem FrameTicks.andThen {α β : Type} {q : Seq} {N M : Nat} {p : TPhase} {b : Option (List Byte)}
    {p1 : α → TPhase} {b1 : α → Option (List Byte)} {p2 : β → TPhase} {b2 : β → Option (List Byte)}
    {m : Act TpFailure α} {k : α → Act TpFailure β}
    (hm : FrameTicks q N p b p1 b1 m) (hk : ∀ a, FrameTicks q M (p1 a) (b1 a) p2 b2 (k a)) :
    FrameTicks q (N + M) p b p2 b2 (Machine.andThen m k) := by
  intro s
  obtain ⟨n, hn, h⟩ := hm s
  rcases hms : m s with ⟨r, t⟩
  rw [hms] at h
  cases r with
  | error f => rw [andThen_error hms]; exact ⟨n, by omega, h⟩
  | ok a =>
    rw [andThen_ok hms]
    obtain ⟨n', hn', h'⟩ := hk a t
    refine ⟨n + n', by omega, ?_⟩
    rcases hks : k a t with ⟨r', u⟩
    rw [hks] at h'
    cases r' with
    | error f => obtain ⟨c, h'⟩ := h'; exact ⟨c, ticks_trans h h'⟩
    | ok a' => exact ticks_trans h h'

/-- One event is one tick. -/
theorem frameTicks_one {α : Type} {q : Seq} {dir : Dir} (hq : InTransfer q dir) {p : TPhase} (hp : p ≠ .done)
    {b : Option (List Byte)} {p' : α → TPhase} {b' : α → Option (List Byte)} {m : Act TpFailure α}
    (next : α → State → State)
    (h : ∀ s, tickTransfer dir (withSeq (q.at p none b) s) =
      advance next ((m s).1, withSeq (q.at p none b) (m s).2))
    (hnext : ∀ a t, next a (withSeq (q.at p none b) t) = withSeq (q.at (p' a) none (b' a)) t) :
    FrameTicks q 1 p b p' b' m := by
  intro s
  refine ⟨1, Nat.le_refl _, ?_⟩
  have h0 := hq p none b s hp
  rw [h s] at h0
  rcases hms : m s with ⟨r, t⟩
  rw [hms] at h0
  cases r with
  | ok a =>
    have := ticks_one h0
    simp only [advance, hnext] at this
    exact this
  | error f => exact ⟨b, ticks_one h0⟩

/-! ## The frames -/

/-- The data bytes of a write, from byte `i` on. -/
theorem sendAll_ticks {q : Seq} (hq : InTransfer q .write) {buf : List Byte} {len : Byte}
    (hl : q.regs.len = some len) (hlen : buf.length = len.toNat) (rest : List Byte) :
    ∀ i, i + rest.length = buf.length → rest ≠ [] → buf.drop i = rest →
      FrameTicks q rest.length (.dataTx i) (some buf) (fun _ => .stop) (fun _ => some buf) (sendAll rest) := by
  induction rest with
  | nil => intro i _ h; exact absurd rfl h
  | cons c rest ih =>
    intro i hi _ hdrop
    have hget : buf[i]? = some c := by
      have := congrArg List.head? hdrop
      simpa [List.head?_drop] using this
    have hdrop' : buf.drop (i + 1) = rest := by
      have := congrArg List.tail hdrop
      simpa [List.tail_drop] using this
    simp only [List.length_cons] at hi ⊢
    have hone : FrameTicks q 1 (.dataTx i) (some buf)
        (fun _ => if i + 1 < len.toNat then .dataTx (i + 1) else .stop) (fun _ => some buf) (send (.tx c)) := by
      refine frameTicks_one hq (by simp) (fun _ => setTPhase (if i + 1 < len.toNat then .dataTx (i + 1) else .stop)) ?_ ?_
      · intro s
        simp only [tickTransfer, withSeq_tphase, withSeq_regs, hl, need, CmdRegs.written, Option.getD_some, hget, send_withSeq]
      · intro _ _; rfl
    cases rest with
    | nil =>
      intro s
      obtain ⟨n, hn, h⟩ := hone s
      refine ⟨n, by simpa using hn, ?_⟩
      have hlt : ¬ i + 1 < len.toNat := by simp at hi; omega
      simp only [sendAll]
      rcases hs : send (.tx c) s with ⟨r, t⟩
      rw [hs] at h
      cases r with
      | error f => rw [andThen_error hs]; exact h
      | ok a =>
        rw [andThen_ok hs]
        simp only [if_neg hlt] at h
        exact h
    | cons d rest' =>
      have hlt : i + 1 < len.toNat := by simp at hi; omega
      simp only [if_pos hlt] at hone
      have h2 := ih (i + 1) (by omega) (by simp) hdrop'
      have := hone.andThen (k := fun _ => sendAll (d :: rest')) fun _ => h2
      rw [Nat.add_comm] at this
      exact this

/-- The receptions of a read, with `got` received and `n + 1` to come. -/
theorem recvMore_ticks {q : Seq} (hq : InTransfer q .read) {len : Byte}
    (hl : q.regs.len = some len) (n : Nat) :
    ∀ (got : List Byte) (b : Option (List Byte)), b.getD [] = got → got.length + (n + 1) = len.toNat →
      FrameTicks q (n + 1) (.dataRx got.length) b (fun _ => .stop) (fun bs => some (got ++ bs.1)) (recvAll (n + 1)) := by
  induction n with
  | zero =>
    rintro got b0 hb hg s
    have hone : FrameTicks q 1 (.dataRx got.length) b0
        (fun _ => if got.length + 1 < len.toNat then .dataRx (got.length + 1) else .stop)
        (fun b => some (got ++ [b])) (recv (decide (got.length + 1 ≠ len.toNat))) := by
      refine frameTicks_one hq (by simp)
        (fun b t => setTPhase (if got.length + 1 < len.toNat then .dataRx (got.length + 1) else .stop) (takeByte b t)) ?_ ?_
      · intro s
        simp only [tickTransfer, withSeq_tphase, withSeq_regs, hl, need, recv_withSeq, CmdRegs.written, hb, if_true]
      · intro _ _; subst hb; rfl
    obtain ⟨k, hk, h⟩ := hone s
    have hlt : ¬ got.length + 1 < len.toNat := by omega
    have hd : decide (got.length + 1 ≠ len.toNat) = decide (0 ≠ 0) := by
      rw [decide_eq_decide]; omega
    refine ⟨k, hk, ?_⟩
    rw [hd] at h
    simp only [recvAll]
    rcases hs : recv (decide (0 ≠ 0)) s with ⟨r, t⟩
    rw [hs] at h
    cases r with
    | error f => rw [andThen_error hs]; exact h
    | ok b =>
      rw [andThen_ok hs]
      simp only [if_neg hlt] at h
      exact h
  | succ n ih =>
    rintro got b0 hb hg
    have hlt : got.length + 1 < len.toNat := by omega
    have hd : decide (got.length + 1 ≠ len.toNat) = decide (n + 1 ≠ 0) := by
      rw [decide_eq_decide]; omega
    have hone : FrameTicks q 1 (.dataRx got.length) b0
        (fun _ => .dataRx (got.length + 1)) (fun b => some (got ++ [b])) (recv (decide (n + 1 ≠ 0))) := by
      refine frameTicks_one hq (by simp)
        (fun b t => setTPhase (.dataRx (got.length + 1)) (takeByte b t)) ?_ ?_
      · intro s
        simp only [tickTransfer, withSeq_tphase, withSeq_regs, hl, need, recv_withSeq, if_pos hlt, hd, CmdRegs.written, hb,
          if_true]
      · intro _ _; subst hb; rfl
    have h2 : ∀ b, FrameTicks q (n + 1) (.dataRx (got.length + 1)) (some (got ++ [b])) (fun _ => .stop)
        (fun bs => some (got ++ bs.1)) (Machine.andThen (recvAll (n + 1)) fun bs s => (.ok (Received.cons b bs), s)) := by
      intro b s
      have hlen : (got ++ [b]).length = got.length + 1 := by simp
      obtain ⟨k, hk, h⟩ := ih (got ++ [b]) (some (got ++ [b])) rfl (by rw [hlen]; omega) s
      refine ⟨k, hk, ?_⟩
      rw [hlen] at h
      rcases hs : recvAll (n + 1) s with ⟨r, t⟩
      rw [hs] at h
      cases r with
      | error f => rw [andThen_error hs]; exact h
      | ok bs =>
        rw [andThen_ok hs]
        simp only [List.append_assoc, List.singleton_append] at h
        exact h
    exact fun s => let ⟨k, hk, h⟩ := hone.andThen h2 s; ⟨k, by omega, h⟩

/-- The receptions of a read of `n` bytes, nothing received before. -/
theorem recvAll_ticks {q : Seq} (hq : InTransfer q .read) {len : Byte} (hl : q.regs.len = some len) {n : Nat} (h1 : 1 ≤ n)
    (hn : n = len.toNat) : FrameTicks q n (.dataRx 0) none (fun _ => .stop) (fun bs => some bs.1) (recvAll n) := by
  obtain ⟨m, rfl⟩ : ∃ m, n = m + 1 := ⟨n - 1, by omega⟩
  simpa using recvMore_ticks hq hl m [] none rfl (by simpa using hn)

/-- A transaction that closes well keeps its value. -/
theorem closeSession_value {α : Type} {a a' : α} {s : State} (h : (closeSession a s).1 = .ok a') : a' = a := by
  simp only [closeSession] at h
  rcases hs : send .stop s with ⟨r, v⟩
  rw [hs] at h
  cases r with
  | error f => simp [abortAfterStop] at h
  | ok _ =>
    simp only [releaseChecked] at h
    rcases hs : send .rel v with ⟨r, w⟩
    rw [hs] at h
    cases r with
    | error f => simp at h
    | ok _ => simpa using h.symm

/-- A whole transaction, from its first event to its end. -/
theorem session_ticks {α : Type} {q : Seq} {dir : Dir} (hq : InTransfer q dir) {N : Nat} {b : Option (List Byte)}
    {b' : α → Option (List Byte)} {m : Act TpFailure α} (hm : FrameTicks q N .startW b (fun _ => .stop) b' m) (s : State) :
    ∃ n c, n ≤ N + 3 ∧
      ticks n (withSeq (q.at .acq none b) s) =
        .next (withSeq (q.at .done (causeOf (session m s).1) c) (session m s).2) ∧
      ∀ a, (session m s).1 = .ok a → c = b' a := by
  have h1 := hq .acq none b s (by simp)
  simp only [tickTransfer, withSeq_tphase, withSeq_cfg, send_withSeq] at h1
  simp only [session]
  rcases hs : send (.acq s.cfg.busCfg) s with ⟨r, t⟩
  rw [hs] at h1
  cases r with
  | error f => exact ⟨1, b, by omega, ticks_one h1, by simp⟩
  | ok _ =>
    obtain ⟨n, hn, h2⟩ := hm (t.setBusHeld true)
    simp only
    rcases hms : m (t.setBusHeld true) with ⟨r, u⟩
    rw [hms] at h2
    cases r with
    | error f =>
      obtain ⟨c, h2⟩ := h2
      obtain ⟨k, hk, h3⟩ := ticks_abort (α := α) hq f c u
      exact ⟨(n + k) + 1, c, by omega,
        ticks_cons (y := withSeq (q.at .startW none b) (t.setBusHeld true)) h1 (ticks_trans h2 h3), by simp [abort]⟩
    | ok a =>
      have h3 := ticks_close hq (b' a) a u
      refine ⟨(n + 2) + 1, b' a, by omega,
        ticks_cons (y := withSeq (q.at .startW none b) (t.setBusHeld true)) h1 (ticks_trans h2 h3), ?_⟩
      exact fun a' ha' => by rw [closeSession_value ha']

/-- The begin and the register address of a transaction. -/
theorem prefix_ticks {q : Seq} {dir : Dir} (hq : InTransfer q dir) {reg : Byte} (hr : q.regs.reg = some reg)
    (b : Option (List Byte)) :
    FrameTicks q 1 .startW b (fun _ => .reg) (fun _ => b) (startDev .write) ∧
    FrameTicks q 1 .reg b (fun _ => match dir with | .write => .dataTx 0 | .read => .startR) (fun _ => b) (send (.tx reg)) := by
  constructor
  · refine frameTicks_one hq (by simp) (fun _ => setTPhase .reg) ?_ ?_
    · intro s; simp only [tickTransfer, withSeq_tphase, startDev_withSeq]
    · intro _ _; rfl
  · cases dir
    · refine frameTicks_one hq (by simp) (fun _ => setTPhase (.dataTx 0)) ?_ (fun _ _ => rfl)
      intro s; simp only [tickTransfer, withSeq_tphase, withSeq_regs, hr, need, send_withSeq]
    · refine frameTicks_one hq (by simp) (fun _ => setTPhase .startR) ?_ (fun _ _ => rfl)
      intro s; simp only [tickTransfer, withSeq_tphase, withSeq_regs, hr, need, send_withSeq]

/-- A write transaction, tick by tick, is the write transaction (R68, R130, R138). -/
theorem memWrite_ticks {q : Seq} (hq : InTransfer q .write) {reg len : Byte} {buf : List Byte}
    (hr : q.regs.reg = some reg) (hl : q.regs.len = some len) (hlen : buf.length = len.toNat) (h1 : 1 ≤ len.toNat)
    (s : State) :
    ∃ n c, n ≤ len.toNat + 5 ∧
      ticks n (withSeq (q.at .acq none (some buf)) s) =
        .next (withSeq (q.at .done (causeOf (memWrite reg buf s).1) c) (memWrite reg buf s).2) := by
  have hne : buf ≠ [] := by rintro rfl; simp at hlen; omega
  obtain ⟨p1, p2⟩ := prefix_ticks hq hr (some buf)
  have p3 := sendAll_ticks hq hl hlen buf 0 (by simp) hne (by simp)
  obtain ⟨n, c, hn, h, -⟩ := session_ticks hq (p1.andThen fun _ => p2.andThen fun _ => p3) s
  exact ⟨n, c, by omega, h⟩

/-- A read transaction, tick by tick, is the read transaction (R68, R131, R138). -/
theorem memRead_ticks {q : Seq} (hq : InTransfer q .read) {reg len : Byte}
    (hr : q.regs.reg = some reg) (hl : q.regs.len = some len) (h1 : 1 ≤ len.toNat) (s : State) :
    ∃ n c, n ≤ len.toNat + 6 ∧
      ticks n (withSeq (q.at .acq none none) s) =
        .next (withSeq (q.at .done (causeOf (memRead reg len.toNat s).1) c) (memRead reg len.toNat s).2) ∧
      ∀ bs, (memRead reg len.toNat s).1 = .ok bs → c = some bs.1 := by
  obtain ⟨p1, p2⟩ := prefix_ticks hq hr none
  have p3 : FrameTicks q 1 .startR none (fun _ => .dataRx 0) (fun _ => none) (startDev .read) := by
    refine frameTicks_one hq (by simp) (fun _ => setTPhase (.dataRx 0)) ?_ ?_
    · intro s; simp only [tickTransfer, withSeq_tphase, startDev_withSeq]
    · intro _ _; rfl
  have p4 := recvAll_ticks hq hl h1 rfl
  obtain ⟨n, c, hn, h, hc⟩ := session_ticks hq (p1.andThen fun _ => p2.andThen fun _ => p3.andThen fun _ => p4) s
  simp only [memRead, readFrame]
  exact ⟨n, c, by omega, h, hc⟩

end Sys2Proof.Machine
end

