-- ==== Sys2Proof/Laws/Refine.lean ====
section
/-! SUPPORT. Every command, walked phase by phase, finishes with the result and the state that the command
run at once gives (R68, R191). -/

namespace Sys2Proof.Machine

/-- Within `N` ticks `x` stands at RESPOND with result `r`, all else as in `u`. -/
def Finishes (N : Nat) (x : State) (r : Result) (u : State) : Prop :=
  ∃ n q, n ≤ N ∧ ticks n x = .next (withSeq q u) ∧ q.phase = .respond ∧ q.regs.result = some r

theorem Finishes.mono {N M : Nat} {x u : State} {r : Result} (h : Finishes N x r u) (hle : N ≤ M) : Finishes M x r u := by
  obtain ⟨n, q, hn, h1, h2, h3⟩ := h
  exact ⟨n, q, by omega, h1, h2, h3⟩

theorem finishes_now (r : Result) (q : Seq) (u : State) : Finishes 0 (toRespond r (withSeq q u)) r u :=
  ⟨0, { q with phase := .respond, regs := { q.regs with result := some r } }, Nat.le_refl _, rfl, rfl, rfl⟩

theorem Finishes.after {n N : Nat} {x y u : State} {r : Result} (h : ticks n x = .next y) (k : Finishes N y r u) :
    Finishes (n + N) x r u := by
  obtain ⟨m, q, hm, h1, h2, h3⟩ := k
  exact ⟨n + m, q, by omega, ticks_trans h h1, h2, h3⟩

theorem Finishes.step {N : Nat} {x y u : State} {r : Result} (h : tick x = .next y) (k : Finishes N y r u) :
    Finishes (N + 1) x r u := by
  have := k.after (ticks_one h)
  exact this.mono (by omega)

/-- The response ends it: the state is that of `respond`. -/
theorem Finishes.responds {N : Nat} {x u : State} {r : Result} (h : Finishes N x r u) :
    ∃ n, n ≤ N + 1 ∧ ticks n x = .next (respond r u) := by
  obtain ⟨n, q, hn, h1, h2, h3⟩ := h
  refine ⟨n + 1, by omega, ticks_trans h1 (ticks_one ?_)⟩
  simp [tick, h2, tickRespond, h3, need]

/-! ## Time-block transfers -/

/-- The seven-byte read and what follows it. -/
theorem enterRead_ticks {q : Seq} {i : Instr} (hc : q.cur = some i) (hi : xferDir i = .read) (s : State) :
    ∃ (n : Nat) (q' : Seq) (c : Option (List Byte)), n ≤ 13 ∧ ticks n (enterRead (withSeq q s)) =
        .next (withSeq (q'.at .done (causeOf (memRead s.cfg.addrTimeBlock timeBlockLen s).1) c)
          (memRead s.cfg.addrTimeBlock timeBlockLen s).2) ∧ q'.phase = .xfer ∧ q'.cur = some i ∧
      ∀ bs, (memRead s.cfg.addrTimeBlock timeBlockLen s).1 = .ok bs → c = some bs.1 := by
  let q' : Seq := { q with phase := .xfer, regs := { q.regs with reg := some s.cfg.addrTimeBlock, len := some (BitVec.ofNat 8 timeBlockLen) } }
  have hq := inTransfer_xfer (q := q') rfl hc
  rw [hi] at hq
  obtain ⟨n, c, hn, h, hb⟩ := memRead_ticks hq (reg := s.cfg.addrTimeBlock) (len := BitVec.ofNat 8 timeBlockLen) rfl rfl (by decide) s
  exact ⟨n, q', c, hn, h, rfl, hc, hb⟩

theorem get_tail {q : Seq} (hc : q.cur = some .getDateTime) (s : State) :
    let x := andThen readTimeBlock (fun img t => (.ok (decodedPayload img), t)) s
    Finishes 14 (enterRead (withSeq q s)) (resultOf x.1) x.2 := by
  intro x
  obtain ⟨n, q', c, hn, h, hp, hc', hb⟩ := enterRead_ticks hc rfl s
  refine (Finishes.after (N := 1) h ?_).mono (by omega)
  have hx : x = andThen readTimeBlock (fun img t => (.ok (decodedPayload img), t)) s := rfl
  simp only [readTimeBlock, andThen, asBusError] at hx
  rcases hm : memRead s.cfg.addrTimeBlock timeBlockLen s with ⟨r, t⟩
  rw [hm] at hb
  simp only [hm] at hx
  cases r with
  | error e =>
    refine Finishes.step (N := 0) ?_ (finishes_now _ (q'.at .done (some e) c) _)
    simp only [tick, withSeq_phase, withSeq_cur, withSeq_tphase, hp, hc', need, if_true, afterXfer, withSeq_latched, causeOf]
    rw [hx]; rfl
  | ok bs =>
    have hcb := hb bs rfl
    subst hcb
    let q2 : Seq := { Seq.at q' .done none (some bs.1) with
      regs := { q'.regs with buf := some bs.1, img := some (imageOfBytes bs), ct := some (decodeImage (imageOfBytes bs)) } }
    refine Finishes.step (N := 0) ?_ (finishes_now _ q2 _)
    simp only [tick, withSeq_phase, withSeq_cur, withSeq_tphase, hp, hc', need, if_true, afterXfer, withSeq_latched, causeOf,
      withSeq_regs]
    rw [needBytes_written (bs := bs) rfl, hx]; rfl

theorem sync_tail {q : Seq} (hc : q.cur = some .syncDevToHost) (s : State) :
    let x := andThen readTimeBlock (fun img t =>
      (.ok (.flag (integrityFlag img)), t.setHostEpoch (civilToEpoch t.cfg (decodeImage img)))) s
    Finishes 15 (enterRead (withSeq q s)) (resultOf x.1) x.2 := by
  intro x
  obtain ⟨n, q', c, hn, h, hp, hc', hb⟩ := enterRead_ticks hc rfl s
  refine (Finishes.after (N := 2) h ?_).mono (by omega)
  have hx : x = andThen readTimeBlock (fun img t =>
      (.ok (.flag (integrityFlag img)), t.setHostEpoch (civilToEpoch t.cfg (decodeImage img)))) s := rfl
  simp only [readTimeBlock, andThen, asBusError] at hx
  rcases hm : memRead s.cfg.addrTimeBlock timeBlockLen s with ⟨r, t⟩
  rw [hm] at hb
  simp only [hm] at hx
  cases r with
  | error e =>
    refine (Finishes.step (N := 0) ?_ (finishes_now _ (q'.at .done (some e) c) _)).mono (by omega)
    simp only [tick, withSeq_phase, withSeq_cur, withSeq_tphase, hp, hc', need, if_true, afterXfer, withSeq_latched, causeOf]
    rw [hx]; rfl
  | ok bs =>
    have hcb := hb bs rfl
    subst hcb
    let q2 : Seq := { Seq.at q' .done none (some bs.1) with
      phase := .hostIo
      regs := { q'.regs with buf := some bs.1, img := some (imageOfBytes bs), ct := some (decodeImage (imageOfBytes bs)) } }
    refine Finishes.step (N := 1) (y := withSeq q2 t) ?_ (Finishes.step (N := 0) ?_ (finishes_now _ q2 _))
    · simp only [tick, withSeq_phase, withSeq_cur, withSeq_tphase, hp, hc', need, if_true, afterXfer, withSeq_latched, causeOf, withSeq_regs]
      rw [needBytes_written (bs := bs) rfl]; rfl
    · simp only [tick, withSeq_phase, tickHostIo, withSeq_cur, q2, hc', need, withSeq_regs]
      rw [hx]; rfl

theorem set_tail {q : Seq} {i : Instr} (hc : q.cur = some i) (hi : (∃ ct, i = .setDateTime ct) ∨ i = .syncHostToDev)
    (img : RegisterImage) (s : State) :
    let x := andThen (writeTimeBlock img) (fun _ s => (.ok .unit, s)) s
    Finishes 13 (enterWrite img (withSeq q s)) (resultOf x.1) x.2 := by
  intro x
  have hx : x = andThen (writeTimeBlock img) (fun _ s => (.ok .unit, s)) s := rfl
  let q' : Seq := { q with phase := .xfer, regs := { q.regs with reg := some s.cfg.addrTimeBlock, len := some (BitVec.ofNat 8 timeBlockLen) } }
  have hd : xferDir i = .write := by rcases hi with ⟨ct, rfl⟩ | rfl <;> rfl
  have hq := inTransfer_xfer (q := q') rfl hc
  rw [hd] at hq
  obtain ⟨n, c, hn, h⟩ := memWrite_ticks hq (reg := s.cfg.addrTimeBlock) (len := BitVec.ofNat 8 timeBlockLen)
    (buf := imageBytes img) rfl rfl rfl (by decide) s
  have h7 : (BitVec.ofNat 8 timeBlockLen).toNat = 7 := rfl
  refine (Finishes.after (N := 1) h (Finishes.step (N := 0) ?_ (finishes_now _
    (q'.at .done (causeOf (memWrite s.cfg.addrTimeBlock (imageBytes img) s).1) c) _))).mono (by omega)
  simp only [writeTimeBlock, andThen, asBusError] at hx
  simp only [tick, withSeq_phase, withSeq_cur, withSeq_tphase, need, if_true, afterXfer, withSeq_latched, q', hc]
  rcases hm : memWrite s.cfg.addrTimeBlock (imageBytes img) s with ⟨r, t⟩
  simp only [hm] at hx
  cases r with
  | error e => rw [hx]; rfl
  | ok bs => rcases hi with ⟨ct, rfl⟩ | rfl <;> (rw [hx]; rfl)

/-! ## Initialisation -/

/-- The two configuration writes and what follows them. -/
theorem init_ticks {i : Instr} {mode : Byte} {N : Nat} {img : Option RegisterImage} (k : Act CmdError Payload)
    (hk : ∀ q u, q.cur = some i → q.regs.img = img →
      ∃ y, afterReady i (withSeq q u) = .next y ∧ Finishes N y (resultOf (k u).1) (k u).2)
    (q : Seq) (hc : q.cur = some i) (hmode : q.regs.mode = some mode) (himg : q.regs.img = img) (s : State) :
    let x := andThen (ensureInit mode) (fun _ => k) s
    ∃ y, initOrGo i (withSeq q s) = .next y ∧ Finishes (N + 14) y (resultOf x.1) x.2 := by
  intro x
  have hx : x = andThen (ensureInit mode) (fun _ => k) s := rfl
  simp only [initOrGo, withSeq_initState]
  cases hs : s.initState with
  | ready =>
    have he : ensureInit mode s = (.ok (), s) := by simp [ensureInit, hs]
    rw [andThen_ok he] at hx
    rw [hx]
    obtain ⟨y, h1, h2⟩ := hk q s hc himg
    exact ⟨y, h1, h2.mono (by omega)⟩
  | uninitialized =>
    refine ⟨_, rfl, ?_⟩
    let q1 : Seq := { q with phase := .initC1, regs := { q.regs with reg := some s.cfg.addrControl1, len := some 1 } }
    obtain ⟨n1, c1, hn1, h1⟩ := memWrite_ticks (inTransfer_initC1 (q := q1) rfl) (reg := s.cfg.addrControl1) (len := 1)
      (buf := [control1Value]) rfl rfl rfl (by decide) s
    have hone : (1 : Byte).toNat = 1 := rfl
    have hcfg := (memWrite_run s.cfg.addrControl1 [control1Value] s).1.cfg
    refine (Finishes.after (N := N + 8) h1 ?_).mono (by omega)
    rcases hm : memWrite s.cfg.addrControl1 [control1Value] s with ⟨r, t⟩
    rw [hm] at hcfg
    simp only at hcfg
    cases r with
    | error e =>
      have he : ensureInit mode s = (.error (.initError e), t) := by
        simp [ensureInit, hs, initialise, andThen, asInitError, hm]
      rw [andThen_error he] at hx
      rw [hx]
      refine (Finishes.step (N := 0) ?_ (finishes_now _ (q1.at .done (some e) c1) _)).mono (by omega)
      simp only [tick, withSeq_phase, withSeq_tphase, q1, if_true, afterControl1, withSeq_latched, causeOf]
      rfl
    | ok y =>
      let q2 : Seq := { q with phase := .initC2, regs := { q.regs with reg := some t.cfg.addrControl2, len := some 1, mode := some mode } }
      obtain ⟨n2, c2, hn2, h2⟩ := memWrite_ticks (inTransfer_initC2 (q := q2) rfl) (reg := t.cfg.addrControl2) (len := 1)
        (buf := [control2Value mode]) rfl rfl rfl (by decide) t
      have htick : tick (withSeq (q1.at .done (causeOf (Except.ok (ε := Cause) y)) c1) t) =
          .next (withSeq (q2.at .acq none (some [control2Value mode])) t) := by
        simp only [tick, withSeq_phase, withSeq_tphase, q1, if_true, afterControl1, withSeq_latched, causeOf, withSeq_regs,
          hmode, need]
        rfl
      refine (Finishes.step (N := N + 7) htick ((Finishes.after (N := N + 1) h2 ?_).mono (by omega))).mono (by omega)
      rcases hm2 : memWrite t.cfg.addrControl2 [control2Value mode] t with ⟨r, w⟩
      cases r with
      | error e =>
        have he : ensureInit mode s = (.error (.initError e), w) := by
          simp [ensureInit, hs, initialise, andThen, asInitError, hm, hm2]
        rw [andThen_error he] at hx
        rw [hx]
        refine (Finishes.step (N := 0) ?_ (finishes_now _ (q2.at .done (some e) c2) _)).mono (by omega)
        simp only [tick, withSeq_phase, withSeq_tphase, q2, if_true, afterControl2, withSeq_latched, causeOf]
        rfl
      | ok z =>
        have he : ensureInit mode s = (.ok (), w.setReady) := by
          simp [ensureInit, hs, initialise, andThen, asInitError, hm, hm2]
        rw [andThen_ok he] at hx
        rw [hx]
        obtain ⟨v, g1, g2⟩ := hk (q2.at .done none c2) w.setReady hc himg
        refine Finishes.step ?_ g2
        rw [← g1]
        simp only [tick, withSeq_phase, withSeq_tphase, q2, if_true, afterControl2, withSeq_latched, causeOf, withSeq_cur,
          hc, need, withSeq_setReady]

/-! ## From acceptance to the response -/

/-- The acceptance of a descriptor by an idle controller. -/
theorem accept_eq (d : List Byte) {s : State} (h : ControllerIdle s) :
    accept d s = withSeq ⟨.decodeCmd, .done, none, some d, none, CmdRegs.empty⟩ s := by
  obtain ⟨-, h2, h3, -, h5, h6⟩ := h
  cases s
  simp only at h2 h3 h5 h6
  subst h2 h3 h5 h6
  rfl

/-- The state in which an accepted legal command starts. -/
abbrev startSeq (d : List Byte) (i : Instr) : Seq := ⟨.decodeCmd, .done, none, some d, some i, CmdRegs.empty⟩

/-- Every legal command finishes as it does when run at once. -/
theorem startCommand_ticks (d : List Byte) (i : Instr) (hwf : i.WellFormed) (s : State) :
    ∃ y, startCommand i (withSeq (startSeq d i) s) = .next y ∧
      Finishes 270 y (resultOf (commandAct i s).1) (commandAct i s).2 := by
  cases i with
  | ensureInit mode =>
    obtain ⟨y, h1, h2⟩ := init_ticks (i := .ensureInit mode) (mode := mode) (N := 0) (img := none)
      (fun t => (.ok .unit, t))
      (fun q u _ _ => ⟨_, rfl, finishes_now _ q u⟩)
      { startSeq d (.ensureInit mode) with regs := { CmdRegs.empty with mode := some mode } } rfl rfl rfl s
    exact ⟨y, h1, h2.mono (by omega)⟩
  | getDateTime =>
    obtain ⟨y, h1, h2⟩ := init_ticks (i := .getDateTime) (mode := s.cfg.initModeDefault) (N := 14) (img := none)
      (andThen readTimeBlock fun img t => (.ok (decodedPayload img), t))
      (fun q u hc _ => ⟨_, rfl, get_tail hc u⟩)
      { startSeq d .getDateTime with regs := { CmdRegs.empty with mode := some s.cfg.initModeDefault } } rfl rfl rfl s
    refine ⟨y, h1, ?_⟩
    have he : commandAct .getDateTime s = andThen (ensureInit s.cfg.initModeDefault)
        (fun _ => andThen readTimeBlock fun img t => (.ok (decodedPayload img), t)) s := by
      simp only [commandAct, getImage, andThen, ensureReady]
      rcases ensureInit s.cfg.initModeDefault s with ⟨r, t⟩
      cases r <;> rfl
    rw [he]
    exact h2.mono (by omega)
  | setDateTime ct =>
    let q0 : Seq := { startSeq d (.setDateTime ct) with
      phase := .validate
      regs := { CmdRegs.empty with mode := some s.cfg.initModeDefault, ct := some ct } }
    refine ⟨withSeq q0 s, rfl, ?_⟩
    by_cases hv : Valid s.cfg.dayMax ct
    · have hen : encodeCalendar s.cfg.dayMax ct = .ok (imageOf ct) := by simp [encodeCalendar, hv]
      obtain ⟨y, h1, h2⟩ := init_ticks (i := .setDateTime ct) (mode := s.cfg.initModeDefault) (N := 13)
        (img := some (imageOf ct)) (andThen (writeTimeBlock (imageOf ct)) fun _ s => (.ok .unit, s))
        (fun q u hc himg => ⟨_, by simp only [afterReady, withSeq_regs, himg, need],
          set_tail hc (Or.inl ⟨ct, rfl⟩) (imageOf ct) u⟩)
        { q0 with regs := { q0.regs with img := some (imageOf ct) } } rfl rfl rfl s
      have he : commandAct (.setDateTime ct) s = andThen (ensureInit s.cfg.initModeDefault)
          (fun _ => andThen (writeTimeBlock (imageOf ct)) fun _ s => (.ok .unit, s)) s := by
        simp only [commandAct, setDateTime, andThen, encodeAct, hen, ensureReady]
      rw [he]
      refine (Finishes.step ?_ h2).mono (by omega)
      rw [← h1]
      simp only [tick, withSeq_phase, q0, tickValidate, withSeq_cur, withSeq_regs, need, withSeq_cfg, hen]
      rfl
    · have hen : encodeCalendar s.cfg.dayMax ct = .error .invalidDateTime := by simp only [encodeCalendar, if_neg hv]
      simp only [commandAct, setDateTime_invalid ct s hv]
      refine (Finishes.step (N := 0) ?_ (finishes_now _ q0 s)).mono (by omega)
      simp only [tick, withSeq_phase, q0, tickValidate, withSeq_cur, withSeq_regs, need, withSeq_cfg, hen]
      rfl
  | syncDevToHost =>
    obtain ⟨y, h1, h2⟩ := init_ticks (i := .syncDevToHost) (mode := s.cfg.initModeDefault) (N := 15) (img := none)
      (andThen readTimeBlock fun img t =>
        (.ok (.flag (integrityFlag img)), t.setHostEpoch (civilToEpoch t.cfg (decodeImage img))))
      (fun q u hc _ => ⟨_, rfl, sync_tail hc u⟩)
      { startSeq d .syncDevToHost with regs := { CmdRegs.empty with mode := some s.cfg.initModeDefault } } rfl rfl rfl s
    refine ⟨y, h1, ?_⟩
    have he : commandAct .syncDevToHost s = andThen (ensureInit s.cfg.initModeDefault)
        (fun _ => andThen readTimeBlock fun img t =>
          (.ok (.flag (integrityFlag img)), t.setHostEpoch (civilToEpoch t.cfg (decodeImage img)))) s := by
      simp only [commandAct, syncDevToHost, getImage, andThen, ensureReady]
      rcases ensureInit s.cfg.initModeDefault s with ⟨r, t⟩
      cases r <;> rfl
    rw [he]
    exact h2.mono (by omega)
  | syncHostToDev =>
    let q0 : Seq := { startSeq d .syncHostToDev with
      phase := .hostIo
      regs := { CmdRegs.empty with mode := some s.cfg.initModeDefault } }
    let ct := hostUtc s
    let s' := s.afterHostRead
    let q1 : Seq := { q0 with phase := .validate, regs := { q0.regs with ct := some ct } }
    refine ⟨withSeq q0 s, rfl, ?_⟩
    have ht : tick (withSeq q0 s) = .next (withSeq q1 s') := rfl
    have hcmd : commandAct .syncHostToDev s = setDateTime ct s' := rfl
    rw [hcmd]
    by_cases hv : Valid s.cfg.dayMax ct
    · have hen : encodeCalendar s'.cfg.dayMax ct = .ok (imageOf ct) := by
        have : Valid s'.cfg.dayMax ct := hv
        simp [encodeCalendar, this]
      obtain ⟨y, h1, h2⟩ := init_ticks (i := .syncHostToDev) (mode := s'.cfg.initModeDefault) (N := 13)
        (img := some (imageOf ct)) (andThen (writeTimeBlock (imageOf ct)) fun _ s => (.ok .unit, s))
        (fun q u hc himg => ⟨_, by simp only [afterReady, withSeq_regs, himg, need],
          set_tail hc (Or.inr rfl) (imageOf ct) u⟩)
        { q1 with regs := { q1.regs with img := some (imageOf ct) } } rfl rfl rfl s'
      have he : setDateTime ct s' = andThen (ensureInit s'.cfg.initModeDefault)
          (fun _ => andThen (writeTimeBlock (imageOf ct)) fun _ s => (.ok .unit, s)) s' := by
        simp only [setDateTime, andThen, encodeAct, hen, ensureReady]
      rw [he]
      refine (Finishes.step ht (Finishes.step ?_ h2)).mono (by omega)
      rw [← h1]
      simp only [tick, withSeq_phase, q1, tickValidate, withSeq_cur, withSeq_regs, need, withSeq_cfg, hen]
      rfl
    · have hen : encodeCalendar s'.cfg.dayMax ct = .error .invalidDateTime := by
        have : ¬ Valid s'.cfg.dayMax ct := hv
        simp only [encodeCalendar, if_neg this]
      rw [setDateTime_invalid ct s' hv]
      refine (Finishes.step ht (Finishes.step (N := 0) ?_ (finishes_now _ q1 s'))).mono (by omega)
      simp only [tick, withSeq_phase, q1, tickValidate, withSeq_cur, withSeq_regs, need, withSeq_cfg, hen]
      rfl
  | busWrite reg buf =>
    have hb : InBounds reg buf.length := hwf
    have hlen : buf.length = (BitVec.ofNat 8 buf.length).toNat := by
      rw [BitVec.toNat_ofNat]; have := hb.2.1; omega
    let q0 : Seq := { startSeq d (.busWrite reg buf) with
      phase := .xfer
      regs := { CmdRegs.empty with reg := some reg, len := some (BitVec.ofNat 8 buf.length) } }
    obtain ⟨n, c, hn, h⟩ := memWrite_ticks (inTransfer_xfer (q := q0) (i := .busWrite reg buf) rfl rfl)
      (reg := reg) (len := BitVec.ofNat 8 buf.length) (buf := buf) rfl rfl hlen (by rw [← hlen]; exact hb.1) s
    refine ⟨_, rfl, ?_⟩
    rw [← hlen] at hn
    refine (Finishes.after (N := 1) h (Finishes.step (N := 0) ?_ (finishes_now _
      (q0.at .done (causeOf (memWrite reg buf s).1) c) _))).mono (by have := hb.2.1; omega)
    simp only [tick, withSeq_phase, withSeq_cur, withSeq_tphase, need, if_true, afterXfer, withSeq_latched, q0]
    simp only [commandAct, busWrite, if_pos hb, andThen, asBusError]
    rcases hm : memWrite reg buf s with ⟨r, t⟩
    cases r <;> rfl
  | busRead reg len =>
    have hb : InBounds reg len.toNat := hwf
    let q0 : Seq := { startSeq d (.busRead reg len) with
      phase := .xfer
      regs := { CmdRegs.empty with reg := some reg, len := some len } }
    obtain ⟨n, c, hn, h, hc⟩ := memRead_ticks (inTransfer_xfer (q := q0) (i := .busRead reg len) rfl rfl)
      (reg := reg) (len := len) rfl rfl hb.1 s
    refine ⟨_, rfl, ?_⟩
    refine (Finishes.after (N := 1) h (Finishes.step (N := 0) ?_ (finishes_now _
      (q0.at .done (causeOf (memRead reg len.toNat s).1) c) _))).mono (by have := hb.2.1; omega)
    simp only [tick, withSeq_phase, withSeq_cur, withSeq_tphase, need, if_true, afterXfer, withSeq_latched, q0, withSeq_regs]
    simp only [commandAct, busRead, if_pos hb, andThen, asBusError]
    rcases hm : memRead reg len.toNat s with ⟨r, t⟩
    rw [hm] at hc
    cases r with
    | error e => rfl
    | ok bs => rw [hc bs rfl, needBytes_written (bs := bs) rfl]; rfl
  | encodeTime ct =>
    let q0 : Seq := { startSeq d (.encodeTime ct) with
      phase := .validate
      regs := { CmdRegs.empty with ct := some ct } }
    refine ⟨withSeq q0 s, rfl, ?_⟩
    by_cases hv : Valid s.cfg.dayMax ct
    · have hen : encodeCalendar s.cfg.dayMax ct = .ok (imageOf ct) := by simp [encodeCalendar, hv]
      have hcmd : commandAct (.encodeTime ct) s = (.ok (.image (imageOf ct)), s) := by
        simp only [commandAct, andThen, encodeAct, hen]
      rw [hcmd]
      refine (Finishes.step (N := 0) ?_ (finishes_now _
        { q0 with regs := { q0.regs with img := some (imageOf ct) } } s)).mono (by omega)
      simp only [tick, withSeq_phase, q0, tickValidate, withSeq_cur, withSeq_regs, need, withSeq_cfg, hen]
      rfl
    · have hen : encodeCalendar s.cfg.dayMax ct = .error .invalidDateTime := by simp only [encodeCalendar, if_neg hv]
      have hcmd : commandAct (.encodeTime ct) s = (.error .invalidDateTime, s) := by
        simp only [commandAct, andThen, encodeAct, hen]
      rw [hcmd]
      refine (Finishes.step (N := 0) ?_ (finishes_now _ q0 s)).mono (by omega)
      simp only [tick, withSeq_phase, q0, tickValidate, withSeq_cur, withSeq_regs, need, withSeq_cfg, hen]
      rfl
  | decodeTime img =>
    exact ⟨_, rfl, (finishes_now _ { startSeq d (.decodeTime img) with
      regs := { CmdRegs.empty with img := some img, ct := some (decodeImage img) } } s).mono (by omega)⟩

end Sys2Proof.Machine
end

