-- ==== Sys2Proof/Laws/Held.lean ====
section
/-! SUPPORT. Release exactly what was acquired (R137): every transaction, and so every command, leaves a
trace that acquires only what is not held and releases only what is. -/

namespace Sys2Proof.Machine

theorem heldAfter_append (a b : List BusEvent) (h : Bool) :
    heldAfter h (a ++ b) = (heldAfter h a).bind fun h' => heldAfter h' b := by
  induction a generalizing h with
  | nil => rfl
  | cons e rest ih =>
    rcases e with ⟨e, r⟩
    cases e <;> simp only [List.cons_append, heldAfter] <;> split <;> first | rfl | exact ih _

/-- Events that neither acquire nor release. -/
def Inner (e : TpEvent) : Prop := (∀ c, e ≠ .acq c) ∧ e ≠ .rel

theorem heldAfter_inner (evs : List BusEvent) (h : ∀ e ∈ evs, Inner e.event) :
    heldAfter true evs = some true := by
  induction evs with
  | nil => rfl
  | cons e rest ih =>
    have h1 := h e (List.mem_cons_self ..)
    have h2 := ih fun x hx => h x (List.mem_cons_of_mem _ hx)
    rcases e with ⟨e, r⟩
    cases e with
    | acq c => exact absurd rfl (h1.1 c)
    | rel => exact absurd rfl h1.2
    | _ => simpa [heldAfter] using h2

theorem writeEvents_inner (a : Addr7) (reg : Byte) (buf : List Byte) : ∀ e ∈ writeEvents a reg buf, Inner e := by
  intro e he
  simp only [writeEvents, List.mem_cons, List.mem_map] at he
  rcases he with rfl | rfl | ⟨b, -, rfl⟩ <;> exact ⟨by simp, by simp⟩

theorem readEvents_inner (a : Addr7) (reg : Byte) (len : Nat) : ∀ e ∈ readEvents a reg len, Inner e := by
  intro e he
  simp only [readEvents, List.mem_cons, List.mem_map] at he
  rcases he with rfl | rfl | rfl | ⟨b, -, rfl⟩ <;> exact ⟨by simp, by simp⟩

/-- A transaction releases exactly what it acquired (R137). -/
theorem TxnRun.held {cfg : BusCfg} {frame : List TpEvent} (hf : ∀ e ∈ frame, Inner e) {evs : List BusEvent}
    {r : Except Cause (List Byte)} (h : TxnRun cfg frame evs r) : heldAfter false evs = some false := by
  have body : ∀ b : List BusEvent, (∀ e ∈ b.map BusEvent.event, e ∈ frame) → heldAfter true b = some true := by
    intro b hb
    exact heldAfter_inner b fun e he => hf _ (hb _ (List.mem_map_of_mem he))
  cases h with
  | acquireFails f => rfl
  | frameFails before e f after tail hframe hok htail =>
    have hb := body before (by intro x hx; rw [hframe]; exact List.mem_append_left _ hx)
    have he := hf e (by rw [hframe]; simp)
    have htl : heldAfter true tail = some false := by
      split at htail
      · match tail, htail with
        | [⟨.rel, r⟩], _ => rfl
      · match tail, htail with
        | [⟨.stop, r⟩, ⟨.rel, r'⟩], _ => rfl
    have he' : heldAfter true (⟨e, .fail f⟩ :: tail) = some false := by
      have := heldAfter_inner [⟨e, .fail f⟩] (by simpa using he)
      have h2 := heldAfter_append [⟨e, .fail f⟩] tail true
      rw [this] at h2
      exact h2.trans htl
    show heldAfter true (before ++ _) = _
    rw [heldAfter_append, hb]
    exact he'
  | stopFails body' f r hframe hok =>
    have hb := body body' (by intro x hx; rw [← hframe]; exact hx)
    show heldAfter true (body' ++ _) = _
    rw [heldAfter_append, hb]
    rfl
  | releaseFails body' f hframe hok =>
    have hb := body body' (by intro x hx; rw [← hframe]; exact hx)
    show heldAfter true (body' ++ _) = _
    rw [heldAfter_append, hb]
    rfl
  | succeeds body' hframe hok =>
    have hb := body body' (by intro x hx; rw [← hframe]; exact hx)
    show heldAfter true (body' ++ _) = _
    rw [heldAfter_append, hb]
    rfl

theorem held_append {a b : List BusEvent} (ha : heldAfter false a = some false) (hb : heldAfter false b = some false) :
    heldAfter false (a ++ b) = some false := by
  rw [heldAfter_append, ha]; exact hb

theorem InitRun.held {cfg : Config} {mode : Byte} {d d' : Device} {evs : List BusEvent} {r : Except Cause Unit}
    (h : InitRun cfg mode d evs r d') : heldAfter false evs = some false := by
  cases h with
  | firstFails evs c _ h1 _ => exact h1.held (writeEvents_inner _ _ _)
  | secondFails evs evs' bs c _ _ h1 _ h2 _ =>
    exact held_append (h1.held (writeEvents_inner _ _ _)) (h2.held (writeEvents_inner _ _ _))
  | succeeds evs evs' bs bs' _ _ h1 _ h2 _ =>
    exact held_append (h1.held (writeEvents_inner _ _ _)) (h2.held (writeEvents_inner _ _ _))

theorem ReadyRun.held {s : State} {mode : Byte} {evs : List BusEvent} {r : Except Cause Unit} {x : DeviceInitState}
    {d' : Device} (h : ReadyRun s mode evs r x d') : heldAfter false evs = some false := by
  simp only [ReadyRun] at h
  split at h
  · rw [h.1]; rfl
  · exact h.1.held

theorem TimeRun.held {s : State} {frame : List TpEvent} (hf : ∀ e ∈ frame, Inner e) {evs : List BusEvent}
    {x : DeviceInitState} {q : Except CmdError (List Byte)} {leaves : Device → List BusEvent → Device → Prop} {d' : Device}
    (h : TimeRun s frame leaves evs x q d') :
    heldAfter false evs = some false := by
  obtain ⟨evs0, r, d0, h0, h1⟩ := h
  cases r with
  | error c => rw [h1.1]; exact h0.held
  | ok _ =>
    obtain ⟨evs1, r1, h2, rfl, -, -⟩ := h1
    exact held_append h0.held (h2.held hf)

theorem setDateTime_held (ct : CalendarTime) (s : State) :
    ∃ evs, (setDateTime ct s).2.trace = s.trace ++ evs ∧ heldAfter false evs = some false := by
  by_cases hv : Valid s.cfg.dayMax ct
  · obtain ⟨-, evs, q, ht, hr, -⟩ := setDateTime_run ct s hv
    exact ⟨evs, ht, hr.held (writeEvents_inner _ _ _)⟩
  · rw [setDateTime_invalid ct s hv]; exact ⟨[], by simp, rfl⟩

/-- The trace of every command releases exactly what it acquires (R137). -/
theorem commandAct_held (i : Instr) (s : State) :
    ∃ evs, (commandAct i s).2.trace = s.trace ++ evs ∧ heldAfter false evs = some false := by
  have pass : ∀ {α β : Type} (m : Act CmdError α) (k : α → Act CmdError β)
      (_ : ∀ a u, (k a u).2.trace = u.trace),
      (andThen m k s).2.trace = (m s).2.trace := by
    intro α β m k hk
    simp only [andThen]
    rcases m s with ⟨r, t⟩
    cases r with
    | error e => rfl
    | ok a => exact hk a t
  cases i with
  | ensureInit mode =>
    obtain ⟨-, evs, r, ht, hr, -⟩ := ensureInit_run mode s
    exact ⟨evs, by rw [← ht]; exact pass _ _ fun _ _ => rfl, hr.held⟩
  | getDateTime =>
    obtain ⟨-, evs, r, ht, hr, -⟩ := getImage_run s
    exact ⟨evs, by rw [← ht]; exact pass _ _ fun _ _ => rfl, hr.held (readEvents_inner _ _ _)⟩
  | setDateTime ct => exact setDateTime_held ct s
  | syncDevToHost =>
    obtain ⟨-, evs, r, ht, hr, -⟩ := getImage_run s
    exact ⟨evs, by rw [← ht]; exact pass _ _ fun _ _ => rfl, hr.held (readEvents_inner _ _ _)⟩
  | syncHostToDev => exact setDateTime_held (hostUtc s) s.afterHostRead
  | busWrite reg buf =>
    simp only [commandAct, busWrite]
    split
    · obtain ⟨-, -, evs, r, ht, hr, -⟩ := memWrite_run reg buf s
      refine ⟨evs, ?_, hr.held (writeEvents_inner _ _ _)⟩
      rw [← ht, ← asBusError_snd]
      exact pass _ _ fun _ _ => rfl
    · exact ⟨[], by simp, rfl⟩
  | busRead reg len =>
    simp only [commandAct, busRead]
    split
    · obtain ⟨-, -, evs, r, ht, hr, -⟩ := memRead_run reg len.toNat s
      refine ⟨evs, ?_, hr.held (readEvents_inner _ _ _)⟩
      rw [← ht, ← asBusError_snd]
      exact pass _ _ fun _ _ => rfl
    · exact ⟨[], by simp, rfl⟩
  | encodeTime ct =>
    exact ⟨[], by simp only [List.append_nil]; exact pass _ _ fun _ _ => rfl, rfl⟩
  | decodeTime img => exact ⟨[], by simp [commandAct], rfl⟩

end Sys2Proof.Machine
end

