-- ==== Sys2Proof/Laws/Invariant.lean ====
section
/-! SUPPORT. What one tick and one step can do: they reach their next state by elementary actions, and a
coherent state goes on to a coherent one (R22, R24, R42, R138, R191). -/

namespace Sys2Proof.Machine

/-! ## What a tick changes outside the sequencing registers -/

/-- `t` is `u` but for sequencing registers, responses, and `u` is reached from `s`. -/
structure Ticked (s t : State) : Prop where
  reach : ∃ u, Reach s u ∧ t.cfg = u.cfg ∧ t.initState = u.initState ∧ t.dev = u.dev ∧ t.inbox = u.inbox ∧
    t.trace = u.trace ∧ t.env.mode = u.env.mode

/-- Every next state of an outcome is so, and the outcome is no refusal. -/
def TickedOutcome (s : State) (o : Tick) : Prop := (∀ t, o = .next t → Ticked s t) ∧ ∀ r, o ≠ .refused r

theorem TickedOutcome.next {s t : State} (h : Ticked s t) : TickedOutcome s (.next t) :=
  ⟨fun u hu => (by cases hu; exact h), fun r hr => (by cases hr)⟩

theorem TickedOutcome.need {α : Type} {s : State} {r : ValueReg} {v : Option α} {k : α → Tick}
    (h : ∀ a, TickedOutcome s (k a)) : TickedOutcome s (Machine.need r v k) := by
  cases v with
  | none => exact ⟨fun t ht => (by cases ht), fun x hx => (by cases hx)⟩
  | some a => exact h a

theorem TickedOutcome.fault {s : State} {f : Fault} : TickedOutcome s (.fault f) :=
  ⟨fun t ht => (by cases ht), fun r hr => (by cases hr)⟩

theorem TickedOutcome.needBytes {n : Nat} {s : State} {r : CmdRegs} {k : Received n → Tick}
    (h : ∀ bs, TickedOutcome s (k bs)) : TickedOutcome s (Machine.needBytes n r k) := by
  simp only [Machine.needBytes]
  split
  · exact h _
  · exact .fault

theorem Ticked.cfg {s t : State} (h : Ticked s t) : t.cfg = s.cfg := by
  obtain ⟨u, hr, h1, -⟩ := h
  exact h1.trans hr.frame.cfg

theorem Ticked.inbox {s t : State} (h : Ticked s t) : t.inbox = s.inbox := by
  obtain ⟨u, hr, -, -, -, h4, -⟩ := h
  exact h4.trans hr.frame.inbox

theorem Ticked.ready {s t : State} (h : Ticked s t) (hs : s.initState = .ready) : t.initState = .ready := by
  obtain ⟨u, hr, -, h2, -⟩ := h
  exact h2.trans (hr.frame.ready hs)

theorem Ticked.wf {s t : State} (h : Ticked s t) (hs : Memory.wf s.dev.regs = true) : Memory.wf t.dev.regs = true := by
  obtain ⟨u, hr, -, -, h3, -⟩ := h
  rw [h3]; exact hr.wf hs

theorem afterReady_ticked {s u : State} (i : Instr) (h : Reach s u) (v : State) (hv : v.cfg = u.cfg)
    (h2 : v.initState = u.initState) (h3 : v.dev = u.dev) (h4 : v.inbox = u.inbox) (h5 : v.trace = u.trace)
    (h6 : v.env.mode = u.env.mode) : TickedOutcome s (afterReady i v) := by
  have now : ∀ w : State, w.cfg = v.cfg → w.initState = v.initState → w.dev = v.dev → w.inbox = v.inbox →
      w.trace = v.trace → w.env.mode = v.env.mode → TickedOutcome s (.next w) :=
    fun w g1 g2 g3 g4 g5 g6 => .next ⟨u, h, g1.trans hv, g2.trans h2, g3.trans h3, g4.trans h4, g5.trans h5, g6.trans h6⟩
  cases i with
  | ensureInit mode => exact now _ rfl rfl rfl rfl rfl rfl
  | getDateTime => exact now _ rfl rfl rfl rfl rfl rfl
  | setDateTime ct => exact .need fun _ => now _ rfl rfl rfl rfl rfl rfl
  | syncDevToHost => exact now _ rfl rfl rfl rfl rfl rfl
  | syncHostToDev => exact .need fun _ => now _ rfl rfl rfl rfl rfl rfl
  | busWrite _ _ => exact .fault
  | busRead _ _ => exact .fault
  | encodeTime _ => exact .fault
  | decodeTime _ => exact .fault

theorem initOrGo_ticked {s : State} (i : Instr) (v : State) (hv : v.cfg = s.cfg)
    (h2 : v.initState = s.initState) (h3 : v.dev = s.dev) (h4 : v.inbox = s.inbox) (h5 : v.trace = s.trace)
    (h6 : v.env.mode = s.env.mode) : TickedOutcome s (initOrGo i v) := by
  simp only [initOrGo]
  split
  · exact afterReady_ticked i .refl v hv h2 h3 h4 h5 h6
  · exact .next ⟨s, .refl, hv, h2, h3, h4, h5, h6⟩

theorem startCommand_ticked {s : State} (i : Instr) (v : State) (hv : v.cfg = s.cfg)
    (h2 : v.initState = s.initState) (h3 : v.dev = s.dev) (h4 : v.inbox = s.inbox) (h5 : v.trace = s.trace)
    (h6 : v.env.mode = s.env.mode) : TickedOutcome s (startCommand i v) := by
  have now : ∀ w : State, w.cfg = v.cfg → w.initState = v.initState → w.dev = v.dev → w.inbox = v.inbox →
      w.trace = v.trace → w.env.mode = v.env.mode → TickedOutcome s (.next w) :=
    fun w g1 g2 g3 g4 g5 g6 => .next ⟨s, .refl, g1.trans hv, g2.trans h2, g3.trans h3, g4.trans h4, g5.trans h5, g6.trans h6⟩
  cases i with
  | ensureInit mode => exact initOrGo_ticked _ _ hv h2 h3 h4 h5 h6
  | getDateTime => exact initOrGo_ticked _ _ hv h2 h3 h4 h5 h6
  | setDateTime ct => exact now _ rfl rfl rfl rfl rfl rfl
  | syncDevToHost => exact initOrGo_ticked _ _ hv h2 h3 h4 h5 h6
  | syncHostToDev => exact now _ rfl rfl rfl rfl rfl rfl
  | busWrite _ _ => exact now _ rfl rfl rfl rfl rfl rfl
  | busRead _ _ => exact now _ rfl rfl rfl rfl rfl rfl
  | encodeTime _ => exact now _ rfl rfl rfl rfl rfl rfl
  | decodeTime _ => exact now _ rfl rfl rfl rfl rfl rfl

theorem advance_ticked {α : Type} {s u : State} (h : Reach s u) {next : α → State → State}
    (hn : ∀ a t, (next a t).cfg = t.cfg ∧ (next a t).initState = t.initState ∧ (next a t).dev = t.dev ∧
      (next a t).inbox = t.inbox ∧ (next a t).trace = t.trace ∧ (next a t).env.mode = t.env.mode)
    (r : Except TpFailure α) : TickedOutcome s (advance next (r, u)) := by
  cases r with
  | error f => exact .next ⟨u, h, rfl, rfl, rfl, rfl, rfl, rfl⟩
  | ok a => exact .next ⟨u, h, hn a u⟩

theorem tickTransfer_ticked (dir : Dir) (s : State) : TickedOutcome s (tickTransfer dir s) := by
  have hset : ∀ (p : TPhase) (t : State), (setTPhase p t).cfg = t.cfg ∧ (setTPhase p t).initState = t.initState ∧
      (setTPhase p t).dev = t.dev ∧ (setTPhase p t).inbox = t.inbox ∧ (setTPhase p t).trace = t.trace ∧
      (setTPhase p t).env.mode = t.env.mode := fun _ _ => ⟨rfl, rfl, rfl, rfl, rfl, rfl⟩
  have hsend : ∀ e, (∀ a dir, e ≠ .start a dir) → Reach s (send e s).2 := fun e he => send_reaches e he s
  simp only [tickTransfer]
  split
  · have h := hsend (.acq s.cfg.busCfg) (by simp)
    rcases hs : send (.acq s.cfg.busCfg) s with ⟨r, t⟩
    rw [hs] at h
    cases r with
    | error f => exact .next ⟨t, h, rfl, rfl, rfl, rfl, rfl, rfl⟩
    | ok _ => exact .next ⟨t, h, rfl, rfl, rfl, rfl, rfl, rfl⟩
  · exact advance_ticked (startDev_reaches .write s) (fun _ t => hset _ t) _
  · exact .need fun reg => advance_ticked (hsend (.tx reg) (by simp)) (fun _ t => hset _ t) _
  · exact .need fun len => .need fun b => advance_ticked (hsend _ (by simp)) (fun _ t => hset _ t) _
  · exact advance_ticked (startDev_reaches .read s) (fun _ t => hset _ t) _
  · refine .need fun len => ?_
    split
    · refine advance_ticked (recv_reaches _ s) ?_ _
      intro b t
      exact ⟨rfl, rfl, rfl, rfl, rfl, rfl⟩
    · exact .fault
  · have h := hsend .stop (by simp)
    rcases hs : send .stop s with ⟨r, t⟩
    rw [hs] at h
    cases r with
    | error f => exact .next ⟨t, h, rfl, rfl, rfl, rfl, rfl, rfl⟩
    | ok _ => exact .next ⟨t, h, rfl, rfl, rfl, rfl, rfl, rfl⟩
  · have h := hsend .rel (by simp)
    rcases hs : send .rel s with ⟨r, t⟩
    rw [hs] at h
    cases r with
    | error f => exact .next ⟨t, h, rfl, rfl, rfl, rfl, rfl, rfl⟩
    | ok _ => exact .next ⟨t, h, rfl, rfl, rfl, rfl, rfl, rfl⟩
  · exact .fault

/-- One tick is elementary actions and sequencing (R24, R138). -/
theorem tick_ticked (s : State) : TickedOutcome s (tick s) := by
  have now : ∀ w : State, w.cfg = s.cfg → w.initState = s.initState → w.dev = s.dev → w.inbox = s.inbox →
      w.trace = s.trace → w.env.mode = s.env.mode → TickedOutcome s (.next w) :=
    fun w g1 g2 g3 g4 g5 g6 => .next ⟨s, .refl, g1, g2, g3, g4, g5, g6⟩
  simp only [tick]
  split
  · exact now _ rfl rfl rfl rfl rfl rfl
  · refine .need fun d => ?_
    split
    · exact now _ rfl rfl rfl rfl rfl rfl
    · exact startCommand_ticked _ _ rfl rfl rfl rfl rfl rfl
  · refine .need fun i => .need fun ct => ?_
    split
    · exact now _ rfl rfl rfl rfl rfl rfl
    · split
      · exact now _ rfl rfl rfl rfl rfl rfl
      · exact initOrGo_ticked _ _ rfl rfl rfl rfl rfl rfl
  · split
    · simp only [afterControl1]
      split
      · exact now _ rfl rfl rfl rfl rfl rfl
      · exact .need fun _ => now _ rfl rfl rfl rfl rfl rfl
    · exact tickTransfer_ticked _ s
  · split
    · simp only [afterControl2]
      split
      · exact now _ rfl rfl rfl rfl rfl rfl
      · exact .need fun i => afterReady_ticked i (Reach.refl.ready) _ rfl rfl rfl rfl rfl rfl
    · exact tickTransfer_ticked _ s
  · refine .need fun i => ?_
    split
    · simp only [afterXfer]
      split
      · exact now _ rfl rfl rfl rfl rfl rfl
      · cases i with
        | ensureInit mode => exact .fault
        | getDateTime => exact .needBytes fun _ => now _ rfl rfl rfl rfl rfl rfl
        | setDateTime ct => exact now _ rfl rfl rfl rfl rfl rfl
        | syncDevToHost => exact .needBytes fun _ => now _ rfl rfl rfl rfl rfl rfl
        | syncHostToDev => exact now _ rfl rfl rfl rfl rfl rfl
        | busWrite reg buf => exact now _ rfl rfl rfl rfl rfl rfl
        | busRead reg len => exact .need fun _ => .needBytes fun _ => now _ rfl rfl rfl rfl rfl rfl
        | encodeTime ct => exact .fault
        | decodeTime img => exact .fault
    · exact tickTransfer_ticked _ s
  · refine .need fun i => ?_
    split
    · exact .need fun ct => .need fun img => .next ⟨_, Reach.refl.hostEpoch (civilToEpoch s.cfg ct), rfl, rfl, rfl, rfl, rfl, rfl⟩
    · exact .next ⟨_, Reach.refl.hostRead, rfl, rfl, rfl, rfl, rfl, rfl⟩
    · exact .fault
  · exact .need fun r => now _ rfl rfl rfl rfl rfl rfl

end Sys2Proof.Machine
end

