-- ==== Sys2Proof/Laws/Coherent.lean ====
section
/-! SUPPORT. A coherent state goes on to a coherent state, without a fault (R22, R24, R42, R191). -/

namespace Sys2Proof.Machine

/-- What a transaction's tick leaves alone. -/
structure SameCommand (s t : State) : Prop where
  phase     : t.phase = s.phase
  cur       : t.cur = s.cur
  initState : t.initState = s.initState
  mode      : t.regs.mode = s.regs.mode
  img       : t.regs.img = s.regs.img
  len       : t.regs.len = s.regs.len

/-- The error path of `advance` is coherent. -/
theorem failed_coherent {dir : Dir} {s u : State} {reg len : Byte} (f : TpFailure)
    (hu : u = { s with dev := u.dev, tpInstalled := u.tpInstalled, trace := u.trace, env := u.env })
    (hr : s.regs.reg = some reg) (hl : s.regs.len = some len) (h1 : 1 ≤ len.toNat)
    (hw : dir = .write → s.regs.written.length = len.toNat) (hh : s.busHeld = true) (hlt : s.latched = none) :
    TransferCoherent dir { u with latched := latch u.latched f.cause, tphase := if f = .arbLost then .rel else .stop } ∧
    SameCommand s { u with latched := latch u.latched f.cause, tphase := if f = .arbLost then .rel else .stop } := by
  have hl0 : u.latched = none := by rw [hu]; exact hlt
  have hr' : u.regs = s.regs := by rw [hu]
  have hh' : u.busHeld = true := by rw [hu]; exact hh
  refine ⟨⟨reg, len, ?_⟩, ?_⟩
  · simp only [hr', hl0, latch]
    refine ⟨hr, hl, h1, hw, ?_⟩
    by_cases hf : f = .arbLost
    · simp only [if_pos hf]; exact ⟨hh', fun h => by cases h⟩
    · simp only [if_neg hf]; exact ⟨hh', fun h => by cases h⟩
  · constructor
    · show u.phase = s.phase; rw [hu]
    · show u.cur = s.cur; rw [hu]
    · show u.initState = s.initState; rw [hu]
    · show u.regs.mode = s.regs.mode; rw [hr']
    · show u.regs.img = s.regs.img; rw [hr']
    · show u.regs.len = s.regs.len; rw [hr']

theorem afterEvent_form (e : TpEvent) (s : State) : afterEvent e s =
    { s with dev := (afterEvent e s).dev, tpInstalled := (afterEvent e s).tpInstalled,
             trace := (afterEvent e s).trace, env := (afterEvent e s).env } := rfl

theorem sameCommand_setTPhase (p : TPhase) (e : TpEvent) (s : State) : SameCommand s (setTPhase p (afterEvent e s)) := by
  constructor <;> rfl

/-- One tick of a coherent transaction (R138). -/
theorem tickTransfer_coherent {dir : Dir} {s : State} (h : TransferCoherent dir s) (hp : s.tphase ≠ .done) :
    ∃ t, tickTransfer dir s = .next t ∧ TransferCoherent dir t ∧ SameCommand s t := by
  obtain ⟨reg, len, hr, hl, h1, hw, hm⟩ := h
  have fail : ∀ (e : TpEvent) (f : TpFailure), s.busHeld = true → s.latched = none →
      ∃ t, advance (α := Unit) (fun _ t => t) (.error f, afterEvent e s) = .next t ∧
        TransferCoherent dir t ∧ SameCommand s t :=
    fun e f hh hlt => ⟨_, rfl, failed_coherent f (afterEvent_form e s) hr hl h1 hw hh hlt⟩
  simp only [tickTransfer]
  cases hs : s.tphase with
  | acq =>
    simp only [hs] at hm
    have hsnd := send_snd (.acq s.cfg.busCfg) s
    rcases hse : send (.acq s.cfg.busCfg) s with ⟨r, t⟩
    rw [hse] at hsnd
    simp only at hsnd
    subst hsnd
    cases r with
    | error f =>
      refine ⟨_, rfl, ⟨reg, len, hr, hl, h1, hw, hm.1, fun hh => ?_⟩, by constructor <;> rfl⟩
      rw [show (afterEvent (.acq s.cfg.busCfg) s).latched = none from hm.2.1] at hh
      cases hh
    | ok _ => exact ⟨_, rfl, ⟨reg, len, hr, hl, h1, hw, rfl, hm.2.1, hm.2.2⟩, by constructor <;> rfl⟩
  | startW =>
    simp only [hs] at hm
    rcases send_cases (.start s.cfg.devAddr .write) s (by simp) with ⟨-, hse⟩ | ⟨f, -, -, hse⟩
    · simp only [startDev, hse, advance]
      exact ⟨_, rfl, ⟨reg, len, hr, hl, h1, hw, hm⟩, sameCommand_setTPhase _ _ _⟩
    · simp only [startDev, hse, advance]
      exact fail _ f hm.1 hm.2.1
  | reg =>
    simp only [hs] at hm
    simp only [hr, need]
    rcases send_cases (.tx reg) s (by simp) with ⟨-, hse⟩ | ⟨f, -, -, hse⟩
    · simp only [hse, advance]
      cases dir with
      | write =>
        exact ⟨_, rfl, ⟨reg, len, hr, hl, h1, hw, hm.1, hm.2.1, rfl, h1⟩, sameCommand_setTPhase _ _ _⟩
      | read => exact ⟨_, rfl, ⟨reg, len, hr, hl, h1, hw, hm.1, hm.2.1, rfl, hm.2.2 rfl⟩, sameCommand_setTPhase _ _ _⟩
    · simp only [hse, advance]
      exact fail _ f hm.1 hm.2.1
  | dataTx i =>
    simp only [hs] at hm
    obtain ⟨g1, g2, rfl, g4⟩ := hm
    have hlen := hw rfl
    have hget : s.regs.written[i]? = some (s.regs.written[i]'(by omega)) := List.getElem?_eq_getElem (by omega)
    simp only [hl, need, hget]
    rcases send_cases (.tx (s.regs.written[i]'(by omega))) s (by simp) with ⟨-, hse⟩ | ⟨f, -, -, hse⟩
    · simp only [hse, advance]
      by_cases hlt : i + 1 < len.toNat
      · simp only [if_pos hlt]
        exact ⟨_, rfl, ⟨reg, len, hr, hl, h1, hw, g1, g2, rfl, hlt⟩, sameCommand_setTPhase _ _ _⟩
      · simp only [if_neg hlt]
        exact ⟨_, rfl, ⟨reg, len, hr, hl, h1, hw, g1, fun _ h => by cases h⟩, sameCommand_setTPhase _ _ _⟩
    · simp only [hse, advance]
      exact fail _ f g1 g2
  | startR =>
    simp only [hs] at hm
    obtain ⟨g1, g2, rfl, g4⟩ := hm
    rcases send_cases (.start s.cfg.devAddr .read) s (by simp) with ⟨-, hse⟩ | ⟨f, -, -, hse⟩
    · simp only [startDev, hse, advance]
      exact ⟨_, rfl, ⟨reg, len, hr, hl, h1, hw, g1, g2, rfl, h1,
        (congrArg (fun b => (Option.getD b []).length) g4)⟩, sameCommand_setTPhase _ _ _⟩
    · simp only [startDev, hse, advance]
      exact fail _ f g1 g2
  | dataRx i =>
    simp only [hs] at hm
    obtain ⟨g1, g2, rfl, g4, g5⟩ := hm
    simp only [hl, need, if_pos g5]
    rcases recv_cases (decide (i + 1 ≠ len.toNat)) s with ⟨b, -, hse⟩ | ⟨f, -, -, hse⟩
    · have hlen : (s.regs.written ++ [b]).length = i + 1 := by simp [g5]
      simp only [hse, advance]
      by_cases hlt : i + 1 < len.toNat
      · simp only [if_pos hlt]
        exact ⟨_, rfl, ⟨reg, len, hr, hl, h1, nofun, g1, g2, rfl, hlt, hlen⟩, by constructor <;> rfl⟩
      · simp only [if_neg hlt]
        exact ⟨_, rfl, ⟨reg, len, hr, hl, h1, nofun, g1, fun _ _ => hlen.trans (by omega)⟩, by constructor <;> rfl⟩
    · simp only [hse, advance]
      exact fail _ f g1 g2
  | stop =>
    simp only [hs] at hm
    rcases send_cases .stop s (by simp) with ⟨-, hse⟩ | ⟨f, -, -, hse⟩
    · simp only [hse]
      exact ⟨_, rfl, ⟨reg, len, hr, hl, h1, hw, hm⟩, sameCommand_setTPhase _ _ _⟩
    · simp only [hse]
      refine ⟨_, rfl, ⟨reg, len, hr, hl, h1, hw, hm.1, fun hh => ?_⟩, by constructor <;> rfl⟩
      simp only [latch] at hh
      split at hh <;> cases hh
  | rel =>
    simp only [hs] at hm
    rcases send_cases .rel s (by simp) with ⟨-, hse⟩ | ⟨f, -, -, hse⟩
    · simp only [hse]
      exact ⟨_, rfl, ⟨reg, len, hr, hl, h1, hw, rfl, hm.2⟩, by constructor <;> rfl⟩
    · simp only [hse]
      refine ⟨_, rfl, ⟨reg, len, hr, hl, h1, hw, rfl, fun hh => ?_⟩, by constructor <;> rfl⟩
      simp only [latch] at hh
      split at hh <;> cases hh
  | done => exact absurd hs hp

/-- The transfer is over: the bus is not held, and a read without a latched error has all its bytes (R42). -/
theorem TransferCoherent.done {dir : Dir} {s : State} (h : TransferCoherent dir s) (hp : s.tphase = .done) :
    s.busHeld = false ∧ ∃ len, s.regs.len = some len ∧ 1 ≤ len.toNat ∧
      (s.latched = none → dir = .read → s.regs.written.length = len.toNat) := by
  obtain ⟨reg, len, -, hl, h1, -, hm⟩ := h
  simp only [hp] at hm
  exact ⟨hm.1, len, hl, h1, hm.2⟩

/-- Bytes written are a value. -/
theorem CmdRegs.buf_of_written {r : CmdRegs} (h : 1 ≤ r.written.length) : r.buf = some r.written := by
  rcases hb : r.buf with _ | bs
  · simp [CmdRegs.written, hb] at h
  · simp [CmdRegs.written, hb]

theorem coherent_error {s : State} (e : CmdError) (h : s.busHeld = false) : Coherent (toRespond (.err e) s) :=
  ⟨h, trivial⟩

theorem coherent_ok {s : State} (p : Payload) (h : s.busHeld = false) (hp : ResultHeld p s.regs) :
    Coherent (toRespond (.ok p) s) :=
  ⟨h, by cases p <;> exact hp⟩

/-- A transaction that is about to start is coherent. -/
theorem startTransaction_coherent (p : Phase) (dir : Dir) (reg len : Byte) (buf : Option (List Byte)) (s : State)
    (hh : s.busHeld = false) (h1 : 1 ≤ len.toNat) (hw : dir = .write → (buf.getD []).length = len.toNat)
    (hr : dir = .read → buf = none) : TransferCoherent dir (startTransaction p reg len buf s) :=
  ⟨reg, len, rfl, rfl, h1, hw, hh, rfl, hr⟩

/-- Where a device-level command goes once Ready (R191). -/
theorem afterReady_coherent {i : Instr} {s : State} (hh : s.busHeld = false) (hc : s.cur = some i)
    (hi : ImageReady i s.regs.img) :
    ∃ t, afterReady i s = .next t ∧ Coherent t := by
  have h7 : (BitVec.ofNat 8 timeBlockLen).toNat = 7 := rfl
  cases i with
  | ensureInit mode => exact ⟨_, rfl, coherent_ok _ hh trivial⟩
  | getDateTime =>
    exact ⟨_, rfl, .getDateTime, hc, startTransaction_coherent .xfer .read _ _ _ s hh (by rw [h7]; decide) (by simp) (by simp), rfl⟩
  | setDateTime ct =>
    obtain ⟨img, himg⟩ := Option.isSome_iff_exists.1 hi
    simp only [afterReady, himg, need]
    exact ⟨_, rfl, .setDateTime ct, hc, startTransaction_coherent .xfer .write _ _ _ s hh (by rw [h7]; decide) (by intro; rfl) (by simp), trivial⟩
  | syncDevToHost =>
    exact ⟨_, rfl, .syncDevToHost, hc, startTransaction_coherent .xfer .read _ _ _ s hh (by rw [h7]; decide) (by simp) (by simp), rfl⟩
  | syncHostToDev =>
    obtain ⟨img, himg⟩ := Option.isSome_iff_exists.1 hi
    simp only [afterReady, himg, need]
    exact ⟨_, rfl, .syncHostToDev, hc, startTransaction_coherent .xfer .write _ _ _ s hh (by rw [h7]; decide) (by intro; rfl) (by simp), trivial⟩
  | busWrite _ _ => exact hi.elim
  | busRead _ _ => exact hi.elim
  | encodeTime _ => exact hi.elim
  | decodeTime _ => exact hi.elim

theorem initOrGo_coherent {i : Instr} {s : State} (hh : s.busHeld = false) (hc : s.cur = some i)
    (hm : s.regs.mode.isSome)
    (hi : ImageReady i s.regs.img) :
    ∃ t, initOrGo i s = .next t ∧ Coherent t := by
  simp only [initOrGo]
  split
  · exact afterReady_coherent hh hc hi
  · rename_i hs
    exact ⟨_, rfl, startTransaction_coherent .initC1 .write _ _ _ s hh (by decide) (by intro; rfl) (by simp),
      i, hc, hs, hm, hi⟩

theorem startCommand_coherent {i : Instr} (hwf : i.WellFormed) {s : State} (hh : s.busHeld = false) (hc : s.cur = some i) :
    ∃ t, startCommand i s = .next t ∧ Coherent t := by
  cases i with
  | ensureInit mode => exact initOrGo_coherent (s := setMode mode s) hh hc rfl trivial
  | getDateTime => exact initOrGo_coherent (s := setMode s.cfg.initModeDefault s) hh hc rfl trivial
  | setDateTime ct => exact ⟨_, rfl, hh, rfl, by simp [setCt, setMode, hc]⟩
  | syncDevToHost => exact initOrGo_coherent (s := setMode s.cfg.initModeDefault s) hh hc rfl trivial
  | syncHostToDev => exact ⟨_, rfl, hh, by simp [setMode, hc]⟩
  | busWrite reg buf =>
    have hb : InBounds reg buf.length := hwf
    have hl : (BitVec.ofNat 8 buf.length).toNat = buf.length := by
      rw [BitVec.toNat_ofNat, Nat.mod_eq_of_lt (by have := hb.2.1; omega)]
    exact ⟨_, rfl, .busWrite reg buf, hc, startTransaction_coherent .xfer .write _ _ _ s hh (by rw [hl]; exact hb.1)
      (by intro; exact hl.symm) (by simp), trivial⟩
  | busRead reg len =>
    have hb : InBounds reg len.toNat := hwf
    exact ⟨_, rfl, .busRead reg len, hc, startTransaction_coherent .xfer .read _ _ _ s hh hb.1 (by simp) (by simp), trivial⟩
  | encodeTime ct => exact ⟨_, rfl, hh, rfl, by simp [setCt, hc]⟩
  | decodeTime img => exact ⟨_, rfl, coherent_ok _ hh ⟨rfl, img, rfl, rfl, rfl⟩⟩

/-- Every tick of a coherent state goes on to a coherent state. -/
theorem tick_coherent {s : State} (h : Coherent s) : ∃ t, tick s = .next t ∧ Coherent t := by
  simp only [Coherent] at h
  simp only [tick]
  cases hp : s.phase with
  | idle => exact ⟨s, rfl, by simp only [Coherent, hp] at h ⊢; exact h⟩
  | decodeCmd =>
    simp only [hp] at h
    obtain ⟨hh, hd, h3, h4, h5, h6⟩ := h
    obtain ⟨d, hd⟩ := Option.isSome_iff_exists.1 hd
    simp only [tickDecode, hd, need]
    cases hde : decode d with
    | error e => exact ⟨_, rfl, coherent_error _ hh⟩
    | ok i => exact startCommand_coherent (decode_wellFormed hde) hh rfl
  | validate =>
    simp only [hp] at h
    obtain ⟨hh, hct, hc⟩ := h
    obtain ⟨ct, hct⟩ := Option.isSome_iff_exists.1 hct
    simp only [tickValidate]
    cases hcur : s.cur with
    | none => simp only [hcur] at hc
    | some i =>
      simp only [hcur] at hc
      simp only [need, hct]
      cases hen : encodeCalendar s.cfg.dayMax ct with
      | error e => exact ⟨_, rfl, coherent_error _ hh⟩
      | ok img =>
        cases i with
        | encodeTime ct' => exact ⟨_, rfl, coherent_ok _ hh rfl⟩
        | setDateTime ct' => exact initOrGo_coherent (s := setImg img s) hh hcur hc rfl
        | syncHostToDev => exact initOrGo_coherent (s := setImg img s) hh hcur hc rfl
        | ensureInit _ => exact hc.elim
        | getDateTime => exact hc.elim
        | syncDevToHost => exact hc.elim
        | busWrite _ _ => exact hc.elim
        | busRead _ _ => exact hc.elim
        | decodeTime _ => exact hc.elim
  | initC1 =>
    simp only [hp] at h
    obtain ⟨ht, i, hc, hi⟩ := h
    by_cases hd : s.tphase = .done
    · simp only [hd, if_true, afterControl1]
      obtain ⟨hh, -⟩ := ht.done hd
      cases hl : s.latched with
      | some c => exact ⟨_, rfl, coherent_error _ hh⟩
      | none =>
        obtain ⟨m, hm⟩ := Option.isSome_iff_exists.1 hi.2.1
        simp only [hm, need]
        exact ⟨_, rfl, startTransaction_coherent .initC2 .write _ _ _ s hh (by decide) (by intro; rfl) (by simp),
          i, hc, hi⟩
    · simp only [if_neg hd]
      obtain ⟨t, h1, h2, h3⟩ := tickTransfer_coherent ht hd
      refine ⟨t, h1, ?_⟩
      simp only [Coherent, h3.phase, hp]
      refine ⟨h2, i, h3.cur.trans hc, ?_⟩
      simpa only [InitCoherent, h3.initState, h3.mode, h3.img] using hi
  | initC2 =>
    simp only [hp] at h
    obtain ⟨ht, i, hc, hi⟩ := h
    by_cases hd : s.tphase = .done
    · simp only [hd, if_true, afterControl2]
      obtain ⟨hh, -⟩ := ht.done hd
      cases hl : s.latched with
      | some c => exact ⟨_, rfl, coherent_error _ hh⟩
      | none =>
        simp only [hc, need]
        exact afterReady_coherent (s := s.setReady) hh hc hi.2.2
    · simp only [if_neg hd]
      obtain ⟨t, h1, h2, h3⟩ := tickTransfer_coherent ht hd
      refine ⟨t, h1, ?_⟩
      simp only [Coherent, h3.phase, hp]
      refine ⟨h2, i, h3.cur.trans hc, ?_⟩
      simpa only [InitCoherent, h3.initState, h3.mode, h3.img] using hi
  | xfer =>
    simp only [hp] at h
    obtain ⟨i, hc, ht, hi⟩ := h
    simp only [hc, need]
    by_cases hd : s.tphase = .done
    · simp only [hd, if_true, afterXfer]
      obtain ⟨hh, len, hlen, h1, hb⟩ := ht.done hd
      cases hl : s.latched with
      | some c => exact ⟨_, rfl, coherent_error _ hh⟩
      | none =>
        have hb := hb hl
        cases i with
        | ensureInit _ => exact hi.elim
        | getDateTime =>
          cases hi.symm.trans hlen
          have h7 : s.regs.written.length = timeBlockLen := hb rfl
          dsimp only
          rw [needBytes_written (r := s.regs) (bs := ⟨_, h7⟩) rfl]
          exact ⟨_, rfl, coherent_ok _ hh ⟨rfl, _, rfl, rfl, rfl⟩⟩
        | setDateTime _ => exact ⟨_, rfl, coherent_ok _ hh trivial⟩
        | syncDevToHost =>
          cases hi.symm.trans hlen
          have h7 : s.regs.written.length = timeBlockLen := hb rfl
          dsimp only
          rw [needBytes_written (r := s.regs) (bs := ⟨_, h7⟩) rfl]
          refine ⟨_, rfl, hh, ?_⟩
          simp only [setDecoded, setCt_cur, setImg_cur, hc]
          exact ⟨_, rfl, rfl⟩
        | syncHostToDev => exact ⟨_, rfl, coherent_ok _ hh trivial⟩
        | busWrite _ _ => exact ⟨_, rfl, coherent_ok _ hh trivial⟩
        | busRead _ _ =>
          simp only [hlen, need]
          rw [needBytes_written (r := s.regs) (bs := ⟨_, hb rfl⟩) rfl]
          exact ⟨_, rfl, coherent_ok _ hh (CmdRegs.buf_of_written (by rw [hb rfl]; exact h1))⟩
        | encodeTime _ => exact hi.elim
        | decodeTime _ => exact hi.elim
    · simp only [if_neg hd]
      obtain ⟨t, h1, h2, h3⟩ := tickTransfer_coherent ht hd
      refine ⟨t, h1, ?_⟩
      simp only [Coherent, h3.phase, hp]
      exact ⟨i, h3.cur.trans hc, h2, by simpa only [h3.len] using hi⟩
  | hostIo =>
    simp only [hp] at h
    obtain ⟨hh, hc⟩ := h
    simp only [tickHostIo]
    cases hcur : s.cur with
    | none => simp only [hcur] at hc
    | some i =>
      simp only [hcur] at hc
      simp only [need]
      cases i with
      | syncDevToHost =>
        obtain ⟨img, himg, hct⟩ := hc
        simp only [hct, himg]
        exact ⟨_, rfl, coherent_ok _ hh ⟨img, himg, hct, rfl⟩⟩
      | syncHostToDev => exact ⟨_, rfl, hh, rfl, by simpa [setCt, hcur] using hc⟩
      | ensureInit _ => exact hc.elim
      | getDateTime => exact hc.elim
      | setDateTime _ => exact hc.elim
      | busWrite _ _ => exact hc.elim
      | busRead _ _ => exact hc.elim
      | encodeTime _ => exact hc.elim
      | decodeTime _ => exact hc.elim
  | respond =>
    simp only [hp] at h
    obtain ⟨hh, hr⟩ := h
    cases hres : s.regs.result with
    | none => rw [hres] at hr; exact hr.elim
    | some r =>
    simp only [tickRespond, hres, need]
    exact ⟨_, rfl, hh, respond_idle r s⟩

/-- Coherence speaks of the sequencing registers, `S.bus_held` and `S.init_state` only. -/
theorem Coherent.of_sequencing {s t : State} (h : Coherent s) (h1 : t.phase = s.phase) (h2 : t.tphase = s.tphase)
    (h3 : t.busHeld = s.busHeld) (h4 : t.latched = s.latched) (h5 : t.desc = s.desc) (h6 : t.cur = s.cur)
    (h7 : t.regs = s.regs) (h8 : t.initState = s.initState) : Coherent t := by
  cases hp : s.phase with
  | idle =>
    simp only [Coherent, h1, hp, h3] at h ⊢
    obtain ⟨a, b⟩ := h
    exact ⟨a, h1.trans b.phase, h2.trans b.tphase, h4.trans b.latched, h5.trans b.desc, h6.trans b.cur, h7.trans b.regs⟩
  | _ =>
    simp only [Coherent, h1, hp, TransferCoherent, InitCoherent, h2, h3, h4, h5, h6, h7, h8] at h ⊢
    exact h

end Sys2Proof.Machine
end

