-- ==== Sys2Proof/Laws/Clean.lean ====
section
/-! SUPPORT. The device-level pieces in the reference environment (R58): they succeed, with one fixed list
of events and known register contents. -/

namespace Sys2Proof.Machine

theorem AllOk.nil : AllOk [] := by intro e he; cases he

/-- A one-byte write that succeeded leaves that byte in its register and nothing else changed. -/
theorem StoredUpTo.one {d d' : Device} {base v : Byte} (h : StoredUpTo d d' base [v] 1) (a : Byte) :
    d'.regAt a = if a = base then v else d.regAt a := by
  rw [h a]
  by_cases hab : a = base
  · subst hab; rw [if_pos (by omega), if_pos rfl]; simp
  · have : a.toNat ≠ base.toNat := fun hh => hab (BitVec.eq_of_toNat_eq hh)
    rw [if_neg hab, if_neg (by omega)]

/-- ENSURE_INIT in the reference environment (R182, R187). -/
theorem refEnv_ensureInit {s : State} (h : ReferenceEnv s) (mode : Byte) :
    ∃ t, ensureInit mode s = (.ok (), t) ∧ ReferenceEnv t ∧ Keeps s t ∧ t.initState = .ready ∧
      (∀ a, t.dev.regAt a = initRegs s mode a) ∧ (s.initState = .uninitialized → t.tpInstalled = false) ∧
      ∃ evs, t.trace = s.trace ++ evs ∧ AllOk evs ∧ evs.map BusEvent.event = readyEvents s mode := by
  simp only [ensureInit, initRegs, readyEvents]
  cases hi : s.initState with
  | ready =>
    exact ⟨s, rfl, h, Keeps.refl s, hi, fun _ => rfl, (by simp), [], by simp, AllOk.nil, rfl⟩
  | uninitialized =>
    have hb : ∀ (r v : Byte), r.toNat + [v].length ≤ 256 := fun r _ => by have := r.isLt; simp; omega
    obtain ⟨u, hu, ru, fu, bu, su, -, -, -, evs, tu, ou, eu⟩ := refEnv_memWrite h s.cfg.addrControl1 [control1Value] (hb _ _)
    obtain ⟨w, hw, rw', fw, bw, sw, iw, -, -, evs', tw, ow, ew⟩ :=
      refEnv_memWrite ru u.cfg.addrControl2 [control2Value mode] (hb _ _)
    have h1 : asInitError (fun s => memWrite s.cfg.addrControl1 [control1Value] s) s = (.ok (), u) := by
      simp [asInitError, hu]
    have h2 : asInitError (fun s => memWrite s.cfg.addrControl2 [control2Value mode] s) u = (.ok (), w) := by
      simp [asInitError, hw]
    refine ⟨w.setReady, ?_, ⟨rw'.mode, rw'.script⟩, ((fu.keeps bu).trans (fw.keeps bw)).trans (setReady_keeps w), rfl,
      fun a => ?_, fun _ => iw, evs ++ evs', ?_, ou.append ow, ?_⟩
    · simp only [initialise]
      rw [andThen_ok h1, andThen_ok h2]
    · show w.dev.regAt a = _
      rw [sw.one a, su.one a, fu.cfg]
      rfl
    · show w.trace = _
      rw [tw, tu, List.append_assoc]
    · rw [List.map_append, eu, ew, fu.cfg]
      rfl

/-- The time block is clear of the control registers (R9). -/
theorem Config.ok_disjoint {c : Config} (h : c.ok = true) (a : Byte) (ha : InBlock c.addrTimeBlock 7 a) :
    a ≠ c.addrControl1 ∧ a ≠ c.addrControl2 := by
  simp only [Config.ok, Bool.and_eq_true, decide_eq_true_eq, Bool.not_eq_true', Bool.and_eq_false_iff,
    decide_eq_false_iff_not] at h
  obtain ⟨h1, h2⟩ := ha
  constructor <;> (rintro rfl; omega)

theorem Config.ok_distinct {c : Config} (h : c.ok = true) : c.addrControl1 ≠ c.addrControl2 := by
  simp only [Config.ok, Bool.and_eq_true, decide_eq_true_eq] at h
  exact h.2

/-- The `i`-th register from `p` on, when the block does not wrap. -/
theorem inBlock_add {p : Byte} {n i : Nat} (hp : p.toNat + n ≤ 256) (hi : i < n) :
    InBlock p n (p + BitVec.ofNat 8 i) := by
  have hx : (p + BitVec.ofNat 8 i).toNat = p.toNat + i := by
    rw [BitVec.toNat_add, BitVec.toNat_ofNat]; omega
  exact ⟨by omega, by omega⟩

theorem toNat_add_ofNat {p : Byte} {n i : Nat} (hp : p.toNat + n ≤ 256) (hi : i < n) :
    (p + BitVec.ofNat 8 i).toNat = p.toNat + i := by
  rw [BitVec.toNat_add, BitVec.toNat_ofNat]; omega

theorem regsFrom_ext {d d' : Device} {p : Byte} {n : Nat} (hp : p.toNat + n ≤ 256)
    (h : ∀ a, InBlock p n a → d'.regAt a = d.regAt a) : regsFrom d' p n = regsFrom d p n := by
  apply List.map_congr_left
  intro i hi
  exact h _ (inBlock_add hp (List.mem_range.1 hi))

/-- The (implicit) initialisation does not touch the time block. -/
theorem initRegs_timeBlock {s : State} (h : s.cfg.ok = true) (mode a : Byte) (ha : InBlock s.cfg.addrTimeBlock 7 a) :
    initRegs s mode a = s.dev.regAt a := by
  obtain ⟨h1, h2⟩ := Config.ok_disjoint h a ha
  simp only [initRegs]
  split
  · rfl
  · rw [if_neg h2, if_neg h1]

/-- The image of seven registers is what reading them finds. -/
theorem imageBytes_imageAt (d : Device) (p : Byte) : imageBytes (imageAt d p) = regsFrom d p 7 := by
  simp only [imageBytes, imageAt, regsFrom, List.range, List.range.loop, List.map_cons, List.map_nil, BitVec.add_zero]
  rfl

theorem imageOfBytes_regsRead (d : Device) (p : Byte) : imageOfBytes (regsRead d p 7) = imageAt d p :=
  imageBytes_injective ((imageBytes_imageOfBytes _).trans (imageBytes_imageAt d p).symm)

/-- The reading half of GET_DATETIME in the reference environment (R196, R197). -/
theorem refEnv_getImage {s : State} (h : ReferenceEnv s) (hc : s.cfg.ok = true) :
    ∃ t, getImage s = (.ok (imageAt s.dev s.cfg.addrTimeBlock), t) ∧ ReferenceEnv t ∧ Keeps s t ∧
      t.initState = .ready ∧ (∀ a, t.dev.regAt a = initRegs s s.cfg.initModeDefault a) ∧ t.tpInstalled = false ∧
      ∃ evs, t.trace = s.trace ++ evs ∧ AllOk evs ∧ evs.map BusEvent.event =
        readyEvents s s.cfg.initModeDefault ++
          (.acq s.cfg.busCfg :: readEvents s.cfg.devAddr s.cfg.addrTimeBlock 7 ++ [.stop, .rel]) := by
  obtain ⟨u, hu, ru, ku, iu, du, -, evs, tu, ou, eu⟩ := refEnv_ensureInit h s.cfg.initModeDefault
  have htb := Config.ok_timeBlock hc
  obtain ⟨w, hw, rw', fw, bw, dw, nw, -, -, evs', tw, ow, ew⟩ :=
    refEnv_memRead ru u.cfg.addrTimeBlock 7 (by rw [ku.cfg]; exact htb)
  have hregs : regsRead u.dev u.cfg.addrTimeBlock 7 = regsRead s.dev s.cfg.addrTimeBlock 7 := by
    rw [ku.cfg]
    exact Subtype.ext <| regsFrom_ext htb fun a ha => by rw [du a, initRegs_timeBlock hc _ a ha]
  rw [hregs] at hw
  have he : ensureReady s = (.ok (), u) := hu
  have hb : asBusError (memRead u.cfg.addrTimeBlock timeBlockLen) u =
      (.ok (regsRead s.dev s.cfg.addrTimeBlock 7), w) := by
    simp only [asBusError, timeBlockLen, hw]
  refine ⟨w, ?_, rw', ku.trans (fw.keeps bw), fw.initState.trans iu, fun a => ?_, nw, evs ++ evs', ?_, ou.append ow, ?_⟩
  · simp only [getImage]
    rw [andThen_ok he]
    simp only [readTimeBlock]
    rw [andThen_ok hb, imageOfBytes_regsRead]
  · rw [Device.regAt_congr dw, du a]
  · rw [tw, tu, List.append_assoc]
  · rw [List.map_append, eu, ew, ku.cfg]

/-- SET_DATETIME of a valid time in the reference environment (R200, R201). -/
theorem refEnv_setDateTime {s : State} (h : ReferenceEnv s) (hc : s.cfg.ok = true) {ct : CalendarTime}
    (hv : Valid s.cfg.dayMax ct) :
    ∃ t, setDateTime ct s = (.ok .unit, t) ∧ ReferenceEnv t ∧ Keeps s t ∧ t.initState = .ready ∧
      (∀ a, t.dev.regAt a = if InBlock s.cfg.addrTimeBlock 7 a
        then (imageBytes (imageOf ct)).getD (a.toNat - s.cfg.addrTimeBlock.toNat) 0
        else initRegs s s.cfg.initModeDefault a) ∧ t.tpInstalled = false ∧
      ∃ evs, t.trace = s.trace ++ evs ∧ AllOk evs ∧ evs.map BusEvent.event =
        readyEvents s s.cfg.initModeDefault ++ (.acq s.cfg.busCfg ::
          writeEvents s.cfg.devAddr s.cfg.addrTimeBlock (imageBytes (imageOf ct)) ++ [.stop, .rel]) := by
  obtain ⟨u, hu, ru, ku, iu, du, -, evs, tu, ou, eu⟩ := refEnv_ensureInit h s.cfg.initModeDefault
  have htb := Config.ok_timeBlock hc
  obtain ⟨w, hw, rw', fw, bw, sw, nw, -, -, evs', tw, ow, ew⟩ :=
    refEnv_memWrite ru u.cfg.addrTimeBlock (imageBytes (imageOf ct)) (by rw [ku.cfg]; exact htb)
  have h0 : encodeAct ct s = (.ok (imageOf ct), s) := by simp [encodeAct, encodeCalendar, hv]
  have he : ensureReady s = (.ok (), u) := hu
  have hb : writeTimeBlock (imageOf ct) u = (.ok (), w) := by
    simp only [writeTimeBlock, asBusError, hw]
  refine ⟨w, ?_, rw', ku.trans (fw.keeps bw), fw.initState.trans iu, fun a => ?_, nw, evs ++ evs', ?_, ou.append ow, ?_⟩
  · simp only [setDateTime]
    rw [andThen_ok h0, andThen_ok he, andThen_ok hb]
  · rw [sw a, ku.cfg]
    simp only [InBlock, imageBytes, List.length_cons, List.length_nil, Nat.zero_add, Nat.reduceAdd]
    split
    · rfl
    · exact du a
  · rw [tw, tu, List.append_assoc]
  · rw [List.map_append, eu, ew, ku.cfg]

/-- Reading back the seven bytes just written gives the image (R203 item 6). -/
theorem imageAt_readback {d : Device} {p : Byte} {img : RegisterImage} (hp : p.toNat + 7 ≤ 256)
    (h : ∀ a, InBlock p 7 a → d.regAt a = (imageBytes img).getD (a.toNat - p.toNat) 0) : imageAt d p = img := by
  have hx : ∀ i, i < 7 → d.regAt (p + BitVec.ofNat 8 i) = (imageBytes img).getD i 0 := by
    intro i hi
    rw [h _ (inBlock_add hp hi), toNat_add_ofNat hp hi]
    congr 1
    omega
  refine imageBytes_injective ?_
  rw [imageBytes_imageAt, regsFrom]
  simp only [List.range, List.range.loop, List.map_cons, List.map_nil,
    hx 0 (by omega), hx 1 (by omega), hx 2 (by omega), hx 3 (by omega), hx 4 (by omega), hx 5 (by omega), hx 6 (by omega)]
  rfl

end Sys2Proof.Machine
end

