-- ==== Sys2Proof/Laws/Answers.lean ====
section
/-! SUPPORT. What the two transaction commands answer, and what a trace says of the bytes moved. -/

namespace Sys2Proof.Machine

/-- BUS_WRITE within the bounds of R55 is its transaction and the response to it (R130). -/
theorem busWrite_eq {reg : Byte} {buf : List Byte} {s : State} (h : InBounds reg buf.length) :
    exec (.busWrite reg buf) s = .next (respond (match (memWrite reg buf s).1 with
      | .ok _ => .ok .unit | .error c => .err (.busError c)) (memWrite reg buf s).2) := by
  simp only [exec, execBusWrite, complete_eq, busWrite, if_pos h, andThen, asBusError]
  rcases memWrite reg buf s with ⟨r, t⟩
  cases r <;> rfl

/-- BUS_READ within the bounds of R55 is its transaction and the response to it (R131). -/
theorem busRead_eq {reg len : Byte} {s : State} (h : InBounds reg len.toNat) :
    exec (.busRead reg len) s = .next (respond (match (memRead reg len.toNat s).1 with
      | .ok bs => .ok (.bytes bs.1) | .error c => .err (.busError c)) (memRead reg len.toNat s).2) := by
  simp only [exec, execBusRead, complete_eq, busRead, if_pos h, andThen, asBusError]
  rcases memRead reg len.toNat s with ⟨r, t⟩
  cases r <;> rfl

/-- When every event is answered `Ok`, every byte sent is acknowledged. -/
theorem txAcked_ok (evs : List BusEvent) (h : AllOk evs) :
    txAcked evs = ((evs.map BusEvent.event).filter fun e => decide (∃ b, e = .tx b)).length := by
  induction evs with
  | nil => rfl
  | cons e rest ih =>
    have h1 := h e (List.mem_cons_self ..)
    have h2 := ih fun x hx => h x (List.mem_cons_of_mem _ hx)
    rcases e with ⟨e, r⟩
    cases e with
    | tx b =>
      simp only at h1
      simp [txAcked, h1, h2]
    | _ => simpa [txAcked] using h2

/-- A write that went well had every byte acknowledged, the register address included. -/
theorem TxnRun.write_acked {cfg : BusCfg} {a : Addr7} {reg : Byte} {buf : List Byte} {evs : List BusEvent} {bs : List Byte}
    (h : TxnRun cfg (writeEvents a reg buf) evs (.ok bs)) : txAcked evs = buf.length + 1 := by
  cases h with
  | succeeds body hf hok =>
    rw [txAcked_append]
    have : txAcked (⟨.acq cfg, .ok⟩ :: body) = txAcked body := rfl
    rw [this, txAcked_ok body hok, hf]
    simp only [writeEvents, txAcked]
    simp
    have : (buf.map TpEvent.tx).filter (fun e => decide (∃ b, e = .tx b)) = buf.map TpEvent.tx := by
      rw [List.filter_eq_self]; simp
    rw [List.filter_eq_self.2 (by simp)]; simp

/-- A piece that ran without a failure, and its response. -/
theorem Keeps.clean {s u : State} {r : Result} {events : List TpEvent} {resp : List Byte} (k : Keeps s u) (hu : ReferenceEnv u)
    (hi : u.tpInstalled = false) (ht : ∃ evs, u.trace = s.trace ++ evs ∧ AllOk evs ∧ evs.map BusEvent.event = events)
    (hr : r.response = resp) : CleanRun s (Machine.respond r u) events resp :=
  ⟨k.respond r, hi, ht, by simp [Machine.respond, k.responses, hr], ⟨hu.mode, hu.script⟩⟩

/-- How much longer the trace is. -/
theorem CleanRun.length_trace {s t : State} {events : List TpEvent} {resp : List Byte} (h : CleanRun s t events resp) :
    t.trace.length = s.trace.length + events.length := by
  obtain ⟨evs, ht, -, he⟩ := h.trace
  rw [ht, List.length_append, ← he, List.length_map]

/-- The receptions of a transaction are the first ones of its frame. -/
theorem TxnRun.receptions {cfg : BusCfg} {frame : List TpEvent} {evs : List BusEvent} {r : Except Cause (List Byte)}
    (h : TxnRun cfg frame evs r) : ((evs.map BusEvent.event).filter fun e => decide (∃ a, e = .rx a)) <+:
      (frame.filter fun e => decide (∃ a, e = .rx a)) := by
  cases h with
  | acquireFails f => simp
  | frameFails before e f after tail hf hok ht =>
    subst hf
    have : (tail.map BusEvent.event).filter (fun e => decide (∃ a, e = .rx a)) = [] := by
      rw [ht]; split <;> simp
    simp only [List.map_append, List.map_cons, List.filter_append, List.filter_cons, this]
    simp
    split
    · simp
    · simp
  | stopFails body f r hf hok => subst hf; simp
  | releaseFails body f hf hok => subst hf; simp
  | succeeds body hf hok => subst hf; simp

/-- The constraints of R9, as the check runs them. -/
theorem ok_iff (c : Config) : c.ok = true ↔ Constraints c := by
  simp only [Config.ok, Constraints, Bool.and_eq_true, decide_eq_true_eq, Bool.not_eq_true', Bool.and_eq_false_iff,
    decide_eq_false_iff_not]
  constructor
  · rintro ⟨⟨⟨h1, h2⟩, h3⟩, h4⟩
    refine ⟨h1, fun k hk => ⟨by omega, by omega⟩, h4⟩
  · rintro ⟨h1, h2, h3⟩
    refine ⟨⟨⟨h1, ?_⟩, ?_⟩, h3⟩
    · have := fun k hk => (h2 k hk).1
      by_cases hh : c.addrTimeBlock.toNat ≤ c.addrControl1.toNat
      · right; intro h'
        exact this (c.addrControl1.toNat - c.addrTimeBlock.toNat) (by omega) (by omega)
      · left; exact hh
    · have := fun k hk => (h2 k hk).2
      by_cases hh : c.addrTimeBlock.toNat ≤ c.addrControl2.toNat
      · right; intro h'
        exact this (c.addrControl2.toNat - c.addrTimeBlock.toNat) (by omega) (by omega)
      · left; exact hh

/-- A presented descriptor, legal or not, ends with one response after elementary actions. -/
theorem runDescriptor_reach (d : List Byte) (s : State) : ∃ r u, Reach s u ∧ (s.busHeld = false → u.busHeld = false) ∧
    runDescriptor d s = .next (respond r u) := by
  simp only [runDescriptor]
  split
  · exact ⟨_, _, commandAct_reaches _ s, (commandAct_quiet _ s).1, exec_eq _ _⟩
  · exact ⟨_, s, .refl, id, rfl⟩

/-- A command that ends Ready began with the two configuration writes (R180 to R182). -/
theorem commandAct_initState (i : Instr) (s : State) (h : s.initState = .uninitialized) (h2 : (commandAct i s).2.initState = .ready) :
  ∃ mode evs rest, (commandAct i s).2.trace = s.trace ++ evs ++ rest ∧ ∃ d', InitRun s.cfg mode s.dev evs (.ok ()) d' := by
  have time : ∀ frame leaves evs x q d' (u : State), TimeRun s frame leaves evs x q d' → x = .ready → u.trace = s.trace ++ evs →
      ∃ mode evs rest, u.trace = s.trace ++ evs ++ rest ∧ ∃ d', InitRun s.cfg mode s.dev evs (.ok ()) d' := by
    intro frame leaves evs x q d' u ⟨evs0, r, d0, hr, hm⟩ hx ht
    simp only [ReadyRun, h] at hr
    cases r with
    | error c => rw [hr.2] at hx; cases hx
    | ok a =>
      obtain ⟨evs1, r1, -, rfl, -, -⟩ := hm
      exact ⟨_, evs0, evs1, by rw [ht, List.append_assoc], _, hr.1⟩
  have pass : ∀ {α β : Type} (m : Act CmdError α) (k : α → Act CmdError β)
      (_ : ∀ a u, (k a u).2.trace = u.trace ∧ (k a u).2.initState = u.initState),
      (andThen m k s).2.trace = (m s).2.trace ∧ (andThen m k s).2.initState = (m s).2.initState := by
    intro α β m k hk
    simp only [andThen]
    rcases m s with ⟨r, t⟩
    cases r with
    | error e => exact ⟨rfl, rfl⟩
    | ok a => exact hk a t
  have setc : ∀ (ct : CalendarTime) (v : State), v.cfg = s.cfg → v.initState = s.initState → v.trace = s.trace → v.dev = s.dev →
      (setDateTime ct v).2.initState = .ready → ∃ mode evs rest, (setDateTime ct v).2.trace = s.trace ++ evs ++ rest ∧ ∃ d', InitRun s.cfg mode s.dev evs (.ok ()) d' := by
    intro ct v hv1 hv2 hv3 hv4 hx
    by_cases hv : Valid v.cfg.dayMax ct
    · obtain ⟨-, evs, q, ht, hr, -⟩ := setDateTime_run ct v hv
      refine time (writeEvents v.cfg.devAddr v.cfg.addrTimeBlock (imageBytes (imageOf ct)))
        (WriteLeaves v.cfg.addrTimeBlock (imageBytes (imageOf ct))) evs _ q (setDateTime ct v).2.dev _ ?_ hx (by rw [ht, hv3])
      obtain ⟨evs0, r, d0, h1, h3⟩ := hr
      simp only [TimeRun, ReadyRun, hv1, hv2, hv4] at *
      exact ⟨evs0, r, d0, h1, h3⟩
    · rw [setDateTime_invalid ct v hv, hv2, h] at hx; cases hx
  cases i with
  | ensureInit mode =>
    obtain ⟨-, evs, r, ht, hr, -⟩ := ensureInit_run mode s
    obtain ⟨e1, e2⟩ := pass (ensureInit mode) (fun _ t => (.ok Payload.unit, t)) (fun _ _ => ⟨rfl, rfl⟩)
    simp only [commandAct] at h2 ⊢
    rw [e2] at h2
    rw [e1, ht]
    simp only [ReadyRun, h] at hr
    cases r with
    | error c => rw [hr.2] at h2; cases h2
    | ok a => exact ⟨mode, evs, [], by simp, _, hr.1⟩
  | getDateTime =>
    obtain ⟨-, evs, q, ht, hr, -⟩ := getImage_run s
    obtain ⟨e1, e2⟩ := pass getImage (fun img t => (.ok (decodedPayload img), t)) (fun _ _ => ⟨rfl, rfl⟩)
    simp only [commandAct] at h2 ⊢
    rw [e2] at h2
    rw [e1]
    exact time _ _ evs _ q _ _ hr h2 ht
  | setDateTime ct => exact setc ct s rfl rfl rfl rfl h2
  | syncDevToHost =>
    obtain ⟨-, evs, q, ht, hr, -⟩ := getImage_run s
    obtain ⟨e1, e2⟩ := pass getImage (fun img s => (.ok (Payload.flag (integrityFlag img)), s.setHostEpoch (civilToEpoch s.cfg (decodeImage img)))) (fun _ _ => ⟨rfl, rfl⟩)
    simp only [commandAct, syncDevToHost] at h2 ⊢
    rw [e2] at h2
    rw [e1]
    exact time _ _ evs _ q _ _ hr h2 ht
  | syncHostToDev => exact setc (hostUtc s) s.afterHostRead rfl rfl rfl rfl h2
  | busWrite reg buf =>
    have : (commandAct (.busWrite reg buf) s).2.initState = s.initState := by
      simp only [commandAct, busWrite]
      split
      · have g := (memWrite_run reg buf s).1.initState
        rw [← asBusError_snd] at g
        exact (pass (asBusError (memWrite reg buf)) _ (fun _ _ => ⟨rfl, rfl⟩)).2.trans g
      · rfl
    rw [this, h] at h2; cases h2
  | busRead reg len =>
    have : (commandAct (.busRead reg len) s).2.initState = s.initState := by
      simp only [commandAct, busRead]
      split
      · have g := (memRead_run reg len.toNat s).1.initState
        rw [← asBusError_snd] at g
        exact (pass (asBusError (memRead reg len.toNat)) (fun bs t => (.ok (Payload.bytes bs.1), t)) (fun _ _ => ⟨rfl, rfl⟩)).2.trans g
      · rfl
    rw [this, h] at h2; cases h2
  | encodeTime ct =>
    have : (commandAct (.encodeTime ct) s).2.initState = s.initState :=
      (pass (encodeAct ct) (fun img t => (.ok (Payload.image img), t)) (fun _ _ => ⟨rfl, rfl⟩)).2
    rw [this, h] at h2; cases h2
  | decodeTime img => exact absurd (h.symm.trans h2) (by simp)

/-- The time block after SET_DATETIME, read back (R203 item 6). -/
theorem timeBlock_readback {ct : CalendarTime} {s u : State} (hc : s.cfg.ok = true) 
    (du : ∀ a, u.dev.regAt a = if InBlock s.cfg.addrTimeBlock 7 a
        then (imageBytes (imageOf ct)).getD (a.toNat - s.cfg.addrTimeBlock.toNat) 0
        else initRegs s s.cfg.initModeDefault a) :
    imageAt u.dev s.cfg.addrTimeBlock = imageOf ct :=
  imageAt_readback (Config.ok_timeBlock hc) fun a ha => by rw [du a, if_pos ha]

/-- The cause codes are 1 to 4 (R106). -/
theorem code_cases (c : Cause) : c.code = 0x01 ∨ c.code = 0x02 ∨ c.code = 0x03 ∨ c.code = 0x04 := by cases c <;> decide

/-- What a device-level command does once Ready (R191). -/
theorem afterReady_phase {i : Instr} {s t : State} (h : afterReady i s = .next t) :
    t.cur = s.cur ∧ t.initState = s.initState ∧ t.phase = readyPhase i := by
  cases i <;> simp only [afterReady, need] at h
  case setDateTime => split at h <;> cases h; exact ⟨rfl, rfl, rfl⟩
  case syncHostToDev => split at h <;> cases h; exact ⟨rfl, rfl, rfl⟩
  all_goals cases h <;> exact ⟨rfl, rfl, rfl⟩

/-- What the test `S.init_state == Ready` does (R191). -/
theorem initOrGo_phase {i : Instr} {s t : State} (h : initOrGo i s = .next t) :
    t.cur = s.cur ∧ t.initState = s.initState ∧ t.phase = initOr (readyPhase i) s.initState := by
  simp only [initOrGo] at h
  split at h <;> rename_i hi
  · obtain ⟨h1, h2, h3⟩ := afterReady_phase h
    exact ⟨h1, h2, by rw [h3, hi]; rfl⟩
  · cases h
    exact ⟨rfl, rfl, by rw [hi]; rfl⟩

/-- Where a legal command goes from DECODE_CMD (R191). -/
theorem startCommand_phase {i : Instr} {s t : State} (h : startCommand i s = .next t) :
    t.cur = s.cur ∧ t.initState = s.initState ∧ t.phase = firstPhase i s.initState := by
  cases i <;> simp only [startCommand] at h
  all_goals first
    | (cases h; exact ⟨rfl, rfl, rfl⟩)
    | (obtain ⟨h1, h2, h3⟩ := initOrGo_phase h; exact ⟨h1, h2, h3⟩)

/-- One event of a transaction changes neither phase, nor command, nor `S.init_state`. -/
theorem tickTransfer_phase {dir : Dir} {s t : State} (h : TransferCoherent dir s) (hp : s.tphase ≠ .done)
    (ht : tickTransfer dir s = .next t) : t.phase = s.phase ∧ t.cur = s.cur ∧ t.initState = s.initState := by
  obtain ⟨u, h1, -, h3⟩ := tickTransfer_coherent h hp
  rw [ht] at h1; cases h1
  exact ⟨h3.phase, h3.cur, h3.initState⟩

end Sys2Proof.Machine
end

