-- ==== Sys2Proof/Laws/PerInstr.lean ====
section
/-! SUPPORT. What holds of every command as syntax, one lemma a constructor. -/

namespace Sys2Proof.Laws

/-- The descriptor of a command that fits its ports begins with its opcode of R101 and has the length that
R101 and R103 give it. -/
def DescriptorShape.Statement (i : Instr) : Prop :=
  i.WellFormed → Machine.requiredLength (encode i) = some (encode i).length

theorem DescriptorShape.ensureInit (mode : Byte) : DescriptorShape.Statement (.ensureInit mode) := fun _ => rfl

theorem DescriptorShape.getDateTime : DescriptorShape.Statement .getDateTime := fun _ => rfl

theorem DescriptorShape.setDateTime (ct : CalendarTime) : DescriptorShape.Statement (.setDateTime ct) := fun _ => rfl

theorem DescriptorShape.syncDevToHost : DescriptorShape.Statement .syncDevToHost := fun _ => rfl

theorem DescriptorShape.syncHostToDev : DescriptorShape.Statement .syncHostToDev := fun _ => rfl

theorem DescriptorShape.busWrite (reg : Byte) (buf : List Byte) : DescriptorShape.Statement (.busWrite reg buf) := by
  intro h
  have hb : InBounds reg buf.length := h
  have hl : (BitVec.ofNat 8 buf.length).toNat = buf.length := by
    rw [BitVec.toNat_ofNat, Nat.mod_eq_of_lt (by have := hb.2.1; omega)]
  have h2 : Machine.byteAt (encode (.busWrite reg buf)) 2 = buf.length := hl
  show some (3 + Machine.byteAt (encode (.busWrite reg buf)) 2) = _
  rw [h2]
  simp only [encode, Instr.operandBytes, List.length_cons]
  congr 1
  omega

theorem DescriptorShape.busRead (reg len : Byte) : DescriptorShape.Statement (.busRead reg len) := fun _ => rfl

theorem DescriptorShape.encodeTime (ct : CalendarTime) : DescriptorShape.Statement (.encodeTime ct) := fun _ => rfl

theorem DescriptorShape.decodeTime (img : RegisterImage) : DescriptorShape.Statement (.decodeTime img) := fun _ => rfl

end Sys2Proof.Laws
end

