-- ==== Sys2Proof/Tests/Slice0.lean ====
section
/-! SUPPORT. Tests: ill-formed commands, descriptors written out from the spec, single steps from the
vectors of 95_test_vectors.md, and for every obligation with hypotheses a state that meets them. -/

namespace Sys2Proof.Tests

open Sys2Proof.Machine

/-! ## Small states -/

/-- The illustrative instantiation of 95_test_vectors.md: the reference device with the seven time registers
given, the controller Ready or not. -/
def demo (ready : Bool) (timeBlock : List Byte) : State :=
  { State.reset with
    initState := if ready then .ready else .uninitialized
    dev := ⟨(List.range timeBlock.length).map fun i => (2 + i, timeBlock.getD i 0), 0x00, none, false⟩
    env := ⟨.reference, [], [], 0, 0⟩ }

/-- The time block of V-GET-1. -/
def block : List Byte := [0x00, 0x25, 0x16, 0x06, 0x03, 0x83, 0x22]

/-- With the coming answers decided. -/
def scripted (draws : List Draw) (s : State) : State := { s with env := { s.env with script := draws } }

/-- With the host's next breakdown decided. -/
def hosted (ct : CalendarTime) (epoch : Int) (s : State) : State :=
  { s with env := { s.env with hostScript := [ct] }, hostEpoch := epoch }

/-- With inputs to come. -/
def given (inputs : List Input) (s : State) : State := { s with inbox := inputs }

/-- The responses after a command. -/
def responsesAfter (i : Instr) (s : State) : Option (List (List Byte)) :=
  match exec i s with
  | .next t => some t.responses
  | .fault _ => none
  | .refused _ => none

/-- What a test looks at after a command. -/
def after {α : Type} (i : Instr) (s : State) (f : State → α) : Option α :=
  match exec i s with
  | .next t => some (f t)
  | .fault _ => none
  | .refused _ => none

/-- V-ENC-1's time. -/
def noonish : CalendarTime := ⟨0, 25, 16, 6, 3, 3, 2022⟩

/-- V-ENC-5's time: every field at its highest. -/
def lastTime : CalendarTime := ⟨59, 59, 23, 31, 6, 12, 2099⟩

/-! ## WellFormed refuses what no descriptor presents -/

theorem test_ill_formed_times :
    [ { noonish with second := -1 }, { noonish with second := 256 }, { noonish with minute := -1 },
      { noonish with minute := 256 }, { noonish with hour := 256 }, { noonish with day := 256 },
      { noonish with weekday := 256 }, { noonish with month := -1 }, { noonish with month := 256 },
      { noonish with year := -1 }, { noonish with year := 65536 } ].all
      (fun ct => !(Instr.setDateTime ct).wellFormed && !(Instr.encodeTime ct).wellFormed) = true := by decide

theorem test_ill_formed_transactions :
    (Instr.busWrite 0x00 []).wellFormed = false ∧ (Instr.busWrite 0xFF [1, 2]).wellFormed = false ∧
    (Instr.busRead 0x02 0x00).wellFormed = false ∧ (Instr.busRead 0xFF 0x02).wellFormed = false := by decide

theorem test_ill_formed_long_write : (Instr.busWrite 0x00 (List.replicate 256 0x00)).wellFormed = false := by
  rw [Instr.wellFormed, List.length_replicate]; rfl

theorem test_well_formed_edges :
    (Instr.busRead 0x01 0xFF).wellFormed = true ∧ (Instr.busWrite 0xFF [1]).wellFormed = true ∧
    (Instr.setDateTime ⟨255, 255, 255, 255, 255, 255, 65535⟩).wellFormed = true := by decide

/-! ## Descriptors, byte by byte (R101, R102; vectors of file 95) -/

theorem test_decode_ensure_init : decode [0x01, 0xFF] = .ok (.ensureInit 0xFF) := rfl
theorem test_decode_get_datetime : decode [0x02] = .ok .getDateTime := rfl
theorem test_decode_set_datetime :
    decode [0x03, 0x3B, 0x3B, 0x17, 0x1F, 0x06, 0x0C, 0xCF, 0x07] = .ok (.setDateTime ⟨59, 59, 23, 31, 6, 12, 1999⟩) := rfl
theorem test_decode_sync_dev_to_host : decode [0x04] = .ok .syncDevToHost := rfl
theorem test_decode_sync_host_to_dev : decode [0x05] = .ok .syncHostToDev := rfl
theorem test_decode_bus_write : decode [0x10, 0x02, 0x03, 0x11, 0x22, 0x33] = .ok (.busWrite 0x02 [0x11, 0x22, 0x33]) := rfl
theorem test_decode_bus_read : decode [0x11, 0x01, 0xFF] = .ok (.busRead 0x01 0xFF) := rfl
theorem test_decode_encode :
    decode [0x20, 0x3B, 0x3B, 0x17, 0x1F, 0x06, 0x0C, 0x33, 0x08] = .ok (.encodeTime ⟨59, 59, 23, 31, 6, 12, 2099⟩) := rfl
theorem test_decode_decode :
    decode [0x21, 0x00, 0x25, 0x16, 0x06, 0x03, 0x83, 0x22] =
      .ok (.decodeTime ⟨0x00, 0x25, 0x16, 0x06, 0x03, 0x83, 0x22⟩) := rfl

/-- V-ILL-1 to V-ILL-7, V-BUS-13, V-BUS-14, each under its own name. -/
theorem test_decode_rejects :
    decode [] = .error .empty ∧ decode [0x00] = .error (.reservedOpcode 0x00) ∧
    decode [0xFF] = .error (.reservedOpcode 0xFF) ∧ decode [0x01] = .error (.wrongLength .ensureInit) ∧
    decode [0x02, 0x00] = .error (.wrongLength .getDateTime) ∧
    decode [0x03, 0x00, 0x19, 0x10, 0x06, 0x03, 0x03, 0xE6] = .error (.wrongLength .setDateTime) ∧
    decode [0x10, 0x02, 0x03, 0x11, 0x22] = .error (.wrongLength .busWrite) ∧
    decode [0x21, 0x00, 0x25, 0x16, 0x06, 0x03, 0x83] = .error (.wrongLength .decodeTime) ∧
    decode [0x11, 0x02, 0x00] = .error .zeroLength ∧
    decode [0x10, 0xFF, 0x02, 0x01, 0x02] = .error .pastEnd := by
  refine ⟨rfl, rfl, rfl, rfl, rfl, rfl, rfl, rfl, rfl, rfl⟩

/-! ## One command at a time (file 95, sections 2.1 to 2.6) -/

/-- V-ENC-1. -/
theorem test_encode : responsesAfter (.encodeTime noonish) (demo false []) =
    some [[0x00, 0x00, 0x00, 0x25, 0x16, 0x06, 0x03, 0x83, 0x22]] := by decide
/-- V-ENC-14: day 32 under `P_DAY_MAX` 31. -/
theorem test_encode_day_32 : responsesAfter (.encodeTime { noonish with day := 32 }) (demo false []) =
    some [[0x02, 0x00]] := by decide
/-- V-DEC-3. -/
theorem test_decode_ignored_bits :
    responsesAfter (.decodeTime ⟨0xD9, 0xD9, 0xE3, 0xF1, 0xFE, 0x72, 0x99⟩) (demo false []) =
      some [[0x00, 0x01, 0x3B, 0x3B, 0x17, 0x1F, 0x06, 0x0C, 0xCF, 0x07]] := by decide
/-- V-DEC-7: low nibbles above 9 at face value. -/
theorem test_decode_face_value :
    responsesAfter (.decodeTime ⟨0x0A, 0x1B, 0x2C, 0x0D, 0x0F, 0x8E, 0x9F⟩) (demo false []) =
      some [[0x00, 0x00, 0x0A, 0x15, 0x20, 0x0D, 0x07, 0x0E, 0x39, 0x08]] := by decide
/-- V-BUS-6: the third `TX` is not acknowledged and its byte does not land. -/
theorem test_bus_write_refused_byte :
    after (.busWrite 0x02 [0x11, 0x22, 0x33])
      (scripted [.asReference, .asReference, .asReference, .asReference, .fail .noAck false] (demo false [0xAA, 0xBB, 0xCC]))
      (fun t => (t.responses, t.dev.regs, t.trace.map BusEvent.event)) =
    some ([[0x01, 0x01]], [(2, 0x11), (3, 0xBB), (4, 0xCC)],
      [.acq ⟨[]⟩, .start 0x51 .write, .tx 0x02, .tx 0x11, .tx 0x22, .stop, .rel]) := by decide
/-- V-BUS-8: after a lost arbitration no `STOP`. -/
theorem test_bus_write_arbitration :
    after (.busWrite 0x02 [0x00]) (scripted [.asReference, .asReference, .fail .arbLost false] (demo false []))
      (fun t => (t.responses, t.trace.map BusEvent.event)) =
    some ([[0x01, 0x03]], [.acq ⟨[]⟩, .start 0x51 .write, .tx 0x02, .rel]) := by decide
/-- V-BUS-3. -/
theorem test_bus_read :
    after (.busRead 0x02 0x07) (demo false block) (fun t => (t.responses, t.trace.length, t.dev.ptr)) =
    some ([[0x00, 0x00, 0x00, 0x25, 0x16, 0x06, 0x03, 0x83, 0x22]], 13, 0x09) := by decide
/-- V-BUS-9: a failed acquire is the whole trace. -/
theorem test_bus_read_no_acquire :
    after (.busRead 0x02 0x07) (scripted [.fail .fault false] (demo false block)) (fun t => (t.responses, t.trace)) =
    some ([[0x01, 0x04]], [⟨.acq ⟨[]⟩, .fail .fault⟩]) := by decide
/-- V-INIT-1. -/
theorem test_ensure_init :
    after (.ensureInit 0xFF) (demo false []) (fun t => (t.responses, t.initState, t.dev.regs)) =
    some ([[0x00, 0x00]], .ready, [(0, 0x00), (1, 0x13)]) := by decide
/-- V-INIT-3. -/
theorem test_ensure_init_fails :
    after (.ensureInit 0x00) (scripted [.asReference, .fail .noAck false] (demo false []))
      (fun t => (t.responses, t.initState, t.trace.length)) =
    some ([[0x03, 0x01]], .uninitialized, 4) := by decide
/-- V-GET-3: the integrity flag is set and the time is given all the same. -/
theorem test_get_integrity :
    responsesAfter .getDateTime (demo true [0x80, 0x25, 0x16, 0x06, 0x03, 0x83, 0x22]) =
      some [[0x00, 0x01, 0x00, 0x19, 0x10, 0x06, 0x03, 0x03, 0xE6, 0x07]] := by decide
/-- V-GET-6: Ready although the read failed. -/
theorem test_get_ready_after_failure :
    after .getDateTime (scripted (List.replicate 13 .asReference ++ [.fail .arbLost false]) (demo false block))
      (fun t => (t.responses, t.initState, t.trace.length)) =
    some ([[0x01, 0x03]], .ready, 15) := by decide
/-- V-SET-1. -/
theorem test_set :
    after (.setDateTime noonish) (demo true []) (fun t => (t.responses, t.dev.regs, t.trace.length)) =
    some ([[0x00, 0x00]], [(2, 0x00), (3, 0x25), (4, 0x16), (5, 0x06), (6, 0x03), (7, 0x83), (8, 0x22)], 12) := by decide
/-- V-SET-3: no event for an invalid time, not even the initialisation's. -/
theorem test_set_invalid :
    after (.setDateTime { noonish with second := 60 }) (demo false []) (fun t => (t.responses, t.initState, t.trace)) =
    some ([[0x02, 0x00]], .uninitialized, []) := by decide
/-- V-EPOCH-1, through the device. -/
theorem test_sync_dev_to_host :
    after .syncDevToHost (demo true block) (fun t => (t.responses, t.hostEpoch)) =
    some ([[0x00, 0x00]], 1646583900) := by decide
/-- Program P5, first command. -/
theorem test_sync_host_to_dev :
    after .syncHostToDev (hosted ⟨30, 45, 12, 29, 4, 2, 2024⟩ 1709210730 (demo true [])) (fun t => (t.responses, t.dev.regs)) =
    some ([[0x00, 0x00]], [(2, 0x30), (3, 0x45), (4, 0x12), (5, 0x29), (6, 0x04), (7, 0x82), (8, 0x24)]) := by decide
/-- V-EPOCH-2, V-EPOCH-4 to V-EPOCH-7. -/
theorem test_epochs :
    civilReference ⟨59, 59, 23, 31, 6, 12, 1999⟩ = 946684799 ∧ civilReference ⟨30, 45, 12, 29, 2, 2, 2024⟩ = 1709210730 ∧
    civilReference ⟨0, 0, 0, 1, 0, 1, 1900⟩ = -2208988800 ∧ civilReference lastTime = 4102444799 ∧
    civilReference ⟨9, 10, 19, 20, 4, 9, 1970⟩ = 22705809 := by decide

/-! ## The step that the host places -/

theorem test_placed_word :
    decodeTableWord 16 0xFF01 = some (.ensureInit 0xFF) ∧ decodeTableWord 8 0x01 = some (.ensureInit 0x00) ∧
    decodeTableWord 24 0x010211 = some (.busRead 0x02 0x01) ∧
    (∃ t, step (State.reset.withFetchWord 8 0x20) = .next t ∧ t.responses = [[0x02, 0x00]]) := by
  exact ⟨rfl, rfl, rfl, _, rfl, by decide⟩

/-- A command walked phase by phase: one tick takes V-ENC-10 from its acceptance to VALIDATE. -/
theorem test_tick_to_validate :
    (match tick (accept [0x20, 0x3C, 0x19, 0x10, 0x06, 0x03, 0x03, 0xE6, 0x07] (demo false [])) with
      | .next t => some t.phase
      | .fault _ => none
      | .refused _ => none) = some .validate := by decide

/-! ## Every obligation with hypotheses: something that meets them -/

theorem witness_DecodeOfEncode :
    (Instr.busWrite 0xFF [0xAB]).WellFormed ∧ (Instr.busRead 0x01 0xFF).WellFormed ∧
    (Instr.setDateTime ⟨0, 255, 255, 255, 255, 255, 65535⟩).WellFormed ∧ (Instr.ensureInit 0xFF).WellFormed := by
  decide

theorem witness_EncodeOfDecode : decode [0x11, 0x01, 0xFF] = .ok (.busRead 0x01 0xFF) := rfl

/-- Both clauses at the bounds of R55, and a reserved opcode. -/
theorem witness_IllegalDescriptorRefused :
    LegalDescriptor [0x10, 0xFF, 0x01, 0xAB] ∧ LegalDescriptor [0x11, 0x01, 0xFF] ∧
    ¬ LegalDescriptor [0x10, 0xFF, 0x02, 0x01, 0x02] ∧ ¬ LegalDescriptor [0x11, 0x02, 0x00] ∧
    ¬ LegalDescriptor [0x22] ∧ ¬ LegalDescriptor [0x02, 0x00] ∧ ¬ LegalDescriptor [] := by
  simp [LegalDescriptor, requiredLength, byteAt]

theorem witness_StepRunsPresentedCommand :
    (let s := given [.command [0x02], .wait] (demo false block)
     s.cfg.ok = true ∧ s.phase = .idle ∧ s.inbox = [.command [0x02], .wait] ∧ decode [0x02] = .ok .getDateTime) ∧
    (let s := given [.command [0x22], .wait] (demo false block)
     s.cfg.ok = true ∧ s.phase = .idle ∧ s.inbox = [.command [0x22], .wait] ∧ ¬ LegalDescriptor [0x22]) :=
  ⟨⟨by decide, rfl, rfl, rfl⟩, by decide, rfl, rfl, by simp [LegalDescriptor, requiredLength]⟩

theorem witness_PlacedWordRunsNext :
    State.reset.cfg.ok = true ∧ decodeTableWord 16 0xFF01 = some (.ensureInit 0xFF) := ⟨by decide, rfl⟩

theorem witness_IdleStep :
    (State.reset.cfg.ok = true ∧ State.reset.phase = .idle ∧ State.reset.inbox = []) ∧
    (given [.wait] State.reset).inbox = [.wait] ∧
    (given [.commandPhased [0x02]] State.reset).inbox = [.commandPhased [0x02]] := ⟨⟨by decide, rfl, rfl⟩, rfl, rfl⟩

/-- The acceptance of a descriptor is a state of the invariant. -/
theorem inv_accepted (inputs : List Input) : Inv (accept [0x02] (given inputs (demo false block))) :=
  ⟨rfl, rfl, rfl, rfl, rfl, rfl, rfl, rfl⟩

/-- For nothing to come, `.wait`, and a descriptor presented either way. -/
theorem witness_CommandWaitsWhileBusy :
    ∀ inputs ∈ [[], [.wait], [.command [0x04]], [.commandPhased [0x04]]],
      let s := accept [0x02] (given inputs (demo false block))
      s.cfg.ok = true ∧ s.phase ≠ .idle ∧ s.inbox = inputs ∧ Coherent s :=
  fun inputs _ => ⟨(inv_accepted inputs).cfg, nofun, rfl, (inv_accepted inputs).coherent⟩

/-- Parameters at the edge of each constraint of R9, on both sides. -/
theorem witness_BadConfigurationRefused :
    Constraints Config.suggested ∧ Constraints { Config.suggested with addrTimeBlock := 0xF9 } ∧
    ¬ Constraints { Config.suggested with addrTimeBlock := 0xFA } ∧
    ¬ Constraints { Config.suggested with addrControl1 := 0x08 } ∧
    Constraints { Config.suggested with addrControl1 := 0x09 } ∧
    ¬ Constraints { Config.suggested with addrControl2 := 0x02 } ∧
    ¬ Constraints { Config.suggested with addrControl2 := 0x00 } := by
  simp only [← ok_iff]; decide

theorem witness_ResetReturnsToStart :
    let s := given [.reset, .wait] (demo true block)
    s.cfg.ok = true ∧ s.inbox = [.reset, .wait] := ⟨by decide, rfl⟩

theorem witness_OutsideChanges :
    State.reset.cfg.ok = true ∧ (given [.devChange 0xFF 0x12] State.reset).inbox = [.devChange 0xFF 0x12] ∧
    (given [.clockAdvance 0] State.reset).inbox = [.clockAdvance 0] ∧
    (given [.stall] State.reset).inbox = [.stall] := ⟨by decide, rfl, rfl, rfl⟩

/-- Both clauses at the last day of `P_DAY_MAX` and one past it. -/
theorem witness_EncodeResult :
    Valid .d31 lastTime ∧ Valid .d32 ⟨59, 59, 23, 32, 6, 12, 2099⟩ ∧ ¬ Valid .d31 ⟨59, 59, 23, 32, 6, 12, 2099⟩ ∧
    ¬ Valid .d32 ⟨59, 59, 23, 33, 6, 12, 2099⟩ ∧ ¬ Valid .d31 ⟨59, 59, 23, 31, 6, 12, 2100⟩ :=
  ⟨by decide, by decide, by decide, by decide, by decide⟩

theorem encode_lastTime : encodeCalendar .d31 lastTime = .ok ⟨0x59, 0x59, 0x23, 0x31, 0x06, 0x92, 0x99⟩ := by
  rw [encodeCalendar, if_pos (by decide)]; congr 1

theorem decode_lastTime : decodeImage ⟨0x59, 0x59, 0x23, 0x31, 0x06, 0x92, 0x99⟩ = lastTime := by decide

theorem witness_CodecRoundTrip :
    Valid .d31 lastTime ∧
    encodeCalendar .d31 (decodeImage ⟨0x59, 0x59, 0x23, 0x31, 0x06, 0x92, 0x99⟩) =
      .ok ⟨0x59, 0x59, 0x23, 0x31, 0x06, 0x92, 0x99⟩ ∧
    encodeCalendar .d31 (decodeImage ⟨0xD9, 0xD9, 0xE3, 0xF1, 0xFE, 0xF2, 0x99⟩) =
      .ok ⟨0x59, 0x59, 0x23, 0x31, 0x06, 0x92, 0x99⟩ :=
  ⟨by decide, by rw [decode_lastTime]; exact encode_lastTime,
    by rw [show decodeImage ⟨0xD9, 0xD9, 0xE3, 0xF1, 0xFE, 0xF2, 0x99⟩ = lastTime by decide]; exact encode_lastTime⟩

theorem witness_EncodeInjective : encodeCalendar .d31 lastTime = .ok ⟨0x59, 0x59, 0x23, 0x31, 0x06, 0x92, 0x99⟩ :=
  encode_lastTime

/-- Two images that differ in every ignored bit. -/
theorem witness_DecodeIgnoresUnusedBits :
    let img : RegisterImage := ⟨0x59, 0x59, 0x23, 0x31, 0x06, 0x12, 0x99⟩
    let img' : RegisterImage := ⟨0x59, 0xD9, 0xE3, 0xF1, 0xFE, 0x72, 0x99⟩
    img'.second = img.second ∧ img'.minute &&& 0x7F = img.minute &&& 0x7F ∧ img'.hour &&& 0x3F = img.hour &&& 0x3F ∧
    img'.day &&& 0x3F = img.day &&& 0x3F ∧ img'.weekday &&& 0x07 = img.weekday &&& 0x07 ∧
    img'.month &&& 0x9F = img.month &&& 0x9F ∧ img'.year = img.year := by decide

/-- In both centuries. -/
theorem witness_EncodeFixedBits :
    (Valid .d31 lastTime ∧ encodeCalendar .d31 lastTime = .ok ⟨0x59, 0x59, 0x23, 0x31, 0x06, 0x92, 0x99⟩) ∧
    (Valid .d31 ⟨59, 59, 23, 31, 6, 12, 1999⟩ ∧
      encodeCalendar .d31 ⟨59, 59, 23, 31, 6, 12, 1999⟩ = .ok ⟨0x59, 0x59, 0x23, 0x31, 0x06, 0x12, 0x99⟩) :=
  ⟨⟨by decide, encode_lastTime⟩, by decide, by rw [encodeCalendar, if_pos (by decide)]; congr 1⟩

theorem witness_EncodeMasksChangeNothing :
    (Valid .d31 lastTime ∧ encodeCalendar .d31 lastTime = .ok ⟨0x59, 0x59, 0x23, 0x31, 0x06, 0x92, 0x99⟩) ∧
    (Valid .d32 ⟨59, 59, 23, 32, 6, 12, 2099⟩ ∧
      encodeCalendar .d32 ⟨59, 59, 23, 32, 6, 12, 2099⟩ = .ok ⟨0x59, 0x59, 0x23, 0x32, 0x06, 0x92, 0x99⟩) :=
  ⟨⟨by decide, encode_lastTime⟩, by decide, by rw [encodeCalendar, if_pos (by decide)]; congr 1⟩

theorem witness_BusWriteRuns : InBounds 0xFF [0xAB].length ∧ InBounds 0x01 (List.replicate 255 (0x00 : Byte)).length := by
  rw [List.length_replicate]; decide

theorem witness_BusReadRuns : InBounds 0xFF (0x01 : Byte).toNat ∧ InBounds 0x01 (0xFF : Byte).toNat := by decide

/-- The read that answers `OK`, for the clause on the bytes. -/
theorem witness_BusReadRuns_ok :
    ∃ t, exec (.busRead 0x02 0x07) (demo false block) = .next t ∧ t.responses = [0x00 :: 0x00 :: block] :=
  ⟨_, rfl, by decide⟩

theorem witness_BusWriteStoresPrefix :
    InBounds 0xFF [0xAB].length ∧ responsesAfter (.busWrite 0xFF [0xAB]) (demo false []) = some [[0x00, 0x00]] := by decide

theorem witness_BusWriteOnReferenceDevice :
    (ReferenceEnv (demo false []) ∧ InBounds 0xFF [0xAB].length) ∧ (0xFE : Byte).toNat + [0xAB].length < 256 :=
  ⟨⟨⟨rfl, rfl⟩, by decide⟩, by decide⟩

theorem witness_BusReadOnReferenceDevice :
    (ReferenceEnv (demo false block) ∧ InBounds 0x01 (0xFF : Byte).toNat) ∧ (0x02 : Byte).toNat + (0x07 : Byte).toNat < 256 :=
  ⟨⟨⟨rfl, rfl⟩, by decide⟩, by decide⟩

/-- The first and the last reception of V-BUS-3. -/
theorem witness_ReadAcknowledgesAllButLast :
    InBounds 0x02 (0x07 : Byte).toNat ∧
    after (.busRead 0x02 0x07) (demo false block) (fun t =>
      let rxs := (t.trace.map BusEvent.event).filter fun e => decide (∃ a, e = .rx a)
      (rxs[0]?, rxs[6]?)) = some (some (.rx true), some (.rx false)) := by decide

theorem witness_ReleasesWhatItAcquires : State.reset.busHeld = false := rfl

/-- The address of a begin of V-BUS-3. -/
theorem witness_StartAddressIsParameter :
    after (.busRead 0x02 0x07) (demo false block) (fun t => (t.trace.map BusEvent.event)[1]?) =
      some (some (.start 0x51 .write)) := by decide

theorem witness_CommandsIgnoringInitState (reg len : Byte) (buf : List Byte) (ct : CalendarTime) (img : RegisterImage) :
    (∃ r b, Instr.busWrite reg buf = .busWrite r b) ∧ (∃ r l, Instr.busRead reg len = .busRead r l) ∧
    (∃ c, Instr.encodeTime ct = .encodeTime c) ∧ (∃ i, Instr.decodeTime img = .decodeTime i) :=
  ⟨⟨_, _, rfl⟩, ⟨_, _, rfl⟩, ⟨_, rfl⟩, ⟨_, rfl⟩⟩

theorem witness_EnsureInitWhenReady : (demo true block).initState = .ready := rfl

theorem witness_EnsureInitRuns : (demo false block).initState = .uninitialized := rfl

theorem witness_EnsureInitOnReferenceDevice :
    ReferenceEnv (demo false []) ∧ (demo false []).cfg.ok = true ∧ (demo false []).initState = .uninitialized :=
  ⟨⟨rfl, rfl⟩, by decide, rfl⟩

theorem witness_ModeMask :
    (ReferenceEnv (demo false []) ∧ (demo false []).initState = .uninitialized) ∧
    ((0xFF : Byte).getLsbD 4 = (0x13 : Byte).getLsbD 4 ∧ (0xFF : Byte).getLsbD 1 = (0x13 : Byte).getLsbD 1 ∧
      (0xFF : Byte).getLsbD 0 = (0x13 : Byte).getLsbD 0) := ⟨⟨⟨rfl, rfl⟩, rfl⟩, by decide⟩

theorem witness_ReadyOnlyAfterBothWrites :
    ∃ t, exec .getDateTime (demo false block) = .next t ∧ (demo false block).initState = .uninitialized ∧
      t.initState = .ready := ⟨_, rfl, rfl, by decide⟩

/-- A command taken whole, and one in progress. -/
theorem witness_ReadyIsSticky :
    (∃ t, step (given [.command [0x02]] (demo true block)) = .next t ∧
      (given [.command [0x02]] (demo true block)).initState = .ready ∧
      ∀ rest, (given [.command [0x02]] (demo true block)).inbox ≠ .reset :: rest) ∧
    (∃ t, step (accept [0x02] (demo true block)) = .next t ∧ (accept [0x02] (demo true block)).initState = .ready ∧
      ∀ rest, (accept [0x02] (demo true block)).inbox ≠ .reset :: rest) :=
  ⟨⟨_, rfl, rfl, by intro rest h; cases h⟩, _, rfl, rfl, by intro rest h; cases h⟩

theorem witness_GetDateTimeOnReferenceDevice :
    (ReferenceEnv (demo false block) ∧ (demo false block).cfg.ok = true) ∧
    (ReferenceEnv (demo true block) ∧ (demo true block).cfg.ok = true) :=
  ⟨⟨⟨rfl, rfl⟩, by decide⟩, ⟨rfl, rfl⟩, by decide⟩

theorem witness_SetDateTimeInvalid :
    ¬ Valid (demo false []).cfg.dayMax ⟨60, 25, 16, 6, 3, 3, 2022⟩ ∧
    ¬ Valid (demo false []).cfg.dayMax ⟨0, 25, 16, 32, 3, 3, 2022⟩ := by decide

theorem witness_SetDateTimeRuns : Valid (demo false []).cfg.dayMax lastTime := by decide

theorem witness_SetDateTimeOnReferenceDevice :
    ReferenceEnv (demo false []) ∧ (demo false []).cfg.ok = true ∧ Valid (demo false []).cfg.dayMax lastTime :=
  ⟨⟨rfl, rfl⟩, by decide, by decide⟩

theorem witness_SetThenGetReturnsTime :
    ReferenceEnv (demo true []) ∧ (demo true []).cfg.ok = true ∧ Valid (demo true []).cfg.dayMax noonish :=
  ⟨⟨rfl, rfl⟩, by decide, by decide⟩

theorem witness_SyncDevToHostOnReferenceDevice :
    ReferenceEnv (demo false block) ∧ (demo false block).cfg.ok = true := ⟨⟨rfl, rfl⟩, by decide⟩

theorem witness_SyncHostToDevSetsHostTime :
    ¬ Valid (hosted ⟨60, 25, 16, 6, 3, 3, 2022⟩ 0 (demo false [])).cfg.dayMax
      (hostUtc (hosted ⟨60, 25, 16, 6, 3, 3, 2022⟩ 0 (demo false []))) := by decide

/-- The host's leap second lies outside; its last second inside. -/
theorem witness_SyncHostToDevOnReferenceDevice :
    let s := hosted lastTime 4102444799 (demo false [])
    ReferenceEnv s ∧ s.cfg.ok = true ∧ Valid s.cfg.dayMax (hostUtc s) := ⟨⟨rfl, rfl⟩, by decide, by decide⟩

theorem witness_HostClockRoundTrip :
    let s := hosted ⟨30, 45, 12, 29, 4, 2, 2024⟩ 1709210730 (demo false [])
    ReferenceEnv s ∧ s.cfg.ok = true ∧ s.cfg.civil = .reference ∧ Valid .d31 (hostUtc s) ∧
      civilReference (hostUtc s) = s.hostEpoch := ⟨⟨rfl, rfl⟩, by decide, rfl, by decide, by decide⟩

theorem witness_CivilDaysFollowCalendar :
    ((1 : Int) ≤ 1 ∧ (1 : Int) ≤ 12 ∧ (1 : Int) < 12) ∧ ((1 : Int) ≤ 12 ∧ (12 : Int) ≤ 12) ∧ (11 : Int) < 12 ∧
    Config.suggested.civil = .reference ∧ Valid .d31 lastTime := by decide

theorem witness_EveryCommandRespondsOnce : Instr.getDateTime ≠ .syncDevToHost := by decide

theorem witness_ResponsesWithinMatrix :
    (Instr.busRead 0xFF 0x01).WellFormed ∧ (Instr.encodeTime ⟨0, 25, 16, 255, 3, 3, 2022⟩).WellFormed := by decide

/-- An address next to the time block, and one inside a read's range. -/
theorem witness_StoresOnlyWhereNamed :
    (demo true []).cfg.ok = true ∧ ¬ MayStore (.setDateTime noonish) (demo true []) 0x09 ∧
    ¬ MayStore (.busRead 0x02 0x07) (demo true []) 0x02 ∧ ¬ MayStore .getDateTime (demo true []) 0x00 := by
  refine ⟨by decide, ?_, id, ?_⟩
  · rintro ⟨-, ⟨h, -⟩ | ⟨-, h⟩⟩
    · exact absurd h (by decide)
    · exact absurd h (by decide)
  · rintro ⟨h, -⟩
    exact absurd h (by decide)

/-- A command in a phase of its own. -/
def inPhase (p : Phase) (i : Instr) (ct : CalendarTime) (s : State) : State :=
  { s with phase := p, cur := some i, regs := { CmdRegs.empty with ct := some ct, mode := some 0x00 } }

/-- GET_DATETIME at the end of a configuration write, with a latched error or none. -/
def initialised (p : Phase) (latched : Option Cause) : State :=
  { startTransaction p 0x00 0x01 (some [0x00]) (inPhase p .getDateTime noonish (demo false block)) with
    tphase := .done, latched := latched }

/-- SYNC_DEV_TO_HOST at the end of the burst. -/
def transferred (latched : Option Cause) : State :=
  { startTransaction .xfer 0x02 0x07 (some block) (inPhase .xfer .syncDevToHost noonish (demo true block)) with
    tphase := .done, latched := latched }

/-- A state of the premises, of a running command or not. -/
def Meets (s : State) : Prop := Coherent s ∧ ∃ t, tick s = .next t

theorem meets_initialised (p : Phase) (h : p = .initC1 ∨ p = .initC2) (latched : Option Cause) :
    Meets (initialised p latched) := by
  have htc : TransferCoherent .write (initialised p latched) :=
    ⟨_, _, rfl, rfl, by decide, fun _ => rfl, rfl, nofun⟩
  rcases h with rfl | rfl <;> cases latched <;>
    exact ⟨⟨htc, _, rfl, rfl, rfl, trivial⟩, _, rfl⟩

theorem meets_transferred (latched : Option Cause) : Meets (transferred latched) := by
  have htc : TransferCoherent .read (transferred latched) :=
    ⟨_, _, rfl, rfl, by decide, nofun, rfl, fun _ _ => rfl⟩
  cases latched <;> exact ⟨⟨_, rfl, htc, rfl⟩, _, rfl⟩

/-- Each clause: IDLE, DECODE_CMD with an illegal and a legal descriptor and either init state, RESPOND. -/
theorem witness_PhaseFollowsPath :
    Meets (demo true block) ∧
    (Meets (accept [0x22] (demo true block)) ∧ ¬ LegalDescriptor [0x22]) ∧
    (Meets (accept [0x02] (demo true block)) ∧ Meets (accept [0x02] (demo false block)) ∧
      decode [0x02] = .ok .getDateTime) ∧
    Meets (toRespond (.ok .unit) (demo true block)) :=
  ⟨⟨⟨rfl, by constructor <;> rfl⟩, _, rfl⟩,
    ⟨⟨⟨rfl, rfl, rfl, rfl, rfl, rfl⟩, _, rfl⟩, by simp [LegalDescriptor, requiredLength]⟩,
    ⟨⟨⟨rfl, rfl, rfl, rfl, rfl, rfl⟩, _, rfl⟩, ⟨⟨rfl, rfl, rfl, rfl, rfl, rfl⟩, _, rfl⟩, rfl⟩, ⟨rfl, trivial⟩, _, rfl⟩

/-- Each branch of the path: VALIDATE passed and failed, the configuration writes and a transfer ended well and
with a latched error, HOST_IO both ways. -/
theorem witness_PhaseFollowsPath_branches :
    (Meets (inPhase .validate (.encodeTime noonish) noonish (demo true block)) ∧ Valid .d31 noonish) ∧
    (Meets (inPhase .validate .syncHostToDev { noonish with second := 60 } (demo false block)) ∧
      ¬ Valid .d31 { noonish with second := 60 }) ∧
    (∀ latched, Meets (initialised .initC1 latched) ∧ Meets (initialised .initC2 latched) ∧ Meets (transferred latched)) ∧
    Meets (inPhase .hostIo .syncHostToDev noonish (demo true block)) ∧
    Meets { inPhase .hostIo .syncDevToHost noonish (demo true block) with
      regs := { CmdRegs.empty with ct := some noonish, img := some (imageOf noonish) } } :=
  ⟨⟨⟨⟨rfl, rfl, trivial⟩, _, rfl⟩, by decide⟩, ⟨⟨⟨rfl, rfl, rfl⟩, _, rfl⟩, by decide⟩,
    fun l => ⟨meets_initialised _ (.inl rfl) l, meets_initialised _ (.inr rfl) l, meets_transferred l⟩,
    ⟨⟨rfl, rfl⟩, _, rfl⟩, ⟨rfl, _, rfl, by decide⟩, _, rfl⟩

/-- What a test looks at after one tick. -/
def afterTick {α : Type} (s : State) (f : State → α) : Option α :=
  match tick s with
  | .next t => some (f t)
  | .fault _ => none
  | .refused _ => none

/-- GET_DATETIME at the end of a burst that received the bytes given. -/
def burst (bs : Option (List Byte)) : State :=
  { startTransaction .xfer 0x02 0x07 bs (inPhase .xfer .getDateTime lastTime (demo true block)) with tphase := .done }

/-- V-DEC-1 and V-GET-1 walked: the decoded time is in `ct`, the image in `img` (R26, R27). -/
theorem test_decoded_time_in_ct :
    afterTick (accept [0x21, 0x00, 0x25, 0x16, 0x06, 0x03, 0x83, 0x22] (demo false []))
      (fun t => (t.phase, t.regs.ct, t.regs.img)) =
        some (.respond, some noonish, some ⟨0x00, 0x25, 0x16, 0x06, 0x03, 0x83, 0x22⟩) ∧
    afterTick (burst (some block)) (fun t => (t.phase, t.regs.ct, t.regs.img)) =
        some (.respond, some noonish, some ⟨0x00, 0x25, 0x16, 0x06, 0x03, 0x83, 0x22⟩) := by decide

/-- A read begins with no byte received, and no byte is made up (R42). -/
theorem test_unreceived_bytes :
    afterTick (accept [0x02] (demo true block)) (fun t => t.regs.buf) = some none ∧
    tick (burst none) = .fault (.noValue .buf) ∧ tick (burst (some (block.take 6))) = .fault (.noValue .buf) :=
  ⟨by decide, rfl, rfl⟩

/-- A decoded time, an encoded image, received bytes and an error. -/
theorem witness_ResultsStandInTheirRegisters :
    (Meets (accept [0x21, 0x00, 0x25, 0x16, 0x06, 0x03, 0x83, 0x22] (demo false [])) ∧
      afterTick (accept [0x21, 0x00, 0x25, 0x16, 0x06, 0x03, 0x83, 0x22] (demo false [])) State.phase = some .respond) ∧
    (Meets (inPhase .validate (.encodeTime noonish) noonish (demo true block)) ∧
      afterTick (inPhase .validate (.encodeTime noonish) noonish (demo true block)) State.phase = some .respond) ∧
    (Meets { burst (some block) with cur := some (.busRead 0x02 0x07) } ∧
      afterTick { burst (some block) with cur := some (.busRead 0x02 0x07) } State.phase = some .respond) ∧
    (Meets (accept [0x22] (demo false [])) ∧ afterTick (accept [0x22] (demo false [])) State.phase = some .respond) :=
  ⟨⟨⟨⟨rfl, rfl, rfl, rfl, rfl, rfl⟩, _, rfl⟩, by decide⟩, ⟨⟨⟨rfl, rfl, trivial⟩, _, rfl⟩, by decide⟩,
    ⟨⟨⟨_, rfl, ⟨_, _, rfl, rfl, by decide, nofun, rfl, fun _ _ => rfl⟩, trivial⟩, _, rfl⟩, by decide⟩,
    ⟨⟨rfl, rfl, rfl, rfl, rfl, rfl⟩, _, rfl⟩, by decide⟩

/-- A command in a phase with no register written. -/
def bare (p : Phase) (tp : TPhase) (i : Instr) : State := { demo true block with phase := p, tphase := tp, cur := some i }

/-- Each clause, the last three with no byte written and with one byte too few. -/
theorem witness_UnwrittenRegisterFaults :
    ((bare .decodeCmd .done .getDateTime).desc = none ∧ (bare .validate .done (.encodeTime noonish)).regs.ct = none ∧
      (bare .validate .done (.encodeTime noonish)).cur.isSome ∧ (bare .respond .done .getDateTime).regs.result = none ∧
      (bare .initC1 .done .getDateTime).regs.mode = none ∧ (bare .initC1 .done .getDateTime).latched = none ∧
      (bare .initC2 .done .syncHostToDev).regs.img = none ∧ (bare .initC2 .done (.setDateTime noonish)).regs.img = none ∧
      (bare .hostIo .done .syncDevToHost).regs.ct = none) ∧
    ((bare .xfer .reg .getDateTime).regs.reg = none ∧ (bare .initC1 (.dataTx 0) .getDateTime).regs.len = none ∧
      (bare .xfer (.dataRx 0) .getDateTime).regs.len = none) ∧
    ((startTransaction .initC1 0x00 0x01 none (demo false [])).regs.len.isSome ∧
      (startTransaction .initC1 0x00 0x01 none (demo false [])).regs.written.length ≤ 0) ∧
    ((burst none).regs.written.length < 7 ∧ (burst (some (block.take 6))).regs.written.length < 7 ∧
      (burst none).tphase = .done ∧ (burst none).latched = none ∧ (burst none).cur = some .getDateTime ∧
      (burst none).regs.len = some 0x07 ∧ (burst (some (block.take 6))).regs.written.length < (0x07 : Byte).toNat) := by
  decide

theorem witness_PhasedRunIsAtomicRun : ControllerIdle (demo false block) := by constructor <;> rfl

theorem witness_StepKeepsInvariant : Inv (accept [0x02] (demo false block)) := inv_accepted []

theorem witness_StepKeepsMemoryCanonical :
    ∃ t, step (given [.devChange 0x04 0x17] (demo true block)) = .next t ∧
      Memory.wf (given [.devChange 0x04 0x17] (demo true block)).dev.regs = true := ⟨_, rfl, by decide⟩

theorem witness_ParametersNeverChange : ∃ t, step (given [.command [0x02]] (demo false block)) = .next t := ⟨_, rfl⟩

end Sys2Proof.Tests
end

section
/-! PROOFS. What one step can do, said once; and from it the obligations of the scope: every step keeps the
invariant without a fault or a refusal, parameters that break R9 are refused and nothing else is, and the
parameters never change. -/

namespace Sys2Proof.Machine

/-! ## What one step can do -/

/-- What a step within R9 answers, one constructor for each thing that can happen (R24, R68, R260, R270,
R272), with the input that it takes. -/
inductive StepOutcome (s : State) : Tick → Prop where
  /-- `rst_n` is asserted. -/
  | reset (rest : List Input) (hin : s.inbox = .reset :: rest) :
      StepOutcome s (.next (State.assertReset { s with inbox := rest }))
  /-- The device changes a register by itself. -/
  | devChange (a v : Byte) (rest : List Input) (hin : s.inbox = .devChange a v :: rest) :
      StepOutcome s (.next (changeDevice a v { s with inbox := rest }))
  /-- The host clock moves on. -/
  | clockAdvance (n : Nat) (rest : List Input) (hin : s.inbox = .clockAdvance n :: rest) :
      StepOutcome s (.next (advanceHost n { s with inbox := rest }))
  /-- The transport stalls: nothing but the input goes. -/
  | stall (rest : List Input) (hin : s.inbox = .stall :: rest) : StepOutcome s (.next { s with inbox := rest })
  /-- An idle controller runs the presented command whole. -/
  | command (d : List Byte) (rest : List Input) (hin : s.inbox = .command d :: rest) (hp : s.phase = .idle) :
      StepOutcome s (runDescriptor d { s with inbox := rest })
  /-- An idle controller takes the descriptor of a command to be run by phases. -/
  | accept (d : List Byte) (rest : List Input) (hin : s.inbox = .commandPhased d :: rest) (hp : s.phase = .idle) :
      StepOutcome s (.next (accept d { s with inbox := rest }))
  /-- The running command, or the idle controller, goes on by one tick; only `.wait` is taken. -/
  | tick (rest : List Input) (hin : rest = s.inbox ∨ s.inbox = .wait :: rest) :
      StepOutcome s (tick { s with inbox := rest })

/-- A step within R9 is one of these. -/
theorem step_of_ok {s : State} (h : s.cfg.ok = true) : StepOutcome s (step s) := by
  simp only [step, h, if_true]
  split
  case h_1 rest hin => exact .reset rest hin
  case h_2 a v rest hin => exact .devChange a v rest hin
  case h_3 n rest hin => exact .clockAdvance n rest hin
  case h_4 rest hin => exact .tick rest (.inr hin)
  case h_5 rest hin => exact .stall rest hin
  case h_6 d rest hin =>
    split
    · exact .command d rest hin ‹_›
    · exact .tick s.inbox (.inl rfl)
  case h_7 d rest hin =>
    split
    · exact .accept d rest hin ‹_›
    · exact .tick s.inbox (.inl rfl)
  case h_8 => exact .tick s.inbox (.inl rfl)

/-- A step outside R9 is refused. -/
theorem step_of_not_ok {s : State} (h : ¬ s.cfg.ok = true) : step s = .refused .badConfig := by
  simp only [step, if_neg h]

/-! ## What follows for every step -/

/-- A step within R9 is no refusal. -/
theorem StepOutcome.not_refused {s : State} {o : Tick} (h : StepOutcome s o) (r : Refusal) : o ≠ .refused r := by
  cases h with
  | reset | devChange | clockAdvance | stall | accept => nofun
  | command d rest =>
    obtain ⟨_, _, -, -, hd⟩ := runDescriptor_reach d { s with inbox := rest }
    rw [hd]; nofun
  | tick rest => exact (tick_ticked _).2 r

/-- A step within R9 leaves the parameters as they are (R32). -/
theorem StepOutcome.cfg {s t : State} {o : Tick} (h : StepOutcome s o) (ho : o = .next t) : t.cfg = s.cfg := by
  cases h with
  | reset | devChange | clockAdvance | stall | accept => cases ho; rfl
  | command d rest =>
    obtain ⟨r, u, hu, -, hd⟩ := runDescriptor_reach d { s with inbox := rest }
    cases hd.symm.trans ho
    exact hu.frame.cfg
  | tick rest => exact ((tick_ticked _).1 t ho).cfg

/-! ## The invariant -/

/-- In IDLE, coherent means that the bus is released and no per-command register holds a value. -/
theorem coherent_of_idle {s : State} (hp : s.phase = .idle) :
    Coherent s ↔ s.busHeld = false ∧ ControllerIdle s := by
  simp only [Coherent, hp]

/-- The invariant does not speak of the inputs to come. -/
theorem Inv.setInbox {s : State} (h : Inv s) (rest : List Input) : Inv { s with inbox := rest } :=
  ⟨h.cfg, h.memory, h.coherent.of_sequencing rfl rfl rfl rfl rfl rfl rfl rfl⟩

/-- Reset leads into the invariant from every phase; of the state before it only the parameters and the
device count (R41, R260). -/
theorem Inv.assertReset {s : State} (h : Inv s) : Inv s.assertReset :=
  ⟨h.cfg, h.memory, (coherent_of_idle rfl).2 ⟨rfl, rfl, rfl, rfl, rfl, rfl, rfl⟩⟩

/-- The device's own change is a register write (R35). -/
theorem Inv.changeDevice {s : State} (h : Inv s) (a v : Byte) : Inv (changeDevice a v s) :=
  ⟨h.cfg, Memory.wf_write a v h.memory, h.coherent.of_sequencing rfl rfl rfl rfl rfl rfl rfl rfl⟩

/-- The host clock is not in the invariant (R39). -/
theorem Inv.advanceHost {s : State} (h : Inv s) (n : Nat) : Inv (advanceHost n s) :=
  ⟨h.cfg, h.memory, h.coherent.of_sequencing rfl rfl rfl rfl rfl rfl rfl rfl⟩

/-- An idle controller that takes a descriptor stands coherent in DECODE_CMD (R72). -/
theorem Inv.accept {s : State} (h : Inv s) (hp : s.phase = .idle) (d : List Byte) : Inv (accept d s) := by
  obtain ⟨hheld, hidle⟩ := (coherent_of_idle hp).1 h.coherent
  exact ⟨h.cfg, h.memory, hheld, rfl, hidle.tphase, hidle.latched, hidle.cur, hidle.regs⟩

/-- A command run whole from an idle controller ends in an idle controller that holds nothing (R22, R42). -/
theorem Inv.runDescriptor {s : State} (h : Inv s) (hp : s.phase = .idle) (d : List Byte) :
    ∃ t, runDescriptor d s = .next t ∧ Inv t := by
  obtain ⟨hheld, -⟩ := (coherent_of_idle hp).1 h.coherent
  obtain ⟨r, u, hu, hrel, hd⟩ := runDescriptor_reach d s
  have hcfg : u.cfg.ok = true := hu.frame.cfg ▸ h.cfg
  exact ⟨_, hd, hcfg, hu.wf h.memory, (coherent_of_idle rfl).2 ⟨hrel hheld, respond_idle r u⟩⟩

/-- One tick goes on, and keeps the invariant. -/
theorem Inv.tick {s : State} (h : Inv s) : ∃ t, tick s = .next t ∧ Inv t := by
  obtain ⟨t, ht, hcoh⟩ := tick_coherent h.coherent
  have hticked : Ticked s t := (tick_ticked s).1 t ht
  have hcfg : t.cfg.ok = true := hticked.cfg ▸ h.cfg
  exact ⟨t, ht, hcfg, hticked.wf h.memory, hcoh⟩

/-- Whatever a step within R9 does, from the invariant it answers a next state of the invariant. -/
theorem StepOutcome.inv {s : State} {o : Tick} (h : StepOutcome s o) (hs : Inv s) : ∃ t, o = .next t ∧ Inv t := by
  cases h with
  | reset rest => exact ⟨_, rfl, (hs.setInbox rest).assertReset⟩
  | devChange a v rest => exact ⟨_, rfl, (hs.setInbox rest).changeDevice a v⟩
  | clockAdvance n rest => exact ⟨_, rfl, (hs.setInbox rest).advanceHost n⟩
  | stall rest => exact ⟨_, rfl, hs.setInbox rest⟩
  | command d rest hin hp => exact (hs.setInbox rest).runDescriptor hp d
  | accept d rest hin hp => exact ⟨_, rfl, (hs.setInbox rest).accept hp d⟩
  | tick rest => exact (hs.setInbox rest).tick

/-! ## The obligations -/

/-- Settles O56: the invariant's parameters are within R9, so the step is one of `StepOutcome`, each of which
keeps it. -/
theorem stepKeepsInvariant : Obligations.StepKeepsInvariant := by
  unfold Obligations.StepKeepsInvariant
  exact fun s hs => (step_of_ok hs.cfg).inv hs

/-- Settles O9: the check that a step runs is R9's constraints (`ok_iff`). -/
theorem badConfigurationRefused : Obligations.BadConfigurationRefused := by
  unfold Obligations.BadConfigurationRefused
  intro s
  rw [← ok_iff]
  exact ⟨step_of_not_ok, fun hok => (step_of_ok hok).not_refused⟩

/-- Settles O58: a step within R9 leaves the parameters alone, and any other answers no next state. -/
theorem parametersNeverChange : Obligations.ParametersNeverChange := by
  unfold Obligations.ParametersNeverChange
  intro s t ht
  by_cases hok : s.cfg.ok = true
  · exact (step_of_ok hok).cfg ht
  · cases (step_of_not_ok hok).symm.trans ht

end Sys2Proof.Machine
end

section
/-! PROOFS. The controller's state: what one step does for each input that can come and one tick in each phase,
an equation a case; and from these the obligations of 10_state.md. -/

namespace Sys2Proof.Machine

/-! ## One step, by the input that comes next -/

section StepByInput

variable {s : State} {rest : List Input} {d : List Byte} (hok : s.cfg.ok = true)

include hok

theorem step_nothing (hin : s.inbox = []) : step s = tick s := by
  simp only [step, hok, hin, if_true]

theorem step_wait (hin : s.inbox = .wait :: rest) : step s = tick { s with inbox := rest } := by
  simp only [step, hok, hin, if_true]

theorem step_stall (hin : s.inbox = .stall :: rest) : step s = .next { s with inbox := rest } := by
  simp only [step, hok, hin, if_true]

theorem step_reset (hin : s.inbox = .reset :: rest) : step s = .next (State.assertReset { s with inbox := rest }) := by
  simp only [step, hok, hin, if_true]

theorem step_devChange {a v : Byte} (hin : s.inbox = .devChange a v :: rest) :
    step s = .next (changeDevice a v { s with inbox := rest }) := by
  simp only [step, hok, hin, if_true]

theorem step_clockAdvance {n : Nat} (hin : s.inbox = .clockAdvance n :: rest) :
    step s = .next (advanceHost n { s with inbox := rest }) := by
  simp only [step, hok, hin, if_true]

theorem step_command_idle (hp : s.phase = .idle) (hin : s.inbox = .command d :: rest) :
    step s = runDescriptor d { s with inbox := rest } := by
  simp only [step, hok, hin, hp, if_true]

theorem step_commandPhased_idle (hp : s.phase = .idle) (hin : s.inbox = .commandPhased d :: rest) :
    step s = .next (accept d { s with inbox := rest }) := by
  simp only [step, hok, hin, hp, if_true]

/-- A busy controller leaves a presented descriptor where it is (R270). -/
theorem step_presented_busy (hp : s.phase ≠ .idle)
    (hin : s.inbox = .command d :: rest ∨ s.inbox = .commandPhased d :: rest) : step s = tick s := by
  rcases hin with hin | hin <;> simp only [step, hok, hin, hp, if_true, if_false]

end StepByInput

/-- A step that answers a next state has parameters within R9. -/
theorem ok_of_step_next {s t : State} (h : step s = .next t) : s.cfg.ok = true := by
  by_cases hok : s.cfg.ok = true
  · exact hok
  · cases (step_of_not_ok hok).symm.trans h

/-- A step within R9 leaves Ready only when it takes a reset (R21, R188). -/
theorem StepOutcome.ready {s t : State} {o : Tick} (h : StepOutcome s o) (ho : o = .next t)
    (hs : s.initState = .ready) (hr : ∀ rest, s.inbox ≠ .reset :: rest) : t.initState = .ready := by
  cases h with
  | reset rest hin => exact absurd hin (hr rest)
  | devChange | clockAdvance | stall | accept => cases ho; exact hs
  | command d rest =>
    obtain ⟨r, u, hu, -, hd⟩ := runDescriptor_reach d { s with inbox := rest }
    cases hd.symm.trans ho
    exact hu.frame.ready hs
  | tick rest => exact ((tick_ticked _).1 t ho).ready hs

/-! ## One tick, by phase -/

section TickByPhase

variable {s : State} {i : Instr}

theorem tick_idle (hp : s.phase = .idle) : tick s = .next s := by
  simp only [tick, hp]

theorem tick_decodeCmd (hp : s.phase = .decodeCmd) : tick s = tickDecode s := by
  simp only [tick, hp]

theorem tick_validate (hp : s.phase = .validate) : tick s = tickValidate s := by
  simp only [tick, hp]

theorem tick_initC1_event (hp : s.phase = .initC1) (hd : s.tphase ≠ .done) : tick s = tickTransfer .write s := by
  simp only [tick, hp, if_neg hd]

theorem tick_initC1_done (hp : s.phase = .initC1) (hd : s.tphase = .done) : tick s = afterControl1 s := by
  simp only [tick, hp, if_pos hd]

theorem tick_initC2_event (hp : s.phase = .initC2) (hd : s.tphase ≠ .done) : tick s = tickTransfer .write s := by
  simp only [tick, hp, if_neg hd]

theorem tick_initC2_done (hp : s.phase = .initC2) (hd : s.tphase = .done) : tick s = afterControl2 s := by
  simp only [tick, hp, if_pos hd]

theorem tick_xfer_event (hp : s.phase = .xfer) (hc : s.cur = some i) (hd : s.tphase ≠ .done) :
    tick s = tickTransfer (xferDir i) s := by
  simp only [tick, hp, hc, need, if_neg hd]

theorem tick_xfer_done (hp : s.phase = .xfer) (hc : s.cur = some i) (hd : s.tphase = .done) :
    tick s = afterXfer i s := by
  simp only [tick, hp, hc, need, if_pos hd]

theorem tick_hostIo (hp : s.phase = .hostIo) : tick s = tickHostIo s := by
  simp only [tick, hp]

theorem tick_respond (hp : s.phase = .respond) : tick s = tickRespond s := by
  simp only [tick, hp]

end TickByPhase

/-- A read of a register that goes on has its value. -/
theorem need_next {α : Type} {r : ValueReg} {v : Option α} {k : α → Tick} {t : State} (h : need r v k = .next t) :
    ∃ a, v = some a ∧ k a = .next t := by
  cases v with
  | none => cases h
  | some a => exact ⟨a, rfl, h⟩

/-! ## Presented descriptors -/

theorem runDescriptor_ok {d : List Byte} {i : Instr} (h : decode d = .ok i) (s : State) :
    runDescriptor d s = exec i s := by
  simp only [runDescriptor, h]

/-- An illegal descriptor has no command (R108). -/
theorem decode_of_illegal {d : List Byte} (h : ¬ LegalDescriptor d) : ∃ e, decode d = .error e := by
  cases hd : decode d with
  | error e => exact ⟨e, rfl⟩
  | ok i => exact absurd (legal_of_decode hd) h

theorem runDescriptor_illegal {d : List Byte} (h : ¬ LegalDescriptor d) (s : State) :
    runDescriptor d s = .next (delivered s [0xFF, 0x00]) := by
  obtain ⟨e, he⟩ := decode_of_illegal h
  simp only [runDescriptor, he]
  rfl

theorem tickDecode_legal {s : State} {d : List Byte} {i : Instr} (hdesc : s.desc = some d) (h : decode d = .ok i) :
    tickDecode s = startCommand i { s with cur := some i } := by
  simp only [tickDecode, hdesc, need, h]

theorem tickDecode_illegal {s : State} {d : List Byte} (hdesc : s.desc = some d) (h : ¬ LegalDescriptor d) :
    tickDecode s = .next (toRespond (.err .illegalCommand) s) := by
  obtain ⟨e, he⟩ := decode_of_illegal h
  simp only [tickDecode, hdesc, need, he]

/-! ## Idle and running controllers -/

theorem assertReset_idle (s : State) : ControllerIdle s.assertReset := by constructor <;> rfl

theorem reset_idle : ControllerIdle State.reset := by constructor <;> rfl

/-- In DECODE_CMD no command has been read yet. -/
theorem cur_of_decodeCmd {s : State} (h : Coherent s) (hp : s.phase = .decodeCmd) : s.cur = none := by
  simp only [Coherent, hp] at h
  obtain ⟨-, -, -, -, hcur, -⟩ := h
  exact hcur

/-- Between DECODE_CMD and RESPOND some command is being run. -/
theorem Coherent.running {s : State} (h : Coherent s) :
    s.phase = .idle ∨ s.phase = .decodeCmd ∨ s.phase = .respond ∨ (s.phase ≠ .respond ∧ ∃ i, s.cur = some i) := by
  cases hp : s.phase with
  | idle | decodeCmd | respond => simp
  | validate | hostIo =>
    cases hc : s.cur with
    | none => simp [Coherent, hp, hc] at h
    | some i => simp
  | initC1 | initC2 =>
    simp only [Coherent, hp] at h
    obtain ⟨-, i, hc, -⟩ := h
    simp [hc]
  | xfer =>
    simp only [Coherent, hp] at h
    obtain ⟨i, hc, -⟩ := h
    simp [hc]

/-! ## Commands -/

/-- What a command leaves beside its response, from every state (R39, R104, R191). -/
theorem commandAct_frame (i : Instr) (s : State) (r : Result) :
    CommandFrame s (respond r (commandAct i s).2) ∧
    (respond r (commandAct i s).2).responses = s.responses ++ [r.response] := by
  have hf : ReachFrame s (commandAct i s).2 := (commandAct_reaches i s).frame
  exact ⟨⟨respond_idle _ _, hf.cfg, hf.inbox, hf.mode, (commandAct_quiet i s).1⟩,
    by rw [respond_responses, hf.responses]⟩

/-- What does not read `S.init_state` does not write it either: it would be the value it started from. -/
theorem IgnoresInit.initState {ε α : Type} {m : Act ε α} (h : IgnoresInit m) (s : State) :
    (m s).2.initState = s.initState :=
  congrArg (fun x => x.2.initState) (h s.initState s)

theorem busWrite_ignoresInit (reg : Byte) (buf : List Byte) : IgnoresInit (busWrite reg buf) := by
  intro x s
  simp only [busWrite]
  split
  · exact andThen_ignoresInit (asBusError_ignoresInit (memWrite_ignoresInit reg buf))
      (fun _ => pure_ignoresInit _) x s
  · rfl

theorem busRead_ignoresInit (reg len : Byte) : IgnoresInit (busRead reg len) := by
  intro x s
  simp only [busRead]
  split
  · exact andThen_ignoresInit (asBusError_ignoresInit (memRead_ignoresInit reg len.toNat))
      (fun _ => pure_ignoresInit _) x s
  · rfl

theorem encodeAct_ignoresInit (ct : CalendarTime) : IgnoresInit (encodeAct ct) := fun _ _ => rfl

/-- A command whose piece does not see `S.init_state` does not see it. -/
theorem exec_ignoresInit {i : Instr} (h : IgnoresInit (commandAct i)) (s : State) (x : DeviceInitState) :
    ∃ t, exec i s = .next t ∧ t.initState = s.initState ∧ exec i (withInit x s) = .next (withInit x t) := by
  refine ⟨_, exec_eq i s, h.initState s, ?_⟩
  rw [exec_eq, h x s]
  rfl

/-! ## The paths of R191 -/

/-- `S.init_state` one tick after `s`: Ready where the path says "set Ready", else as it was (R191). -/
def initAfterTick (s : State) : DeviceInitState :=
  if s.phase = .initC2 ∧ s.tphase = .done ∧ s.latched = none then .ready else s.initState

theorem initAfterTick_of_phase {s : State} (h : s.phase ≠ .initC2) : initAfterTick s = s.initState :=
  if_neg fun hc => h hc.1

theorem initAfterTick_of_event {s : State} (h : s.tphase ≠ .done) : initAfterTick s = s.initState :=
  if_neg fun hc => h hc.2.1

/-- From `s` to `t` command `i` goes one tick along its path. -/
structure OnPath (i : Instr) (s t : State) : Prop where
  cur       : t.cur = some i
  phase     : t.phase = nextPhase i s
  initState : t.initState = initAfterTick s

section Paths

variable {i : Instr} {s t : State}

/-- One event of a transaction: the phase stays. -/
theorem onPath_of_event {p next : Phase} {dir : Dir} (hp : s.phase = p) (hnext : nextPhase i s = afterTransaction s p next)
    (hc : s.cur = some i) (hd : s.tphase ≠ .done) (hco : TransferCoherent dir s) (ht : tickTransfer dir s = .next t) :
    OnPath i s t := by
  obtain ⟨hphase, hcur, hinit⟩ := tickTransfer_phase hco hd ht
  exact ⟨hcur.trans hc, by rw [hphase, hnext, afterTransaction, if_neg hd, hp],
    hinit.trans (initAfterTick_of_event hd).symm⟩

/-- The end of a transaction with a latched error is RESPOND (R138). -/
theorem onPath_of_latched {p next : Phase} {c : Cause} {r : Result} (hnext : nextPhase i s = afterTransaction s p next)
    (hc : s.cur = some i) (hd : s.tphase = .done) (hl : s.latched = some c) : OnPath i s (toRespond r s) := by
  have hne : ¬ s.latched = none := by simp [hl]
  exact ⟨hc, by rw [hnext, afterTransaction, if_pos hd, if_neg hne]; rfl, (if_neg fun h => hne h.2.2).symm⟩

/-- The end of a transaction without an error is the path's next phase. -/
theorem onPath_of_success {p next : Phase} (hp : s.phase = p) (hp2 : p ≠ .initC2)
    (hnext : nextPhase i s = afterTransaction s p next) (hc : s.cur = some i) (hd : s.tphase = .done)
    (hl : s.latched = none) (hcur : t.cur = s.cur) (hphase : t.phase = next) (hinit : t.initState = s.initState) :
    OnPath i s t :=
  ⟨hcur.trans hc, by rw [hphase, hnext, afterTransaction, if_pos hd, if_pos hl],
    hinit.trans (initAfterTick_of_phase (hp ▸ hp2)).symm⟩

theorem tick_validate_path (hco : Coherent s) (hp : s.phase = .validate) (hc : s.cur = some i)
    (ht : tick s = .next t) : OnPath i s t := by
  have hinit : initAfterTick s = s.initState := initAfterTick_of_phase (by simp [hp])
  rw [tick_validate hp] at ht
  simp only [Coherent, hp, hc] at hco
  obtain ⟨-, hct, hi⟩ := hco
  obtain ⟨ct, hct⟩ := Option.isSome_iff_exists.1 hct
  simp only [tickValidate, hc, hct, need, encodeCalendar] at ht
  by_cases hv : Valid s.cfg.dayMax ct
  · have hvalid : ∃ ct, s.regs.ct = some ct ∧ Valid s.cfg.dayMax ct := ⟨ct, hct, hv⟩
    simp only [if_pos hv] at ht
    cases i with
    | encodeTime _ =>
      cases ht
      exact ⟨hc, by simp only [nextPhase, hp, if_pos hvalid]; rfl, hinit.symm⟩
    | setDateTime _ | syncHostToDev =>
      obtain ⟨hcur, hinit', hphase⟩ := initOrGo_phase ht
      exact ⟨hcur.trans hc, by simp only [nextPhase, hp, if_pos hvalid]; exact hphase, hinit'.trans hinit.symm⟩
    | _ => exact hi.elim
  · have hinvalid : ¬ ∃ ct, s.regs.ct = some ct ∧ Valid s.cfg.dayMax ct := by
      rintro ⟨ct', hct', hv'⟩
      cases hct.symm.trans hct'
      exact hv hv'
    simp only [if_neg hv] at ht
    cases ht
    exact ⟨hc, by simp only [nextPhase, hp, if_neg hinvalid]; rfl, hinit.symm⟩

theorem tick_initC1_path (hco : Coherent s) (hp : s.phase = .initC1) (hc : s.cur = some i)
    (ht : tick s = .next t) : OnPath i s t := by
  have hnext : nextPhase i s = afterTransaction s .initC1 .initC2 := by simp only [nextPhase, hp]
  simp only [Coherent, hp] at hco
  by_cases hd : s.tphase = .done
  · rw [tick_initC1_done hp hd, afterControl1] at ht
    cases hl : s.latched with
    | some c =>
      simp only [hl] at ht
      cases ht
      exact onPath_of_latched hnext hc hd hl
    | none =>
      simp only [hl] at ht
      obtain ⟨mode, -, ht⟩ := need_next ht
      cases ht
      exact onPath_of_success hp (by decide) hnext hc hd hl rfl rfl rfl
  · rw [tick_initC1_event hp hd] at ht
    exact onPath_of_event hp hnext hc hd hco.1 ht

theorem tick_initC2_path (hco : Coherent s) (hp : s.phase = .initC2) (hc : s.cur = some i)
    (ht : tick s = .next t) : OnPath i s t := by
  have hnext : nextPhase i s = afterTransaction s .initC2 (readyPhase i) := by simp only [nextPhase, hp]
  simp only [Coherent, hp] at hco
  by_cases hd : s.tphase = .done
  · rw [tick_initC2_done hp hd, afterControl2] at ht
    cases hl : s.latched with
    | some c =>
      simp only [hl] at ht
      cases ht
      exact onPath_of_latched hnext hc hd hl
    | none =>
      simp only [hl, hc, need] at ht
      obtain ⟨hcur, hinit, hphase⟩ := afterReady_phase ht
      exact ⟨hcur.trans hc, by rw [hphase, hnext, afterTransaction, if_pos hd, if_pos hl],
        hinit.trans (if_pos ⟨hp, hd, hl⟩).symm⟩
  · rw [tick_initC2_event hp hd] at ht
    exact onPath_of_event hp hnext hc hd hco.1 ht

/-- Where a command goes on after its XFER: to the host clock, or to RESPOND (R191, R219). -/
def xferNext : Instr → Phase
  | .syncDevToHost => .hostIo
  | _ => .respond

theorem nextPhase_xfer (i : Instr) (hp : s.phase = .xfer) :
    nextPhase i s = afterTransaction s .xfer (xferNext i) := by
  simp only [nextPhase, hp]
  cases i <;> rfl

theorem tick_xfer_path (hco : Coherent s) (hp : s.phase = .xfer) (hc : s.cur = some i)
    (ht : tick s = .next t) : OnPath i s t := by
  have hnext := nextPhase_xfer i hp
  by_cases hd : s.tphase = .done
  · rw [tick_xfer_done hp hc hd] at ht
    cases hl : s.latched with
    | some c =>
      simp only [afterXfer, hl] at ht
      cases ht
      exact onPath_of_latched hnext hc hd hl
    | none =>
      simp only [afterXfer, hl] at ht
      cases i with
      | ensureInit _ | encodeTime _ | decodeTime _ => cases ht
      | setDateTime _ | syncHostToDev | busWrite _ _ =>
        cases ht
        exact onPath_of_success hp (by decide) hnext hc hd hl rfl rfl rfl
      | getDateTime | syncDevToHost =>
        obtain ⟨bs, -, ht⟩ := needBytes_next ht
        cases ht
        exact onPath_of_success hp (by decide) hnext hc hd hl rfl rfl rfl
      | busRead _ _ =>
        obtain ⟨len, -, ht⟩ := need_next ht
        obtain ⟨bs, -, ht⟩ := needBytes_next ht
        cases ht
        exact onPath_of_success hp (by decide) hnext hc hd hl rfl rfl rfl
  · simp only [Coherent, hp] at hco
    obtain ⟨j, hj, htc, -⟩ := hco
    cases hc.symm.trans hj
    rw [tick_xfer_event hp hc hd] at ht
    exact onPath_of_event hp hnext hc hd htc ht

theorem tick_hostIo_path (hp : s.phase = .hostIo) (hc : s.cur = some i) (ht : tick s = .next t) : OnPath i s t := by
  have hinit : initAfterTick s = s.initState := initAfterTick_of_phase (by simp [hp])
  rw [tick_hostIo hp, tickHostIo] at ht
  simp only [hc, need] at ht
  cases i with
  | syncDevToHost =>
    obtain ⟨ct, -, ht⟩ := need_next ht
    obtain ⟨img, -, ht⟩ := need_next ht
    cases ht
    exact ⟨hc, by simp only [nextPhase, hp]; rfl, hinit.symm⟩
  | syncHostToDev =>
    cases ht
    exact ⟨hc, by simp only [nextPhase, hp], hinit.symm⟩
  | _ => cases ht

/-- The running command goes along its path in every phase between DECODE_CMD and RESPOND. -/
theorem tick_path (hco : Coherent s) (hc : s.cur = some i) (hnr : s.phase ≠ .respond) (ht : tick s = .next t) :
    OnPath i s t := by
  cases hp : s.phase with
  | idle => cases hc.symm.trans ((coherent_of_idle hp).1 hco).2.cur
  | decodeCmd => cases hc.symm.trans (cur_of_decodeCmd hco hp)
  | validate => exact tick_validate_path hco hp hc ht
  | initC1 => exact tick_initC1_path hco hp hc ht
  | initC2 => exact tick_initC2_path hco hp hc ht
  | xfer => exact tick_xfer_path hco hp hc ht
  | hostIo => exact tick_hostIo_path hp hc ht
  | respond => exact absurd hp hnr

theorem tick_initState (hco : Coherent s) (ht : tick s = .next t) : t.initState = initAfterTick s := by
  rcases hco.running with hp | hp | hp | ⟨hnr, i, hc⟩
  · rw [tick_idle hp] at ht
    cases ht
    exact (initAfterTick_of_phase (by simp [hp])).symm
  · rw [tick_decodeCmd hp, tickDecode] at ht
    obtain ⟨d, -, ht⟩ := need_next ht
    rw [initAfterTick_of_phase (by simp [hp])]
    cases hd : decode d with
    | error e => simp only [hd] at ht; cases ht; rfl
    | ok i =>
      simp only [hd] at ht
      obtain ⟨-, hinit, -⟩ := startCommand_phase ht
      exact hinit
  · rw [tick_respond hp, tickRespond] at ht
    obtain ⟨r, -, ht⟩ := need_next ht
    cases ht
    exact (initAfterTick_of_phase (s := s) (by simp [hp])).symm
  · exact (tick_path hco hc hnr ht).initState

end Paths

/-! ## Registers without a value (R42) -/

/-- An event that reads a register without a value, or a byte of `buf` without one, faults under its name. -/
theorem tickTransfer_unwritten (dir : Dir) (s : State) :
    (s.tphase = .reg → s.regs.reg = none → tickTransfer dir s = .fault (.noValue .reg)) ∧
    (∀ k, s.tphase = .dataTx k ∨ s.tphase = .dataRx k → s.regs.len = none →
      tickTransfer dir s = .fault (.noValue .len)) ∧
    (∀ k, s.tphase = .dataTx k → s.regs.len.isSome → s.regs.written.length ≤ k →
      tickTransfer dir s = .fault (.noValue .buf)) := by
  refine ⟨fun hp hr => ?_, fun k hp hl => ?_, fun k hp hl hk => ?_⟩
  · simp only [tickTransfer, hp, hr, need]
  · rcases hp with hp | hp <;> simp only [tickTransfer, hp, hl, need]
  · obtain ⟨len, hlen⟩ := Option.isSome_iff_exists.1 hl
    simp only [tickTransfer, hp, hlen, need, List.getElem?_eq_none hk]

/-- In a phase with a transaction that is not over, the tick is one of its events. -/
theorem tick_event {s : State} (h : s.phase = .initC1 ∨ s.phase = .initC2 ∨ (s.phase = .xfer ∧ s.cur.isSome))
    (hd : s.tphase ≠ .done) : ∃ dir, tick s = tickTransfer dir s := by
  rcases h with hp | hp | ⟨hp, hc⟩
  · exact ⟨_, tick_initC1_event hp hd⟩
  · exact ⟨_, tick_initC2_event hp hd⟩
  · obtain ⟨i, hi⟩ := Option.isSome_iff_exists.1 hc
    exact ⟨_, tick_xfer_event hp hi hd⟩

/-! ## The obligations -/

/-- Settles O37: no outcome of a step but the reset leaves Ready, and a step outside R9 answers no next state. -/
theorem readyIsSticky : Obligations.ReadyIsSticky := by
  unfold Obligations.ReadyIsSticky
  exact fun s t ht hs hr => (step_of_ok (ok_of_step_next ht)).ready ht hs hr

/-- Settles O8: the step is the tick, no tick changes the inputs to come, and a coherent state ticks on. -/
theorem commandWaitsWhileBusy : Obligations.CommandWaitsWhileBusy := by
  unfold Obligations.CommandWaitsWhileBusy
  intro s hok hp
  refine ⟨step_nothing hok, fun rest => step_wait hok, fun bs rest hin => ?_⟩
  have hstep : step s = tick s := step_presented_busy hok hp hin
  rw [hstep]
  refine ⟨rfl, fun t ht => ((tick_ticked s).1 t ht).inbox, fun hco => ?_⟩
  obtain ⟨t, ht, -⟩ := tick_coherent hco
  exact ⟨t, ht⟩

/-- Settles O31: the pieces that the four commands consist of do not see `S.init_state`. -/
theorem commandsIgnoringInitState : Obligations.CommandsIgnoringInitState := by
  unfold Obligations.CommandsIgnoringInitState
  rintro i s x (⟨reg, buf, rfl⟩ | ⟨reg, len, rfl⟩ | ⟨ct, rfl⟩ | ⟨img, rfl⟩)
  · exact exec_ignoresInit (i := .busWrite reg buf) (busWrite_ignoresInit reg buf) s x
  · exact exec_ignoresInit (i := .busRead reg len) (busRead_ignoresInit reg len) s x
  · exact exec_ignoresInit (i := .encodeTime ct)
      (andThen_ignoresInit (encodeAct_ignoresInit ct) fun _ => pure_ignoresInit _) s x
  · exact exec_ignoresInit (i := .decodeTime img) (pure_ignoresInit _) s x

/-- Settles O50: a command is elementary actions and one response. -/
theorem everyCommandRespondsOnce : Obligations.EveryCommandRespondsOnce := by
  unfold Obligations.EveryCommandRespondsOnce
  intro i s
  obtain ⟨hframe, hresp⟩ := commandAct_frame i s (resultOf (commandAct i s).1)
  exact ⟨_, _, exec_eq i s, hframe, hresp, (commandAct_quiet i s).2⟩

/-- Settles O53: phase by phase, by what the model's own lemmas say of `startCommand`, `initOrGo`, `afterReady`
and one event. -/
theorem phaseFollowsPath : Obligations.PhaseFollowsPath := by
  unfold Obligations.PhaseFollowsPath
  intro s t hco ht
  refine ⟨fun hp => ?idle, fun bs hp hbs => ⟨fun hill => ?illegal, fun i hi => ?legal⟩, fun i hc hnr => ?running,
    fun hp => ?respond, tick_initState hco ht⟩
  case idle =>
    cases (tick_idle hp).symm.trans ht
    rfl
  case illegal =>
    rw [tick_decodeCmd hp, tickDecode_illegal hbs hill] at ht
    have hcur : s.cur = none := cur_of_decodeCmd hco hp
    cases ht
    exact ⟨rfl, hcur, rfl⟩
  case legal =>
    rw [tick_decodeCmd hp, tickDecode_legal hbs hi] at ht
    obtain ⟨hcur, -, hphase⟩ := startCommand_phase ht
    exact ⟨hcur, hphase⟩
  case running =>
    have hpath := tick_path hco hc hnr ht
    exact ⟨hpath.cur, hpath.phase⟩
  case respond =>
    rw [tick_respond hp, tickRespond] at ht
    obtain ⟨r, -, ht⟩ := need_next ht
    cases ht
    rfl

/-- Settles O59: the tick leads to a coherent state, and coherence in RESPOND says it. -/
theorem resultsStandInTheirRegisters : Obligations.ResultsStandInTheirRegisters := by
  unfold Obligations.ResultsStandInTheirRegisters
  intro s t hco ht hp
  obtain ⟨u, hu, hcou⟩ := tick_coherent hco
  cases hu.symm.trans ht
  simp only [Coherent, hp] at hcou
  exact hcou.2

/-- Settles O5: the step is `runDescriptor`, which runs a command and answers an illegal descriptor. -/
theorem stepRunsPresentedCommand : Obligations.StepRunsPresentedCommand := by
  unfold Obligations.StepRunsPresentedCommand
  intro s bs rest hok hp hin
  rw [step_command_idle hok hp hin]
  exact ⟨rfl, fun i hi => runDescriptor_ok hi _, fun hill => runDescriptor_illegal hill _⟩

/-- Settles O7: in IDLE a tick changes nothing, and a descriptor to be run by phases is accepted. -/
theorem idleStep : Obligations.IdleStep := by
  unfold Obligations.IdleStep
  intro s hok hp
  exact ⟨fun hin => (step_nothing hok hin).trans (tick_idle hp), fun rest hin => (step_wait hok hin).trans (tick_idle hp),
    fun bs rest hin => step_commandPhased_idle hok hp hin⟩

/-- Settles O10: the step is `assertReset`, whose fields are these. -/
theorem resetReturnsToStart : Obligations.ResetReturnsToStart := by
  unfold Obligations.ResetReturnsToStart
  intro s rest hok hin
  exact ⟨_, step_reset hok hin, assertReset_idle _, rfl, rfl, rfl, rfl, rfl, rfl, rfl, rfl, rfl, rfl⟩

/-- Settles O11: the fields of the reset state. -/
theorem resetStateValues : Obligations.ResetStateValues := by
  unfold Obligations.ResetStateValues
  exact ⟨rfl, rfl, reset_idle, rfl⟩

/-- Settles O12: a register write in the device, a longer time on the host clock, and nothing. -/
theorem outsideChanges : Obligations.OutsideChanges := by
  unfold Obligations.OutsideChanges
  intro s rest hok
  refine ⟨fun a v hin => ⟨_, step_devChange hok hin, fun b => ?_, rfl⟩, fun n hin => step_clockAdvance hok hin,
    step_stall hok⟩
  rw [changeDevice_dev, Device.regAt_write]
  simp only [eq_comm]

/-- Settles O55: the suggested parameters meet R9, no register is listed, and the controller is idle. -/
theorem invariantAtReset : Obligations.InvariantAtReset := by
  unfold Obligations.InvariantAtReset
  exact ⟨by decide, rfl, (coherent_of_idle rfl).2 ⟨rfl, reset_idle⟩⟩

/-- Settles O60: in each phase the tick reads the register first, and the read faults. -/
theorem unwrittenRegisterFaults : Obligations.UnwrittenRegisterFaults := by
  unfold Obligations.UnwrittenRegisterFaults
  intro s
  refine ⟨fun hp hdesc => ?decodeCmd, fun hp hcur hct => ?validate, fun hp hres => ?respond,
    fun hp hd hl hmode => ?initC1, fun i hp hd hl hcur himg hi => ?initC2, fun hp hcur hct => ?hostIo,
    fun htxn => ⟨fun htp => ?reg, fun k htp => ?len, fun k htp => ?data⟩, fun hp hd hl hcur hlen => ?timeBlock,
    fun reg n len hp hd hl hcur hlen hbytes => ?busRead⟩
  case decodeCmd => simp only [tick_decodeCmd hp, tickDecode, hdesc, need]
  case validate =>
    obtain ⟨i, hi⟩ := Option.isSome_iff_exists.1 hcur
    simp only [tick_validate hp, tickValidate, hi, hct, need]
  case respond => simp only [tick_respond hp, tickRespond, hres, need]
  case initC1 => simp only [tick_initC1_done hp hd, afterControl1, hl, hmode, need]
  case initC2 =>
    rw [tick_initC2_done hp hd]
    simp only [afterControl2, hl, hcur]
    rcases hi with rfl | ⟨ct, rfl⟩ <;> simp only [need, afterReady, setReady_regs, himg]
  case hostIo => simp only [tick_hostIo hp, tickHostIo, hcur, hct, need]
  case reg =>
    obtain ⟨dir, hdir⟩ := tick_event htxn (by simp [htp])
    exact hdir ▸ (tickTransfer_unwritten dir s).1 htp
  case len =>
    obtain ⟨dir, hdir⟩ := tick_event htxn (by rcases htp with htp | htp <;> simp [htp])
    exact hdir ▸ (tickTransfer_unwritten dir s).2.1 k htp
  case data =>
    obtain ⟨dir, hdir⟩ := tick_event htxn (by simp [htp])
    exact hdir ▸ (tickTransfer_unwritten dir s).2.2 k htp
  case timeBlock =>
    rcases hcur with hcur | hcur
    all_goals
      rw [tick_xfer_done hp hcur hd]
      simp only [afterXfer, hl]
      exact needBytes_unwritten (Nat.ne_of_lt hlen) _
  case busRead =>
    rw [tick_xfer_done hp hcur hd]
    simp only [afterXfer, hl, hlen, need]
    exact needBytes_unwritten (Nat.ne_of_lt hbytes) _

end Sys2Proof.Machine
end

section
/-! PROOFS. The device's registers: what each command leaves in them in every environment and on the reference
device, that no step spoils their canonical form, and that a command walked phase by phase ends in the state in
which it ends when run at once. -/

namespace Sys2Proof.Machine

/-! ## A command and its piece -/

/-- A command whose piece goes well ends with its `OK` response. -/
theorem exec_of_ok {i : Instr} {s t : State} {p : Payload} (h : commandAct i s = (.ok p, t)) :
    exec i s = .next (respond (.ok p) t) := by
  rw [exec_eq, h]
  rfl

/-- ENSURE_INIT is its piece and the response to it (R182). -/
theorem ensureInit_eq (mode : Byte) (s : State) : exec (.ensureInit mode) s =
    .next (respond (resultOf ((ensureInit mode s).1.map fun _ => .unit)) (ensureInit mode s).2) := by
  rw [exec_eq]
  simp only [commandAct, andThen]
  rcases ensureInit mode s with ⟨r, t⟩
  cases r <;> rfl

/-! ## Canonical form -/

/-- A step within R9 keeps the device's registers in canonical form, whatever its phase (R50). -/
theorem StepOutcome.wf {s t : State} {o : Tick} (h : StepOutcome s o) (ho : o = .next t)
    (hs : Memory.wf s.dev.regs = true) : Memory.wf t.dev.regs = true := by
  cases h with
  | reset | clockAdvance | stall | accept => cases ho; exact hs
  | devChange a v rest => cases ho; exact Memory.wf_write a v hs
  | command d rest =>
    obtain ⟨r, u, hu, -, hd⟩ := runDescriptor_reach d { s with inbox := rest }
    cases hd.symm.trans ho
    exact hu.wf hs
  | tick rest => exact ((tick_ticked _).1 t ho).wf hs

/-! ## The reference environment -/

theorem writeEvents_length (a : Addr7) (reg : Byte) (buf : List Byte) :
    (writeEvents a reg buf).length = buf.length + 2 := by
  simp [writeEvents]

theorem readEvents_length (a : Addr7) (reg : Byte) (len : Nat) : (readEvents a reg len).length = len + 3 := by
  simp [readEvents]

theorem initEvents_length (cfg : Config) (mode : Byte) : (initEvents cfg mode).length = 12 := rfl

theorem digitImage_length (ct : CalendarTime) : (digitImage ct).length = 7 := rfl

theorem readyEvents_ready {s : State} (h : s.initState = .ready) (mode : Byte) : readyEvents s mode = [] := by
  simp only [readyEvents, h]

theorem readyEvents_uninitialized {s : State} (h : s.initState = .uninitialized) (mode : Byte) :
    readyEvents s mode = initEvents s.cfg mode := by
  simp only [readyEvents, h]

theorem initRegs_uninitialized {s : State} (h : s.initState = .uninitialized) (mode a : Byte) :
    initRegs s mode a = if a = s.cfg.addrControl2 then mode &&& 0x13
      else if a = s.cfg.addrControl1 then 0x00 else s.dev.regAt a := by
  simp only [initRegs, h]

/-- One transaction beside its frame: the acquire, the end and the release (R139). -/
theorem CleanRun.length_transaction {s t : State} {cfg : BusCfg} {frame : List TpEvent} {resp : List Byte}
    (h : CleanRun s t (.acq cfg :: frame ++ [.stop, .rel]) resp) :
    t.trace.length = s.trace.length + (frame.length + 3) := by
  simp [h.length_trace]

section TimeBlock

variable {s t : State} {mode : Byte} {cfg : BusCfg} {frame : List TpEvent} {resp : List Byte}
  (h : CleanRun s t (readyEvents s mode ++ (.acq cfg :: frame ++ [.stop, .rel])) resp)

include h

/-- A time-block transfer when Ready is one transaction (R197, R201). -/
theorem CleanRun.length_ready (hi : s.initState = .ready) :
    t.trace.length = s.trace.length + (frame.length + 3) := by
  simp [h.length_trace, readyEvents_ready hi]

/-- Otherwise the twelve events of the initialisation come before it (R182). -/
theorem CleanRun.length_uninitialized (hi : s.initState = .uninitialized) :
    t.trace.length = s.trace.length + (12 + (frame.length + 3)) := by
  simp [h.length_trace, readyEvents_uninitialized hi, initEvents_length]

end TimeBlock

/-- Reading the host clock leaves the environment a reference environment (R58, R215). -/
theorem ReferenceEnv.afterHostRead {s : State} (h : ReferenceEnv s) : ReferenceEnv s.afterHostRead :=
  ⟨h.mode, h.script⟩

/-- A run after the reading of the host clock is a run from before it: nothing that a clean run speaks of has
changed (R215). -/
theorem CleanRun.of_afterHostRead {s t : State} {events : List TpEvent} {resp : List Byte}
    (h : CleanRun s.afterHostRead t events resp) : CleanRun s t events resp :=
  ⟨⟨h.frame.idle, h.frame.cfg, h.frame.inbox, h.frame.envMode, h.frame.busHeld⟩, h.installed, h.trace, h.responses,
    h.env⟩

/-- The host clock is not among what a clean run speaks of (R39, R219). -/
theorem CleanRun.setHostEpoch {s t : State} {r : Result} {events : List TpEvent} {resp : List Byte}
    (h : CleanRun s (respond r t) events resp) (e : Int) : CleanRun s (respond r (t.setHostEpoch e)) events resp :=
  ⟨⟨respond_idle r _, h.frame.cfg, h.frame.inbox, h.frame.envMode, h.frame.busHeld⟩, h.installed, h.trace, h.responses,
    ⟨h.env.mode, h.env.script⟩⟩

/-- The response to the image of a valid time is that time with the integrity flag clear (R160, R165). -/
theorem timeResponse_imageOf {dm : DayMax} {ct : CalendarTime} (h : Valid dm ct) :
    timeResponse (imageOf ct) = 0x00 :: 0x00 :: calendarBytes ct := by
  obtain ⟨hct, hflag⟩ := decode_imageOf h
  rw [← decoded_response, decodedPayload, hct, hflag]
  rfl

/-- The response to the integrity flag of an image (R106, R219). -/
theorem flag_response (img : RegisterImage) :
    (Result.ok (.flag (integrityFlag img))).response = [0x00, if 128 ≤ img.second.toNat then 1 else 0] := by
  simp only [Result.response, Payload.aux, Payload.data, integrityFlag, testBit7, flagByte, decide_eq_true_eq]

/-! ## Phase by phase -/

section Phased

variable {d : List Byte} {s : State} (hs : ControllerIdle s)

include hs

/-- An accepted illegal descriptor goes from DECODE_CMD to RESPOND at once (R108, R191). -/
theorem accept_finishes_illegal (h : ¬ LegalDescriptor d) : Finishes 1 (accept d s) (.err .illegalCommand) s := by
  have htick : tick (accept d s) = .next (toRespond (.err .illegalCommand) (accept d s)) :=
    (tick_decodeCmd rfl).trans (tickDecode_illegal rfl h)
  rw [accept_eq d hs] at htick ⊢
  exact (finishes_now _ _ s).step htick

/-- An accepted legal descriptor finishes as its command does when run at once (R68). -/
theorem accept_finishes_legal {i : Instr} (h : decode d = .ok i) :
    Finishes 271 (accept d s) (resultOf (commandAct i s).1) (commandAct i s).2 := by
  have htick : tick (accept d s) = startCommand i { accept d s with cur := some i } :=
    (tick_decodeCmd rfl).trans (tickDecode_legal rfl h)
  obtain ⟨y, hstart, hfin⟩ := startCommand_ticks d i (decode_wellFormed h) s
  rw [accept_eq d hs] at htick ⊢
  exact hfin.step (htick.trans hstart)

end Phased

/-! ## The obligations -/

/-- Settles O52: a command is its piece, of which `commandAct_regs` says where it stores, and a response. -/
theorem storesOnlyWhereNamed : Obligations.StoresOnlyWhereNamed := by
  unfold Obligations.StoresOnlyWhereNamed
  exact fun i s hcfg => ⟨_, exec_eq i s, fun a ha => commandAct_regs i s hcfg a ha⟩

/-- Settles O57: a step within R9 keeps the form, and any other answers no next state. -/
theorem stepKeepsMemoryCanonical : Obligations.StepKeepsMemoryCanonical := by
  unfold Obligations.StepKeepsMemoryCanonical
  exact fun s t ht hs => (step_of_ok (ok_of_step_next ht)).wf ht hs

/-- Settles O23: what the transaction leaves, and under `OK` every byte was acknowledged. -/
theorem busWriteStoresPrefix : Obligations.BusWriteStoresPrefix := by
  unfold Obligations.BusWriteStoresPrefix
  intro s reg buf hb
  obtain ⟨hframe, -, evs, r, htrace, hrun, hval, hleaves⟩ := memWrite_leaves reg buf s
  obtain ⟨n, hn, hstored, hacked, hn'⟩ := hleaves hb.2.2
  refine ⟨_, evs, n, busWrite_eq hb, htrace, hn, hstored, hacked, hn', fun hresp => ?_⟩
  cases hm : (memWrite reg buf s).1 with
  | ok _ =>
    rw [hm] at hval
    cases r with
    | ok bs =>
      have hall : txAcked evs = buf.length + 1 := hrun.write_acked
      omega
    | error c => exact hval.elim
  | error c => simp [hm, hframe.responses, Result.response, CmdError.status] at hresp

/-- Settles O24: the transaction succeeds on the reference device. -/
theorem busWriteOnReferenceDevice : Obligations.BusWriteOnReferenceDevice := by
  unfold Obligations.BusWriteOnReferenceDevice
  intro s reg buf hs hb
  obtain ⟨t, ht, henv, hframe, hheld, hstored, hrel, -, hptr, htrace⟩ := refEnv_memWrite hs reg buf hb.2.2
  have hexec : exec (.busWrite reg buf) s = .next (respond (.ok .unit) t) := by rw [busWrite_eq hb, ht]
  have hclean : CleanRun s (respond (.ok .unit) t)
      (.acq s.cfg.busCfg :: writeEvents s.cfg.devAddr reg buf ++ [.stop, .rel]) [0x00, 0x00] :=
    (hframe.keeps hheld).clean henv hrel htrace rfl
  exact ⟨_, hexec, hclean, by rw [hclean.length_transaction, writeEvents_length], hstored, hptr, hframe.initState,
    hframe.hostEpoch⟩

/-- Settles O25: the transaction succeeds on the reference device with what the registers hold. -/
theorem busReadOnReferenceDevice : Obligations.BusReadOnReferenceDevice := by
  unfold Obligations.BusReadOnReferenceDevice
  intro s reg len hs hb
  obtain ⟨t, ht, henv, hframe, hheld, hregs, hrel, -, hptr, htrace⟩ := refEnv_memRead hs reg len.toNat hb.2.2
  have hexec : exec (.busRead reg len) s = .next (respond (.ok (.bytes (regsFrom s.dev reg len.toNat))) t) := by
    rw [busRead_eq hb, ht]
    rfl
  have hclean : CleanRun s (respond (.ok (.bytes (regsFrom s.dev reg len.toNat))) t)
      (.acq s.cfg.busCfg :: readEvents s.cfg.devAddr reg len.toNat ++ [.stop, .rel])
      (0x00 :: 0x00 :: regsFrom s.dev reg len.toNat) :=
    (hframe.keeps hheld).clean henv hrel htrace rfl
  exact ⟨_, hexec, hclean, by rw [hclean.length_transaction, readEvents_length], Device.regAt_congr hregs, hptr,
    hframe.initState, hframe.hostEpoch⟩

/-- Settles O33: everything the two configuration writes can do (`ensureInit_run`), and the response. -/
theorem ensureInitRuns : Obligations.EnsureInitRuns := by
  unfold Obligations.EnsureInitRuns
  intro mode s hinit
  obtain ⟨hkeeps, evs, r, htrace, hready, hresult⟩ := ensureInit_run mode s
  simp only [ReadyRun, hinit] at hready
  obtain ⟨hrun, hafter⟩ := hready
  refine ⟨_, evs, r, ensureInit_eq mode s, hkeeps.respond _, hkeeps.hostEpoch, htrace, hrun, hafter, ?_⟩
  rw [respond_responses, hkeeps.responses, hresult]
  cases r <;> rfl

/-- Settles O34: both configuration writes succeed on the reference device. -/
theorem ensureInitOnReferenceDevice : Obligations.EnsureInitOnReferenceDevice := by
  unfold Obligations.EnsureInitOnReferenceDevice
  intro mode s hs hcfg hinit
  obtain ⟨t, ht, henv, hkeeps, hready, hregs, hrel, htrace⟩ := refEnv_ensureInit hs mode
  rw [readyEvents_uninitialized hinit] at htrace
  simp only [initRegs_uninitialized hinit] at hregs
  have hexec : exec (.ensureInit mode) s = .next (respond (.ok .unit) t) := by
    rw [ensureInit_eq, ht]
    rfl
  have hclean : CleanRun s (respond (.ok .unit) t) (initEvents s.cfg mode) [0x00, 0x00] :=
    hkeeps.clean henv (hrel hinit) htrace rfl
  refine ⟨_, hexec, hclean, hclean.length_trace, hready, hkeeps.hostEpoch, ?control1, ?control2, fun a h1 h2 => ?other⟩
  case control1 => rw [respond_dev, hregs, if_neg (Config.ok_distinct hcfg), if_pos rfl]
  case control2 => rw [respond_dev, hregs, if_pos rfl]
  case other => rw [respond_dev, hregs, if_neg h2, if_neg h1]

/-- Settles O39: the image read on the reference device is that of the seven registers. -/
theorem getDateTimeOnReferenceDevice : Obligations.GetDateTimeOnReferenceDevice := by
  unfold Obligations.GetDateTimeOnReferenceDevice
  intro s hs hcfg
  obtain ⟨t, ht, henv, hkeeps, hready, hregs, hrel, htrace⟩ := refEnv_getImage hs hcfg
  have hexec := exec_of_ok (i := .getDateTime) (andThen_ok ht _)
  have hclean := hkeeps.clean henv hrel htrace (decoded_response (imageAt s.dev s.cfg.addrTimeBlock))
  refine ⟨_, hexec, hclean, ?length, hready, hkeeps.hostEpoch, hregs⟩
  cases hi : s.initState with
  | ready => rw [hclean.length_ready hi, readEvents_length]
  | uninitialized => rw [hclean.length_uninitialized hi, readEvents_length]

/-- Settles O41: everything SET_DATETIME of a valid time can do (`setDateTime_run`), and the response. -/
theorem setDateTimeRuns : Obligations.SetDateTimeRuns := by
  unfold Obligations.SetDateTimeRuns
  intro ct s hv
  obtain ⟨hkeeps, evs, q, htrace, hrun, hresult⟩ := setDateTime_run ct s hv
  rw [imageOf_digits hv] at hrun
  refine ⟨_, evs, q, exec_eq (.setDateTime ct) s, hkeeps.respond _, hkeeps.hostEpoch, htrace, hrun, ?_⟩
  rw [respond_responses, commandAct, hkeeps.responses, hresult]
  cases q <;> rfl

/-- Settles O42: the burst succeeds on the reference device, and the image is the decimal digits of the time. -/
theorem setDateTimeOnReferenceDevice : Obligations.SetDateTimeOnReferenceDevice := by
  unfold Obligations.SetDateTimeOnReferenceDevice
  intro ct s hs hcfg hv
  obtain ⟨t, ht, henv, hkeeps, hready, hregs, hrel, htrace⟩ := refEnv_setDateTime hs hcfg hv
  rw [imageOf_digits hv] at hregs htrace
  have hexec := exec_of_ok (i := .setDateTime ct) ht
  have hclean := hkeeps.clean (r := .ok .unit) (resp := [0x00, 0x00]) henv hrel htrace rfl
  refine ⟨_, hexec, hclean, ?length, hready, hkeeps.hostEpoch, hregs⟩
  cases hi : s.initState with
  | ready => rw [hclean.length_ready hi, writeEvents_length, digitImage_length]
  | uninitialized => rw [hclean.length_uninitialized hi, writeEvents_length, digitImage_length]

/-- Settles O43: the first command leaves the image of `t` in the time block of a reference device, where the
second reads it. -/
theorem setThenGetReturnsTime : Obligations.SetThenGetReturnsTime := by
  unfold Obligations.SetThenGetReturnsTime
  intro ct s hs hcfg hv
  obtain ⟨t, ht, hset, -, -, -, hregs⟩ := setDateTimeOnReferenceDevice ct s hs hcfg hv
  have hcfgt : t.cfg = s.cfg := hset.frame.cfg
  obtain ⟨u, hu, hget, -⟩ := getDateTimeOnReferenceDevice t hset.env (hcfgt ▸ hcfg)
  have himage : imageAt t.dev t.cfg.addrTimeBlock = imageOf ct := by
    rw [hcfgt]
    exact timeBlock_readback hcfg (by rw [imageOf_digits hv]; exact hregs)
  refine ⟨t, u, ht, hu, ?_⟩
  rw [hget.responses, hset.responses, himage, timeResponse_imageOf hv, List.append_assoc]
  rfl

/-- Settles O45: the image read on the reference device sets the host clock and gives the flag. -/
theorem syncDevToHostOnReferenceDevice : Obligations.SyncDevToHostOnReferenceDevice := by
  unfold Obligations.SyncDevToHostOnReferenceDevice
  intro s hs hcfg
  obtain ⟨t, ht, henv, hkeeps, hready, hregs, hrel, htrace⟩ := refEnv_getImage hs hcfg
  have hexec := exec_of_ok (i := .syncDevToHost) (andThen_ok ht _)
  have hclean := hkeeps.clean henv hrel htrace (flag_response (imageAt s.dev s.cfg.addrTimeBlock))
  have hepoch : civilToEpoch t.cfg (decodeImage (imageAt s.dev s.cfg.addrTimeBlock)) =
      civilToEpoch s.cfg (timeValue (imageAt s.dev s.cfg.addrTimeBlock)) := by
    rw [hkeeps.cfg, decodeImage_eq]
  exact ⟨_, hexec, hclean.setHostEpoch _, hready, hepoch, hregs⟩

/-- Settles O47: it is SET_DATETIME of the host's breakdown, after the reading of the host clock. -/
theorem syncHostToDevOnReferenceDevice : Obligations.SyncHostToDevOnReferenceDevice := by
  unfold Obligations.SyncHostToDevOnReferenceDevice
  intro s hs hcfg hv
  obtain ⟨t, ht, hclean, -, hready, hepoch, hregs⟩ :=
    setDateTimeOnReferenceDevice (hostUtc s) s.afterHostRead hs.afterHostRead hcfg hv
  exact ⟨t, ht, hclean.of_afterHostRead, hready, hepoch, hregs⟩

/-- Settles O54: the descriptor finishes in RESPOND with the result of its run as one step, and the response
ends both runs in the same state. -/
theorem phasedRunIsAtomicRun : Obligations.PhasedRunIsAtomicRun := by
  unfold Obligations.PhasedRunIsAtomicRun
  intro bs s hs
  by_cases hlegal : LegalDescriptor bs
  · obtain ⟨i, hi⟩ := decode_of_legal hlegal
    obtain ⟨n, hn, hticks⟩ := (accept_finishes_legal hs hi).responds
    exact ⟨n, by omega, by rw [hticks, runDescriptor_ok hi, exec_eq]⟩
  · obtain ⟨n, hn, hticks⟩ := (accept_finishes_illegal hs hlegal).responds
    exact ⟨n, by omega, by rw [hticks, runDescriptor_illegal hlegal]; rfl⟩

end Sys2Proof.Machine
end

section
/-! PROOFS. Descriptors and responses: the decoder and the encoder agree both ways, the illegal descriptors are the
refused ones, a placed table word runs the command it decodes to, and every response lies in the matrix of R232. -/

namespace Sys2Proof.Machine

/-! ## What decodes -/

/-- A descriptor decodes exactly when it is the code of an opcode and operands that decode under it (R100, R101). -/
theorem decode_eq_ok_iff {bs : List Byte} {i : Instr} :
    decode bs = .ok i ↔ ∃ o operands, bs = o.code :: operands ∧ decodeOperands o operands = .ok i := by
  constructor
  · intro h
    cases bs with
    | nil => cases h
    | cons op operands =>
      simp only [decode] at h
      cases ho : opcodeOf op with
      | none => simp [ho] at h
      | some o => exact ⟨o, operands, by rw [opcodeOf_some ho], by simpa [ho] using h⟩
  · rintro ⟨o, operands, rfl, h⟩
    simpa only [decode, opcodeOf_code] using h

/-- A table word stands for the command its descriptor decodes to. -/
theorem decode_tableDescriptor {nbits w : Nat} {i : Instr} (h : decodeTableWord nbits w = some i) :
    decode (tableDescriptor nbits w) = .ok i := by
  unfold decodeTableWord at h
  cases hd : decode (tableDescriptor nbits w) with
  | error e => simp [hd] at h
  | ok j => simpa [hd] using h

/-! ## How a piece of a command can end -/

/-- In every state, so whatever the environment answers, `m` ends with an error of `E` or a value of `P`. -/
def Ends {ε α : Type} (E : ε → Prop) (P : α → Prop) (m : Act ε α) : Prop := ∀ s : State,
  match (m s).1 with
  | .error e => E e
  | .ok a => P a

/-- No condition on the value. -/
abbrev AnyValue {α : Type} (_ : α) : Prop := True

theorem pure_ends {ε α : Type} {E : ε → Prop} {P : α → Prop} {a : α} (h : P a) :
    Ends E P fun s => (.ok a, s) := fun _ => h

theorem andThen_ends {ε α β : Type} {E : ε → Prop} {P : β → Prop} {m : Act ε α} {k : α → Act ε β}
    (hm : Ends E AnyValue m) (hk : ∀ a, Ends E P (k a)) : Ends E P (andThen m k) := by
  intro s
  have hms := hm s
  rcases hx : m s with ⟨r, t⟩
  rw [hx] at hms
  cases r with
  | error e =>
    rw [andThen_error hx]
    exact hms
  | ok a =>
    rw [andThen_ok hx]
    exact hk a t

section Pieces

variable {E : CmdError → Prop} {P : Payload → Prop}

theorem asBusError_ends {α : Type} (hbus : ∀ c, E (.busError c)) (m : Act Cause α) :
    Ends E AnyValue (asBusError m) := by
  intro s
  rw [asBusError_fst]
  cases (m s).1 with
  | error c => exact hbus c
  | ok a => trivial

theorem asInitError_ends {α : Type} (hinit : ∀ c, E (.initError c)) (m : Act Cause α) :
    Ends E AnyValue (asInitError m) := by
  intro s
  simp only [asInitError]
  rcases m s with ⟨r, t⟩
  cases r with
  | error c => exact hinit c
  | ok a => trivial

/-- ENSURE_INIT fails with `InitError` only (R182). -/
theorem ensureInit_ends (hinit : ∀ c, E (.initError c)) (mode : Byte) : Ends E AnyValue (ensureInit mode) := by
  intro s
  have hwrites : Ends E AnyValue (initialise mode) :=
    andThen_ends (asInitError_ends hinit _) fun _ => andThen_ends (asInitError_ends hinit _) fun _ _ => trivial
  simp only [ensureInit]
  cases s.initState with
  | ready => trivial
  | uninitialized => exact hwrites s

theorem ensureReady_ends (hinit : ∀ c, E (.initError c)) : Ends E AnyValue ensureReady :=
  fun s => ensureInit_ends hinit s.cfg.initModeDefault s

/-- Reading the time block fails in its initialisation or in its transaction (R196). -/
theorem getImage_ends (hbus : ∀ c, E (.busError c)) (hinit : ∀ c, E (.initError c)) : Ends E AnyValue getImage :=
  andThen_ends (ensureReady_ends hinit) fun _ s =>
    andThen_ends (asBusError_ends hbus (memRead s.cfg.addrTimeBlock timeBlockLen)) (fun _ => pure_ends trivial) s

/-- Encoding fails with `InvalidDateTime` only (R153). -/
theorem encodeAct_ends (hinvalid : E .invalidDateTime) (ct : CalendarTime) : Ends E AnyValue (encodeAct ct) := by
  intro s
  simp only [encodeAct, encodeCalendar]
  by_cases hv : Valid s.cfg.dayMax ct
  · rw [if_pos hv]
    trivial
  · rw [if_neg hv]
    exact hinvalid

/-- SET_DATETIME fails in its validation, its initialisation or its transaction, and else carries nothing (R200). -/
theorem setDateTime_ends (hbus : ∀ c, E (.busError c)) (hinit : ∀ c, E (.initError c)) (hinvalid : E .invalidDateTime)
    (hunit : P .unit) (ct : CalendarTime) : Ends E P (setDateTime ct) :=
  andThen_ends (encodeAct_ends hinvalid ct) fun img => andThen_ends (ensureReady_ends hinit) fun _ =>
    andThen_ends (fun s => asBusError_ends hbus (memWrite s.cfg.addrTimeBlock (imageBytes img)) s) fun _ =>
      pure_ends hunit

/-- BUS_WRITE within the bounds of R55 fails in its transaction only (R130). -/
theorem busWrite_ends (hbus : ∀ c, E (.busError c)) (hunit : P .unit) {reg : Byte} {buf : List Byte}
    (h : InBounds reg buf.length) : Ends E P (busWrite reg buf) := by
  intro s
  simp only [busWrite, if_pos h]
  exact andThen_ends (asBusError_ends hbus _) (fun _ => pure_ends hunit) s

/-- BUS_READ within the bounds of R55 fails in its transaction only, and else carries `len` bytes (R131). -/
theorem busRead_ends {reg len : Byte} (hbus : ∀ c, E (.busError c))
    (hbytes : ∀ bs : Received len.toNat, P (.bytes bs.1)) (h : InBounds reg len.toNat) : Ends E P (busRead reg len) := by
  intro s
  simp only [busRead, if_pos h]
  exact andThen_ends (asBusError_ends hbus _) (fun bs => pure_ends (hbytes bs)) s

end Pieces

/-! ## The matrix of R232 -/

/-- An error that the matrix allows the command. -/
def AllowedError (i : Instr) (e : CmdError) : Prop := AllowedResult i e.status e.aux

/-- A payload with an `aux` that the matrix allows the command, of the length of R107. -/
def AllowedPayload (i : Instr) (p : Payload) : Prop :=
  AllowedResult i 0x00 p.aux ∧ p.data.length = payloadLength i

theorem flagByte_cases (f : Bool) : flagByte f = 0x00 ∨ flagByte f = 0x01 := by cases f <;> simp [flagByte]

/-- No error has the status of `OK` (R105). -/
theorem CmdError.status_ne_ok (e : CmdError) : e.status ≠ 0x00 := by
  cases e <;> simp [CmdError.status]

/-- Every well-formed command ends with an error or a payload that the matrix allows it. -/
theorem commandAct_ends {i : Instr} (h : i.WellFormed) : Ends (AllowedError i) (AllowedPayload i) (commandAct i) := by
  cases i with
  | ensureInit mode =>
    exact andThen_ends (ensureInit_ends (fun c => .inr ⟨rfl, code_cases c⟩) mode) fun _ =>
      pure_ends ⟨.inl ⟨rfl, rfl⟩, rfl⟩
  | getDateTime =>
    exact andThen_ends
      (getImage_ends (fun c => .inr (.inl ⟨rfl, code_cases c⟩)) fun c => .inr (.inr ⟨rfl, code_cases c⟩)) fun _ =>
      pure_ends ⟨.inl ⟨rfl, flagByte_cases _⟩, rfl⟩
  | setDateTime ct =>
    exact setDateTime_ends (fun c => .inr (.inl ⟨rfl, code_cases c⟩))
      (fun c => .inr (.inr (.inr ⟨rfl, code_cases c⟩))) (.inr (.inr (.inl ⟨rfl, rfl⟩))) ⟨.inl ⟨rfl, rfl⟩, rfl⟩ ct
  | syncDevToHost =>
    exact andThen_ends
      (getImage_ends (fun c => .inr (.inl ⟨rfl, code_cases c⟩)) fun c => .inr (.inr ⟨rfl, code_cases c⟩)) fun _ _ =>
      ⟨.inl ⟨rfl, flagByte_cases _⟩, rfl⟩
  | syncHostToDev =>
    exact fun s => setDateTime_ends (fun c => .inr (.inl ⟨rfl, code_cases c⟩))
      (fun c => .inr (.inr (.inr ⟨rfl, code_cases c⟩))) (.inr (.inr (.inl ⟨rfl, rfl⟩))) ⟨.inl ⟨rfl, rfl⟩, rfl⟩
      (hostUtc s) s.afterHostRead
  | busWrite reg buf => exact busWrite_ends (fun c => .inr ⟨rfl, code_cases c⟩) ⟨.inl ⟨rfl, rfl⟩, rfl⟩ h
  | busRead reg len => exact busRead_ends (fun c => .inr ⟨rfl, code_cases c⟩) (fun bs => ⟨.inl ⟨rfl, rfl⟩, bs.2⟩) h
  | encodeTime ct =>
    exact andThen_ends (encodeAct_ends (.inr ⟨rfl, rfl⟩) ct) fun _ => pure_ends ⟨.inl ⟨rfl, rfl⟩, rfl⟩
  | decodeTime img => exact pure_ends ⟨⟨rfl, flagByte_cases _⟩, rfl⟩

/-! ## The obligations -/

/-- Settles O2: the code names the opcode, and the operands of a well-formed command decode to it. -/
theorem decodeOfEncode : Obligations.DecodeOfEncode := by
  unfold Obligations.DecodeOfEncode
  exact fun i hi => decode_eq_ok_iff.2 ⟨i.opcode, i.operandBytes, rfl, decodeOperands_operandBytes hi⟩

/-- Settles O3: the opcode and the operands that a descriptor is made of are those of its command. -/
theorem encodeOfDecode : Obligations.EncodeOfDecode := by
  unfold Obligations.EncodeOfDecode
  intro bs i h
  obtain ⟨o, operands, rfl, hoperands⟩ := decode_eq_ok_iff.1 h
  obtain ⟨rfl, rfl, hwf⟩ := decodeOperands_sound hoperands
  exact ⟨rfl, hwf⟩

/-- Settles O4: what is legal decodes, and what is not is answered `FF 00`. -/
theorem illegalDescriptorRefused : Obligations.IllegalDescriptorRefused := by
  unfold Obligations.IllegalDescriptorRefused
  exact fun bs s => ⟨decode_of_legal, fun h => runDescriptor_illegal h s⟩

/-- Settles O51: a command is its piece, which ends within the matrix, and the response to it. -/
theorem responsesWithinMatrix : Obligations.ResponsesWithinMatrix := by
  unfold Obligations.ResponsesWithinMatrix
  intro i s hi
  have hends := commandAct_ends hi s
  have hresp := (commandAct_frame i s (resultOf (commandAct i s).1)).2
  cases hr : (commandAct i s).1 with
  | error e =>
    rw [hr] at hends hresp
    exact ⟨_, e.status, e.aux, [], hr ▸ exec_eq i s, hresp, hends, by rw [if_neg e.status_ne_ok]; rfl⟩
  | ok p =>
    rw [hr] at hends hresp
    obtain ⟨hallowed, hlength⟩ := hends
    exact ⟨_, 0x00, p.aux, p.data, hr ▸ exec_eq i s, hresp, hallowed, by rw [if_pos rfl, hlength]⟩

/-- Settles O1: the decoder run on the nine descriptors. -/
theorem decodesSpecWords : Obligations.DecodesSpecWords := by
  unfold Obligations.DecodesSpecWords
  exact ⟨rfl, rfl, rfl, rfl, rfl, rfl, rfl, rfl, rfl⟩

/-- Settles O6: the placed word is the next descriptor presented to an idle controller. -/
theorem placedWordRunsNext : Obligations.PlacedWordRunsNext := by
  unfold Obligations.PlacedWordRunsNext
  intro s nbits w i hok hi
  have hstep : step (s.withFetchWord nbits w) = runDescriptor (tableDescriptor nbits w) { s with phase := .idle } :=
    step_command_idle (s := s.withFetchWord nbits w) hok rfl rfl
  rw [hstep, runDescriptor_ok (decode_tableDescriptor hi)]

/-- Settles O30: the codes as the model defines them. -/
theorem statusAndCauseCodes : Obligations.StatusAndCauseCodes := by
  unfold Obligations.StatusAndCauseCodes
  exact ⟨rfl, fun c => ⟨rfl, rfl⟩, rfl, rfl⟩

end Sys2Proof.Machine
end

section
/-! PROOFS. Transactions on the bus: what BUS_WRITE and BUS_READ do in every environment, and what holds of the
events of every command: the transport is released as it was acquired, every begin addresses the parameter, and
every answer is of its event's result type. -/

namespace Sys2Proof.Machine

/-! ## The end of a transaction -/

/-- A transaction ends with a value and the bytes that stand to it, or with one cause for both. -/
theorem TxnValue.split {α : Type} {val : α → List Byte → Prop} {x : Except Cause α} {r : Except Cause (List Byte)}
    (h : TxnValue val x r) :
    (∃ a bs, x = .ok a ∧ r = .ok bs ∧ val a bs) ∨ (∃ c, x = .error c ∧ r = .error c) := by
  cases x with
  | ok a =>
    cases r with
    | ok bs => exact .inl ⟨a, bs, rfl, rfl, h⟩
    | error c => exact h.elim
  | error c =>
    cases r with
    | ok bs => exact h.elim
    | error d => exact .inr ⟨c, rfl, congrArg Except.error (Eq.symm h)⟩

/-! ## The receptions of a read (R133) -/

/-- The receptions of the read frame are its last `len` events. -/
theorem readEvents_receptions (a : Addr7) (reg : Byte) (len : Nat) :
    ((readEvents a reg len).filter fun e => decide (∃ ack, e = .rx ack)) = rxEvents len := by
  have hrx : (rxEvents len).filter (fun e => decide (∃ ack, e = .rx ack)) = rxEvents len := by
    refine List.filter_eq_self.2 fun e he => ?_
    obtain ⟨i, -, rfl⟩ := List.mem_map.1 he
    exact decide_eq_true ⟨_, rfl⟩
  have hhead : readEvents a reg len = [.start a .write, .tx reg, .start a .read] ++ rxEvents len := rfl
  rw [hhead, List.filter_append, hrx]
  simp

/-- Of `n` receptions each but the last is acknowledged. -/
theorem rxEvents_getElem?_rx {n i : Nat} {ack : Bool} (h : (rxEvents n)[i]? = some (.rx ack)) :
    i < n ∧ (ack = true ↔ i + 1 ≠ n) := by
  obtain ⟨hi, hget⟩ := List.getElem?_eq_some_iff.1 h
  have hn : i < n := by simpa [rxEvents] using hi
  have hack : decide (i + 1 ≠ n) = ack := by simpa [rxEvents] using hget
  exact ⟨hn, by rw [← hack, decide_eq_true_iff]⟩

/-! ## Result types (R121) -/

theorem mayFail_acq {c : BusCfg} {f : TpFailure} : TpEvent.mayFail (.acq c) f = true ↔ f = .fault := by
  cases f <;> simp [TpEvent.mayFail]

theorem mayFail_rx {ack : Bool} {f : TpFailure} :
    TpEvent.mayFail (.rx ack) f = true ↔ f = .timeout ∨ f = .arbLost ∨ f = .fault := by
  cases f <;> simp [TpEvent.mayFail]

theorem mayFail_stop {f : TpFailure} : TpEvent.mayFail .stop f = true ↔ f = .timeout ∨ f = .fault := by
  cases f <;> simp [TpEvent.mayFail]

theorem mayFail_rel {f : TpFailure} : TpEvent.mayFail .rel f = true ↔ f = .fault := by
  cases f <;> simp [TpEvent.mayFail]

/-- The answer is of the event's result type: `Ok(byte)` for a reception, `Ok` for every other event, or a failure
that the event may answer. -/
def BusEvent.InResultType (e : BusEvent) : Prop :=
  match e.result with
  | .ok => ∀ ack, e.event ≠ .rx ack
  | .okByte _ => ∃ ack, e.event = .rx ack
  | .fail f => e.event.mayFail f = true

/-- Whatever is drawn, an event is answered within its result type. -/
theorem answerTo_inResultType (e : TpEvent) (s : State) : BusEvent.InResultType ⟨e, answerTo e s⟩ := by
  simp only [BusEvent.InResultType, answerTo]
  rcases answer_ok_form s.cfg s.dev e s.env.draw with ⟨f, h⟩ | ⟨ack, b, he, h⟩ | ⟨he, h⟩
  · rw [h]
    exact answer_mayFail h
  · rw [h]
    exact ⟨ack, he⟩
  · rw [h]
    exact he

/-- An event that is no reception is answered `Ok` or with a failure that it may answer. -/
theorem BusEvent.InResultType.plain {e : TpEvent} {r : TpResult} (h : BusEvent.InResultType ⟨e, r⟩)
    (he : ∀ ack, e ≠ .rx ack) : r = .ok ∨ ∃ f, r = .fail f ∧ e.mayFail f = true := by
  cases r with
  | ok => exact .inl rfl
  | okByte b =>
    obtain ⟨ack, hrx⟩ := h
    exact absurd hrx (he ack)
  | fail f => exact .inr ⟨f, rfl, h⟩

/-- A reception is answered with a byte or with a failure that it may answer. -/
theorem BusEvent.InResultType.reception {ack : Bool} {r : TpResult} (h : BusEvent.InResultType ⟨.rx ack, r⟩) :
    (∃ b, r = .okByte b) ∨ ∃ f, r = .fail f ∧ TpEvent.mayFail (.rx ack) f = true := by
  cases r with
  | ok => exact absurd rfl (h ack)
  | okByte b => exact .inl ⟨b, rfl⟩
  | fail f => exact .inr ⟨f, rfl, h⟩

/-! ## The obligations -/

/-- Settles O27: a command is its piece, whose trace releases what it acquires, and a response. -/
theorem releasesWhatItAcquires : Obligations.ReleasesWhatItAcquires := by
  unfold Obligations.ReleasesWhatItAcquires
  intro i s hfree
  obtain ⟨evs, htrace, hheld⟩ := commandAct_held i s
  exact ⟨_, evs, exec_eq i s, htrace, hheld, (commandAct_quiet i s).1 hfree⟩

/-- Settles O21: everything a write transaction can do (`memWrite_run`), and the response to it. -/
theorem busWriteRuns : Obligations.BusWriteRuns := by
  unfold Obligations.BusWriteRuns
  intro s reg buf hb
  obtain ⟨hframe, hheld, evs, r, htrace, hrun, hval⟩ := memWrite_run reg buf s
  refine ⟨_, evs, r, busWrite_eq hb, (hframe.keeps hheld).respond _, hframe.initState, hframe.hostEpoch, htrace,
    hrun, ?_⟩
  rw [respond_responses, hframe.responses]
  rcases hval.split with ⟨_, bs, hm, rfl, -⟩ | ⟨c, hm, rfl⟩
  · rw [hm]
    rfl
  · rw [hm]
    rfl

/-- Settles O22: everything a read transaction can do (`memRead_run`), and the response to it. -/
theorem busReadRuns : Obligations.BusReadRuns := by
  unfold Obligations.BusReadRuns
  intro s reg len hb
  obtain ⟨hframe, hheld, evs, r, htrace, hrun, hval⟩ := memRead_run reg len.toNat s
  refine ⟨_, evs, r, busRead_eq hb, (hframe.keeps hheld).respond _, hframe.initState, hframe.hostEpoch, htrace,
    hrun, ?_⟩
  rw [respond_responses, hframe.responses]
  rcases hval.split with ⟨bs, _, hm, rfl, rfl⟩ | ⟨c, hm, rfl⟩
  · rw [hm]
    exact ⟨fun _ h => Except.ok.inj h ▸ bs.2, rfl⟩
  · rw [hm]
    exact ⟨nofun, rfl⟩

/-- Settles O26: the receptions of a run are the first ones of its frame. -/
theorem readAcknowledgesAllButLast : Obligations.ReadAcknowledgesAllButLast := by
  unfold Obligations.ReadAcknowledgesAllButLast
  intro s reg len hb
  obtain ⟨-, -, evs, r, htrace, hrun, -⟩ := memRead_run reg len.toNat s
  refine ⟨_, evs, busRead_eq hb, htrace, fun i ack h => rxEvents_getElem?_rx ?_⟩
  have hprefix := hrun.receptions
  rw [readEvents_receptions] at hprefix
  obtain ⟨hi, hget⟩ := List.getElem?_eq_some_iff.1 h
  rw [List.IsPrefix.getElem hprefix hi] at hget
  exact List.getElem?_eq_some_iff.2 ⟨_, hget⟩

/-- Settles O28: a command is elementary actions, of which the begins take their address from the parameters. -/
theorem startAddressIsParameter : Obligations.StartAddressIsParameter := by
  unfold Obligations.StartAddressIsParameter
  intro i s
  obtain ⟨evs, htrace, hall⟩ := (commandAct_reaches i s).events
    (fun e => ∀ a dir, e.event = .start a dir → a = s.cfg.devAddr) fun _ _ _ haddr => haddr
  exact ⟨_, evs, exec_eq i s, htrace, hall⟩

/-- Settles O29: a command is elementary actions, of which every event is answered within its result type. -/
theorem answersWithinResultTypes : Obligations.AnswersWithinResultTypes := by
  unfold Obligations.AnswersWithinResultTypes
  intro i s
  obtain ⟨evs, htrace, hall⟩ := (commandAct_reaches i s).events BusEvent.InResultType
    fun e u _ _ => answerTo_inResultType e u
  refine ⟨_, evs, exec_eq i s, htrace, ?_⟩
  rintro ⟨e, r⟩ he
  have htype := hall _ he
  cases e with
  | acq c => simpa [mayFail_acq] using htype.plain (by simp)
  | start a dir => exact (htype.plain (by simp)).imp_right fun ⟨f, hf, _⟩ => ⟨f, hf⟩
  | tx b => exact (htype.plain (by simp)).imp_right fun ⟨f, hf, _⟩ => ⟨f, hf⟩
  | rx ack => simpa [mayFail_rx, or_and_right, and_or_left, exists_or] using htype.reception
  | stop => simpa [mayFail_stop, and_or_left, exists_or] using htype.plain (by simp)
  | rel => simpa [mayFail_rel] using htype.plain (by simp)

end Sys2Proof.Machine
end

section
/-! PROOFS. The BCD time codec: ENCODE and DECODE agree as far as R165 says, what each answers, which bits ENCODE
fixes and DECODE ignores, and that SET_DATETIME of a time ENCODE refuses does nothing. -/

namespace Sys2Proof.Machine

/-! ## ENCODE -/

theorem encodeCalendar_valid {dm : DayMax} {ct : CalendarTime} (h : Valid dm ct) :
    encodeCalendar dm ct = .ok (imageOf ct) := if_pos h

theorem encodeCalendar_invalid {dm : DayMax} {ct : CalendarTime} (h : ¬ Valid dm ct) :
    encodeCalendar dm ct = .error .invalidDateTime := if_neg h

/-- A command whose piece fails in the state it began in only answers its error (R242). -/
theorem exec_of_error {i : Instr} {s : State} {e : CmdError} (h : commandAct i s = (.error e, s)) :
    exec i s = .next (delivered s (errorResponse e)) := by
  rw [exec_eq, h]
  rfl

theorem encodeTime_valid {ct : CalendarTime} {s : State} (h : Valid s.cfg.dayMax ct) :
    commandAct (.encodeTime ct) s = (.ok (.image (imageOf ct)), s) := by
  simp only [commandAct, andThen, encodeAct, encodeCalendar_valid h]

theorem encodeTime_invalid {ct : CalendarTime} {s : State} (h : ¬ Valid s.cfg.dayMax ct) :
    commandAct (.encodeTime ct) s = (.error .invalidDateTime, s) := by
  simp only [commandAct, andThen, encodeAct, encodeCalendar_invalid h]

/-- What ENCODE gives decodes to the time it was given (R165). -/
theorem decodeImage_of_encode {dm : DayMax} {ct : CalendarTime} {img : RegisterImage}
    (h : encodeCalendar dm ct = .ok img) : decodeImage img = ct := by
  obtain ⟨hv, rfl⟩ := encode_ok h
  exact (decode_imageOf hv).1

/-- What ENCODE gives is canonical (R154, R155). -/
theorem canonical_of_encode {dm : DayMax} {ct : CalendarTime} {img : RegisterImage}
    (h : encodeCalendar dm ct = .ok img) : CanonicalImage dm img := by
  obtain ⟨hv, rfl⟩ := encode_ok h
  exact canonical_imageOf hv

/-- A canonical image is what ENCODE gives for its time (R165). -/
theorem encode_decodeImage {dm : DayMax} {img : RegisterImage} (h : CanonicalImage dm img) :
    encodeCalendar dm (decodeImage img) = .ok img := by
  rw [decodeImage_eq, encodeCalendar_valid h.1, imageOf_time h]

/-! ## The bits and nibbles of an image -/

/-- A mask clears every bit that it leaves out. -/
theorem getLsbD_and_mask (b : Byte) {m : Byte} {i : Nat} (h : m.getLsbD i = false) : (b &&& m).getLsbD i = false := by
  rw [BitVec.getLsbD_and, h, Bool.and_false]

theorem centuryBit_unused (f : Bool) : (centuryBit f).getLsbD 6 = false ∧ (centuryBit f).getLsbD 5 = false := by
  cases f <;> decide

theorem centuryBit_bit7 (f : Bool) : (centuryBit f).getLsbD 7 = f := by cases f <;> decide

/-- Neither the masked digits nor the century bit reach bits 6 and 5 of the month (R154). -/
theorem imageOf_month_unused (ct : CalendarTime) :
    (imageOf ct).month.getLsbD 6 = false ∧ (imageOf ct).month.getLsbD 5 = false := by
  obtain ⟨h6, h5⟩ := centuryBit_unused (centuryOfYear ct.year)
  simp only [imageOf, BitVec.getLsbD_or, h6, h5, Bool.or_false]
  exact ⟨getLsbD_and_mask _ rfl, getLsbD_and_mask _ rfl⟩

/-- Only the century bit reaches bit 7 of the month: the mask clears the digits' (R90). -/
theorem imageOf_month_bit7 (ct : CalendarTime) : (imageOf ct).month.getLsbD 7 = true ↔ 2000 ≤ ct.year := by
  simp only [imageOf, BitVec.getLsbD_or, centuryBit_bit7]
  rw [getLsbD_and_mask _ rfl, Bool.false_or]
  exact decide_eq_true_iff

/-- `bcd8` keeps the order of two-digit numbers, so up to `n` it lies inside every mask of ones that `bcd8 n` lies
inside, which then changes nothing (R155). -/
theorem bcd8_inside_mask {v n : Nat} {m : Byte} (k : Nat) (hm : m.toNat = 2 ^ k - 1) (hv : v ≤ n) (hn : n < 100)
    (hfits : (bcd8 n).toNat < 2 ^ k) : (bcd8 v).toNat ≤ (bcd8 n).toNat ∧ bcd8 v &&& m = bcd8 v := by
  have hle : (bcd8 v).toNat ≤ (bcd8 n).toNat := by
    rw [bcd8_toNat (by omega), bcd8_toNat hn]
    omega
  exact ⟨hle, and_low_of_lt _ k hm (by omega)⟩

/-- Every nibble of a canonical image is a decimal digit; the century bit makes the month's high one 8 or 9. -/
theorem CanonicalImage.decimal {dm : DayMax} {img : RegisterImage} (h : CanonicalImage dm img) :
    ∀ b ∈ imageBytes img, b.toNat % 16 ≤ 9 ∧ b.toNat / 16 ≤ 9 := by
  obtain ⟨-, ⟨hs, hm, hh, hd, hmo, hy, hy'⟩, hs', hm', hh', hd', hw', hmo'⟩ := h
  have := img.month.isLt
  simp only [imageBytes, List.forall_mem_cons, List.not_mem_nil, false_imp_iff, implies_true, and_true]
  refine ⟨⟨hs, ?_⟩, ⟨hm, ?_⟩, ⟨hh, ?_⟩, ⟨hd, ?_⟩, ⟨?_, ?_⟩, ⟨hmo, ?_⟩, hy, hy'⟩ <;> omega

/-! ## DECODE -/

theorem decodeTime_eq (img : RegisterImage) (s : State) :
    exec (.decodeTime img) s = .next (respond (.ok (decodedPayload img)) s) :=
  exec_of_ok (i := .decodeTime img) rfl

theorem fieldValue_lt (b : Byte) {tens : Nat} (h : 0 < tens) : fieldValue b tens < 10 * tens + 6 := by
  have := Nat.mod_lt (b.toNat / 16) h
  rw [fieldValue]
  omega

/-- `unbcd` sees no bit outside a mask that keeps the units digit and the tens digit's own bits (R89). -/
theorem unbcd_and (b : Byte) {m tm : Byte} (htens : m >>> 4 &&& tm = tm) (hunits : m &&& 0x0F = 0x0F) :
    unbcd (b &&& m) tm = unbcd b tm := by
  simp only [unbcd, BitVec.ushiftRight_and_distrib, BitVec.and_assoc, htens, hunits]

/-- The image with the bits that DECODE ignores cleared (R162). -/
def usedBits (img : RegisterImage) : RegisterImage where
  second := img.second
  minute := img.minute &&& 0x7F
  hour := img.hour &&& 0x3F
  day := img.day &&& 0x3F
  weekday := img.weekday &&& 0x07
  month := img.month &&& 0x9F
  year := img.year

theorem centuryFlag_usedBits (img : RegisterImage) : centuryFlag (usedBits img) = centuryFlag img := by
  rw [centuryFlag, usedBits, BitVec.getLsbD_and]
  exact Bool.and_true _

/-- DECODE sees the used bits only (R162). -/
theorem decodedPayload_usedBits (img : RegisterImage) : decodedPayload (usedBits img) = decodedPayload img := by
  have htime : decodeImage (usedBits img) = decodeImage img := by
    simp only [decodeImage, centuryFlag_usedBits]
    simp only [usedBits, BitVec.and_assoc, BitVec.and_self, unbcd_and (m := 0x7F) (tm := 0x7) _ rfl rfl,
      unbcd_and (m := 0x3F) (tm := 0x3) _ rfl rfl, unbcd_and (m := 0x9F) (tm := 0x1) _ rfl rfl]
  rw [decodedPayload, htime]
  rfl

/-! ## The obligations -/

/-- Settles O15: `decode_imageOf` one way; the other way, what ENCODE gives is canonical, and a canonical image is
that of its time. -/
theorem codecRoundTrip : Obligations.CodecRoundTrip := by
  unfold Obligations.CodecRoundTrip
  exact ⟨fun _ _ hv => ⟨encodeCalendar_valid hv, decode_imageOf hv⟩,
    fun _ _ => ⟨canonical_of_encode, encode_decodeImage⟩, fun _ _ _ => canonical_of_encode⟩

/-- Settles O13: the image of a valid time is its digits, and an invalid one ends the command with its error. -/
theorem encodeResult : Obligations.EncodeResult := by
  unfold Obligations.EncodeResult
  refine fun ct s => ⟨fun hv => ?_, fun hv => exec_of_error (encodeTime_invalid hv)⟩
  rw [← imageOf_digits hv]
  exact exec_of_ok (encodeTime_valid hv)

/-- Settles O14: the response that carries the decoded image (`decoded_response`). -/
theorem decodeResult : Obligations.DecodeResult := by
  unfold Obligations.DecodeResult
  intro img s
  rw [decodeTime_eq, respond_eq_delivered, decoded_response]

/-- Settles O16: both times are the one that the image decodes to. -/
theorem encodeInjective : Obligations.EncodeInjective := by
  unfold Obligations.EncodeInjective
  exact fun _ _ _ _ h h' => (decodeImage_of_encode h).symm.trans (decodeImage_of_encode h')

/-- Settles O17: the two images have the same used bits; the example is evaluated. -/
theorem decodeIgnoresUnusedBits : Obligations.DecodeIgnoresUnusedBits := by
  unfold Obligations.DecodeIgnoresUnusedBits
  refine fun s => ⟨fun img img' hs hm hh hd hw hmo hy => ?_, rfl, rfl⟩
  have hused : usedBits img' = usedBits img := by simp only [usedBits, hs, hm, hh, hd, hw, hmo, hy]
  have hpayload : decodedPayload img' = decodedPayload img := by
    rw [← decodedPayload_usedBits, hused, decodedPayload_usedBits]
  rw [decodeTime_eq, decodeTime_eq, hpayload]

/-- Settles O18: a field with `tens` tens digits is at most `10 * tens + 5`; the ends are evaluated. -/
theorem decodeRanges : Obligations.DecodeRanges := by
  unfold Obligations.DecodeRanges
  refine ⟨fun img => ?_, rfl, rfl⟩
  have hs := fieldValue_lt img.second (tens := 8) (by decide)
  have hm := fieldValue_lt img.minute (tens := 8) (by decide)
  have hh := fieldValue_lt img.hour (tens := 4) (by decide)
  have hd := fieldValue_lt img.day (tens := 4) (by decide)
  have hmo := fieldValue_lt img.month (tens := 2) (by decide)
  have hy := fieldValue_lt img.year (tens := 16) (by decide)
  have hyear : 1900 ≤ yearValue img ∧ yearValue img ≤ 2165 := by
    rw [yearValue]
    split <;> omega
  simp only [decodeImage_eq, timeValue]
  omega

/-- Settles O19: every byte is masked, and the century bit reaches bit 7 of the month only. -/
theorem encodeFixedBits : Obligations.EncodeFixedBits := by
  unfold Obligations.EncodeFixedBits
  intro dm ct img _ h
  obtain ⟨-, rfl⟩ := encode_ok h
  exact ⟨getLsbD_and_mask _ rfl, getLsbD_and_mask _ rfl,
    ⟨getLsbD_and_mask _ rfl, getLsbD_and_mask _ rfl⟩, ⟨getLsbD_and_mask _ rfl, getLsbD_and_mask _ rfl⟩,
    ⟨getLsbD_and_mask _ rfl, getLsbD_and_mask _ rfl, getLsbD_and_mask _ rfl, getLsbD_and_mask _ rfl,
      getLsbD_and_mask _ rfl⟩,
    imageOf_month_unused ct, imageOf_month_bit7 ct⟩

/-- Settles O20: the byte of each field's greatest value lies inside its mask, and what ENCODE gives is canonical. -/
theorem encodeMasksChangeNothing : Obligations.EncodeMasksChangeNothing := by
  unfold Obligations.EncodeMasksChangeNothing
  intro dm ct img hv h
  obtain ⟨hs, hm, hh, -, hw, ⟨-, hmo⟩, -⟩ := hv.toNat
  refine ⟨bcd8_inside_mask (n := 59) 7 rfl hs (by decide) (by decide),
    bcd8_inside_mask (n := 59) 7 rfl hm (by decide) (by decide),
    bcd8_inside_mask (n := 23) 6 rfl hh (by decide) (by decide), ?day,
    bcd8_inside_mask (n := 6) 3 rfl hw (by decide) (by decide),
    bcd8_inside_mask (n := 12) 5 rfl hmo (by decide) (by decide), (canonical_of_encode h).decimal⟩
  case day =>
    obtain ⟨-, -, -, ⟨-, hd⟩, -⟩ := hv
    cases dm with
    | d31 => exact bcd8_inside_mask (n := 31) 6 rfl (Int.toNat_le.2 hd) (by decide) (by decide)
    | d32 => exact bcd8_inside_mask (n := 32) 6 rfl (Int.toNat_le.2 hd) (by decide) (by decide)

/-- Settles O40: an invalid time stops the command before its first event (`setDateTime_invalid`). -/
theorem setDateTimeInvalid : Obligations.SetDateTimeInvalid := by
  unfold Obligations.SetDateTimeInvalid
  exact fun ct s hv => exec_of_error (i := .setDateTime ct) (setDateTime_invalid ct s hv)

end Sys2Proof.Machine
end

section
/-! PROOFS. The one-time initialisation: Ready is reached by the two configuration writes only, what of the mode
ENSURE_INIT sees, and that it does nothing when Ready. -/

namespace Sys2Proof.Machine

/-! ## The configuration writes -/

/-- An initialisation that goes well is two successful writes, CONTROL_1 first (R180, R183). -/
theorem InitRun.both_writes {cfg : Config} {mode : Byte} {d d' : Device} {evs : List BusEvent}
    (h : InitRun cfg mode d evs (.ok ()) d') :
    ∃ evs1 evs2 bs bs', evs = evs1 ++ evs2 ∧
      TxnRun cfg.busCfg (writeEvents cfg.devAddr cfg.addrControl1 [0x00]) evs1 (.ok bs) ∧
      TxnRun cfg.busCfg (writeEvents cfg.devAddr cfg.addrControl2 [mode &&& 0x13]) evs2 (.ok bs') := by
  cases h with
  | succeeds evs1 evs2 bs bs' d1 d' h1 s1 h2 s2 => exact ⟨evs1, evs2, bs, bs', rfl, h1, h2⟩

/-- ENSURE_INIT from Uninitialized in the reference environment appends the events of both writes (R182); the
parameters need not meet R9. -/
theorem refEnv_ensureInit_events {s : State} (h : ReferenceEnv s) (hinit : s.initState = .uninitialized) (mode : Byte) :
    ∃ t, exec (.ensureInit mode) s = .next t ∧
      t.trace.map BusEvent.event = s.trace.map BusEvent.event ++ initEvents s.cfg mode := by
  obtain ⟨t, ht, -, -, -, -, -, evs, htrace, -, hevents⟩ := refEnv_ensureInit h mode
  refine ⟨_, ensureInit_eq mode s, ?_⟩
  rw [respond_trace, ht, htrace, List.map_append, hevents, readyEvents_uninitialized hinit]

/-! ## The mode -/

/-- The bits of the mode that reach CONTROL_2 (R93). -/
theorem getLsbD_control2Mask {i : Nat} (h : i < 8) : control2Mask.getLsbD i = true ↔ i = 4 ∨ i = 1 ∨ i = 0 := by
  revert i
  decide

/-- Modes with the same bits 4, 1, 0 give the same byte for CONTROL_2. -/
theorem control2Value_congr {m m' : Byte} (h4 : m.getLsbD 4 = m'.getLsbD 4) (h1 : m.getLsbD 1 = m'.getLsbD 1)
    (h0 : m.getLsbD 0 = m'.getLsbD 0) : control2Value m = control2Value m' := by
  refine BitVec.eq_of_getLsbD_eq fun i hi => ?_
  simp only [control2Value, BitVec.getLsbD_and]
  by_cases hmask : control2Mask.getLsbD i = true
  · obtain rfl | rfl | rfl := (getLsbD_control2Mask hi).1 hmask
    · rw [h4]
    · rw [h1]
    · rw [h0]
  · rw [eq_false_of_ne_true hmask, Bool.and_false, Bool.and_false]

/-- Of the mode ENSURE_INIT sees the byte for CONTROL_2 only (R182). -/
theorem ensureInit_congr {m m' : Byte} (h : control2Value m = control2Value m') (s : State) :
    ensureInit m s = ensureInit m' s := by
  simp only [ensureInit, initialise, h]

/-- R189's examples: a mode and the byte it sends to CONTROL_2. -/
def maskExamples : List (Byte × Byte) :=
  [(0x00, 0x00), (0x01, 0x01), (0x02, 0x02), (0x10, 0x10), (0x13, 0x13), (0x1F, 0x13), (0xFF, 0x13), (0x0C, 0x00),
    (0xEC, 0x00), (0x04, 0x00)]

theorem mask_of_mem_maskExamples {p : Byte × Byte} (h : p ∈ maskExamples) : p.1 &&& 0x13 = p.2 := by
  have hall : maskExamples.all (fun p => p.1 &&& 0x13 == p.2) = true := by decide
  exact eq_of_beq (List.all_eq_true.1 hall p h)

/-! ## When Ready -/

/-- ENSURE_INIT does nothing when Ready (R182). -/
theorem ensureInit_ready {s : State} (h : s.initState = .ready) (mode : Byte) : ensureInit mode s = (.ok (), s) := by
  simp only [ensureInit, h]

/-! ## The obligations -/

/-- Settles O36: a command that ends Ready began with an initialisation that went well (`commandAct_initState`),
which is the two writes. -/
theorem readyOnlyAfterBothWrites : Obligations.ReadyOnlyAfterBothWrites := by
  unfold Obligations.ReadyOnlyAfterBothWrites
  intro i s t ht hinit hready
  cases (exec_eq i s).symm.trans ht
  obtain ⟨mode, evs, rest, htrace, d', hrun⟩ := commandAct_initState i s hinit hready
  obtain ⟨evs1, evs2, bs, bs', rfl, hwrite1, hwrite2⟩ := hrun.both_writes
  refine ⟨mode, evs1, evs2, rest, bs, bs', ?_, hwrite1, hwrite2⟩
  rw [respond_trace, htrace, ← List.append_assoc s.trace]

/-- Settles O35: on the reference device both writes are sent, the second with the masked mode; and the mask keeps
bits 4, 1, 0 only. -/
theorem modeMask : Obligations.ModeMask := by
  unfold Obligations.ModeMask
  refine ⟨fun p s hp hs hinit => ?examples, fun m m' s h4 h1 h0 => ?sameBits⟩
  case examples =>
    obtain ⟨t, ht, hevents⟩ := refEnv_ensureInit_events hs hinit p.1
    refine ⟨t, ht, ?_⟩
    rw [hevents, initEvents, mask_of_mem_maskExamples hp]
    rfl
  case sameBits =>
    rw [ensureInit_eq, ensureInit_eq, ensureInit_congr (control2Value_congr h4 h1 h0)]

/-- Settles O32: the piece answers `OK` in the state it began in, whatever the mode. -/
theorem ensureInitWhenReady : Obligations.EnsureInitWhenReady := by
  unfold Obligations.EnsureInitWhenReady
  intro mode s hready
  rw [ensureInit_eq, ensureInit_ready hready, respond_eq_delivered]
  rfl

end Sys2Proof.Machine
end

section
/-! PROOFS. Time transfer: what GET_DATETIME does in every environment. -/

namespace Sys2Proof.Machine

/-- GET_DATETIME is the reading of the image and the response that carries the decoded time (R196). -/
theorem getDateTime_eq (s : State) : exec .getDateTime s =
    .next (respond (resultOf ((getImage s).1.map decodedPayload)) (getImage s).2) := by
  rw [exec_eq]
  simp only [commandAct, andThen]
  rcases getImage s with ⟨r, t⟩
  cases r <;> rfl

/-- Settles O38: everything the reading of the image can do (`getImage_run`), and the response to it. -/
theorem getDateTimeRuns : Obligations.GetDateTimeRuns := by
  unfold Obligations.GetDateTimeRuns
  intro s
  obtain ⟨hkeeps, evs, q, htrace, hrun, hresult⟩ := getImage_run s
  refine ⟨_, evs, q, getDateTime_eq s, hkeeps.respond _, hkeeps.hostEpoch, htrace, hrun, ?_⟩
  rw [respond_responses, hkeeps.responses]
  cases q with
  | ok bs =>
    obtain ⟨img, himg, hread⟩ := hresult
    refine ⟨img, himg, ?_⟩
    rw [hread, ← decoded_response]
    rfl
  | error e =>
    have hread : (getImage s).1 = .error e := hresult
    rw [hread]
    rfl

end Sys2Proof.Machine
end

section
/-! PROOFS. The host clock: the conversion of R216 follows the calendar, SYNC_HOST_TO_DEV is SET_DATETIME of the
host's time, what SYNC_DEV_TO_HOST does in every environment, and that the one after the other leaves the clock
as it was. -/

namespace Sys2Proof.Machine

/-! ## The day count (R216) -/

/-- The days from 1 March of year 0 to 1 March of year `y`: R216 counts a year from March, so that the leap day
is its last. -/
def daysToMarch (y : Int) : Int := 365 * y + y / 4 - y / 100 + y / 400

/-- The year, counted from March, in which a month lies. -/
def marchYear (y m : Int) : Int := y - if m ≤ 2 then 1 else 0

/-- The days from 1 March to the first of a month. -/
def daysFromMarch (m : Int) : Int := (153 * ((m + 9) % 12) + 2) / 5

/-- R216's eras of 400 years add up to the three leap year rules; 719468 is the count of 1970-01-01. -/
theorem civilDays_eq (y m d : Int) :
    civilDays y m d = daysToMarch (marchYear y m) + daysFromMarch m + (d - 1) - 719468 := by
  simp only [civilDays, daysToMarch, daysFromMarch, marchYear]
  generalize y - (if m ≤ 2 then 1 else 0) = y'
  omega

/-- The day before 1 March of year `y` is the leap day of that year, if it has one. -/
theorem daysToMarch_pred (y : Int) : daysToMarch y = daysToMarch (y - 1) + 337 + monthDays y 2 := by
  simp only [daysToMarch, monthDays, LeapYear, if_true]
  split <;> omega

/-- Each day of a month follows the one before. -/
theorem civilDays_day_succ (y m d : Int) : civilDays y m (d + 1) = civilDays y m d + 1 := by
  simp only [civilDays_eq]
  omega

/-- Between two months of a year counted from March lie the days of the first. -/
theorem daysFromMarch_succ {y m : Int} (h1 : 1 ≤ m) (h12 : m < 12) (h2 : m ≠ 2) :
    daysFromMarch (m + 1) = daysFromMarch m + monthDays y m := by
  rw [monthDays, if_neg h2]
  obtain rfl | rfl | rfl | rfl | rfl | rfl | rfl | rfl | rfl | rfl :
      m = 1 ∨ m = 3 ∨ m = 4 ∨ m = 5 ∨ m = 6 ∨ m = 7 ∨ m = 8 ∨ m = 9 ∨ m = 10 ∨ m = 11 := by omega
  all_goals rfl

/-- Each month follows the last day of the one before; only from February to March does the year counted from
March change. -/
theorem civilDays_month_succ {y m : Int} (h1 : 1 ≤ m) (h12 : m < 12) :
    civilDays y (m + 1) 1 = civilDays y m (monthDays y m) + 1 := by
  rw [civilDays_eq, civilDays_eq]
  by_cases h2 : m = 2
  · subst h2
    have hfeb : marchYear y 2 = y - 1 := rfl
    have hmar : marchYear y (2 + 1) = y := Int.sub_zero y
    have hdays : daysFromMarch 2 = 337 ∧ daysFromMarch (2 + 1) = 0 := by decide
    rw [hfeb, hmar, hdays.1, hdays.2, daysToMarch_pred y]
    omega
  · have hyear : marchYear y (m + 1) = marchYear y m := by
      simp only [marchYear]
      split <;> split <;> omega
    rw [hyear, daysFromMarch_succ (y := y) h1 h12 h2]
    omega

/-- Each year follows 31 December of the one before. -/
theorem civilDays_year_succ (y : Int) : civilDays (y + 1) 1 1 = civilDays y 12 31 + 1 := by
  have hjan : marchYear (y + 1) 1 = y := Int.add_sub_cancel y 1
  have hdec : marchYear y 12 = y := Int.sub_zero y
  have hdays : daysFromMarch 1 = 306 ∧ daysFromMarch 12 = 275 := by decide
  rw [civilDays_eq, civilDays_eq, hjan, hdec, hdays.1, hdays.2]
  omega

/-- The second after the last of a day is the first of the next (R216). -/
theorem civilReference_midnight {y m d y' m' d' : Int} (h : civilDays y' m' d' = civilDays y m d + 1) (w w' : Int) :
    civilReference ⟨0, 0, 0, d', w', m', y'⟩ = civilReference ⟨59, 59, 23, d, w, m, y⟩ + 1 := by
  simp only [civilReference, h]
  omega

/-- Within the canonical bounds the reference host converts by R216. -/
theorem civilToEpoch_reference {cfg : Config} {ct : CalendarTime} (hcivil : cfg.civil = .reference)
    (hv : Valid .d31 ct) : civilToEpoch cfg ct = civilReference ct := by
  simp only [civilToEpoch, hcivil, if_pos hv]

/-! ## The host's time on the device -/

/-- The bounds with day 31 lie within those of either `P_DAY_MAX` (R150). -/
theorem Valid.of_d31 {ct : CalendarTime} (h : Valid .d31 ct) (dm : DayMax) : Valid dm ct := by
  obtain ⟨hs, hm, hh, ⟨hday, hday'⟩, hrest⟩ := h
  have hmax : dayMaxInt .d31 ≤ dayMaxInt dm := by cases dm <;> decide
  exact ⟨hs, hm, hh, ⟨hday, Int.le_trans hday' hmax⟩, hrest⟩

/-- The host clock is not among what a command's frame speaks of (R39, R219). -/
theorem respond_setHostEpoch_frame {s u : State} (h : Keeps s u) (r : Result) (e : Int) :
    CommandFrame s (respond r (u.setHostEpoch e)) :=
  ⟨respond_idle _ _, h.cfg, h.inbox, h.mode, h.busHeld⟩

/-- A command whose piece fails ends with the response to its error (R242). -/
theorem exec_of_failed {i : Instr} {s t : State} {e : CmdError} (h : commandAct i s = (.error e, t)) :
    exec i s = .next (respond (.err e) t) := by
  rw [exec_eq, h]
  rfl

/-- SYNC_HOST_TO_DEV is SET_DATETIME after the reading of the host clock (R222). -/
theorem syncHostToDev_eq (s : State) : exec .syncHostToDev s = exec (.setDateTime (hostUtc s)) s.afterHostRead := rfl

/-! ## The obligations -/

/-- Settles O44: everything the reading of the image can do (`getImage_run`); only an image that was read reaches
the host clock. -/
theorem syncDevToHostRuns : Obligations.SyncDevToHostRuns := by
  unfold Obligations.SyncDevToHostRuns
  intro s
  obtain ⟨hkeeps, evs, q, htrace, hrun, hresult⟩ := getImage_run s
  cases q with
  | ok bs =>
    obtain ⟨img, himg, hread⟩ := hresult
    have hexec := exec_of_ok (i := .syncDevToHost) (andThen_ok (Prod.ext hread rfl) _)
    refine ⟨_, evs, .ok bs, hexec, respond_setHostEpoch_frame hkeeps _ _, htrace, hrun, img, himg, ?epoch, ?resp⟩
    case epoch => rw [respond_hostEpoch, setHostEpoch_hostEpoch, hkeeps.cfg, decodeImage_eq]
    case resp => rw [respond_responses, setHostEpoch_responses, hkeeps.responses, flag_response]
  | error e =>
    have hread : getImage s = (.error e, (getImage s).2) := Prod.ext hresult rfl
    have hexec := exec_of_failed (i := .syncDevToHost) (andThen_error hread _)
    refine ⟨_, evs, .error e, hexec, hkeeps.respond _, htrace, hrun, hkeeps.hostEpoch, ?_⟩
    rw [respond_responses, hkeeps.responses, errorResponse_eq]

/-- Settles O48: the first command leaves the image of the host's time in the time block, where the second reads it
and converts it back. -/
theorem hostClockRoundTrip : Obligations.HostClockRoundTrip := by
  unfold Obligations.HostClockRoundTrip
  intro s hs hcfg hcivil hv hback
  have hvalid := hv.of_d31 s.cfg.dayMax
  obtain ⟨t, ht, hset, -, -, hregs⟩ := syncHostToDevOnReferenceDevice s hs hcfg hvalid
  have hcfgt : t.cfg = s.cfg := hset.frame.cfg
  obtain ⟨u, hu, hget, -, hepoch, -⟩ := syncDevToHostOnReferenceDevice t hset.env (hcfgt ▸ hcfg)
  have himage : imageAt t.dev t.cfg.addrTimeBlock = imageOf (hostUtc s) := by
    rw [hcfgt]
    exact timeBlock_readback hcfg (by rw [imageOf_digits hvalid]; exact hregs)
  obtain ⟨htime, hflag⟩ := decode_imageOf hvalid
  refine ⟨t, u, ht, hu, ?epoch, ?resp⟩
  case epoch => rw [hepoch, himage, ← decodeImage_eq, htime, hcfgt, civilToEpoch_reference hcivil hv, hback]
  case resp =>
    have hresp := flag_response (imageAt t.dev t.cfg.addrTimeBlock)
    rw [himage, hflag, ← himage] at hresp
    rw [hget.responses, hset.responses, List.append_assoc]
    exact congrArg (fun r => s.responses ++ [[0x00, 0x00], r]) hresp.symm

/-- Settles O49: the day count by the day, the month and the year; the seconds are linear in the fields, and at
midnight the day count goes on. -/
theorem civilDaysFollowCalendar : Obligations.CivilDaysFollowCalendar := by
  unfold Obligations.CivilDaysFollowCalendar
  refine ⟨by decide, fun y m d h1 _ => ⟨civilDays_day_succ y m d, civilDays_month_succ h1, civilDays_year_succ y⟩,
    fun w => rfl, fun s mi h d w w' m y h1 _ => ⟨?second, ?minute, ?hour, ?day, fun h12 => ?month, ?year⟩,
    fun cfg ct => civilToEpoch_reference⟩
  case second => simp only [civilReference]; omega
  case minute => simp only [civilReference]; omega
  case hour => simp only [civilReference]; omega
  case day => exact civilReference_midnight (civilDays_day_succ y m d) w w'
  case month => exact civilReference_midnight (civilDays_month_succ h1 h12) w w'
  case year => exact civilReference_midnight (civilDays_year_succ y) w w'

/-- Settles O46: after the reading of the host clock it is SET_DATETIME, which refuses an invalid time
(`setDateTime_invalid`). -/
theorem syncHostToDevSetsHostTime : Obligations.SyncHostToDevSetsHostTime := by
  unfold Obligations.SyncHostToDevSetsHostTime
  refine fun s => ⟨syncHostToDev_eq s, fun hv => ?_⟩
  rw [syncHostToDev_eq]
  exact exec_of_error (i := .setDateTime (hostUtc s)) (setDateTime_invalid _ s.afterHostRead hv)

end Sys2Proof.Machine
end
